-- ==== Sys2Proof/Word.lean ====
section
/-! DEFINITION. The word types of the block: bytes, 32-bit registers and bit sequences. -/

namespace Sys2Proof

/-- A byte of DMEM, and so a symbol (R8: "a byte, 0 to 255"). -/
abbrev Byte := BitVec 8

/-- A 32-bit register or command word (R8, R120, R300). -/
abbrev Word := BitVec 32

/-- A bit sequence, its first element the first bit emitted (R12). -/
abbrev BitSeq := List Bool

end Sys2Proof
end

