-- ==== Sys2Proof/Syntax.lean ====
section
/-! DEFINITION. The command set as syntax: the fields of format C (R301) and one constructor per row of the opcode
map (R302). -/

namespace Sys2Proof

/-- The output layout chosen by command flag A (R301): packed (R240) or ASCII (R241). -/
inductive Layout where
  /-- A = 0. -/
  | packed
  /-- A = 1. -/
  | ascii
deriving DecidableEq, Repr

/-- The fields of a command word, format C (R301): RSV in bits 31:9, A in bit 8, OP in bits 7:0. -/
structure Fields where
  rsv : BitVec 23
  a : Bool
  op : Byte
deriving DecidableEq, Repr

/-- The commands of R302. A command has no operand field but the layout flag of EMIT, HUFF and BINX (R303, R304). -/
inductive Instr where
  | nop
  | freq
  | tree
  | codes
  | emit (a : Layout)
  | huff (a : Layout)
  | rle
  | binx (a : Layout)
  | ratio
  | ftload
  | ftstore
  | ctload
  | ctstore
  | clear
deriving DecidableEq, Repr

end Sys2Proof
end

