-- ==== Sys2Proof/WellFormed.lean ====
section
/-! DEFINITION. When the fields of a command word form a legal command (R310). A term of `Instr` cannot be ill formed:
only the three constructors of R303 carry a layout. The checks are therefore about `Fields`. -/

namespace Sys2Proof

/-- R301: bits 31:9 "must be 0". -/
def Fields.rsvZero (f : Fields) : Bool := f.rsv == 0

/-- R302: opcodes 0x00 to 0x0D are commands; 0x0E to 0xFF are reserved. -/
def Fields.opKnown (f : Fields) : Bool := f.op.toNat ≤ 0x0D

/-- R303: "The A flag is legal on EMIT, HUFF and BINX only", opcodes 0x04, 0x05 and 0x07. -/
def Fields.flagAllowed (f : Fields) : Bool :=
  !f.a || f.op.toNat == 0x04 || f.op.toNat == 0x05 || f.op.toNat == 0x07

/-- A legal word: none of the three cases of R310. -/
def Fields.wellFormed (f : Fields) : Bool := f.rsvZero && f.opKnown && f.flagAllowed

end Sys2Proof
end

