-- ==== Sys2Proof/Decode.lean ====
section
/-! DEFINITION. Decoding of command words (R320), total on all 2^32 words and rejecting by name, and the encoder
written from the opcode map (R302). -/

namespace Sys2Proof

/-- Why a word is illegal: the three cases of R310, in the order R320 tests them. -/
inductive IllegalWord where
  /-- w[31:9] is not 0. -/
  | reservedBits
  /-- w[7:0] is in 0x0E to 0xFF. -/
  | reservedOpcode
  /-- w[8] = 1 on an opcode other than EMIT, HUFF and BINX. -/
  | layoutFlag
deriving DecidableEq, Repr

/-- The fields of a word (R301). -/
def fieldsOf (w : Word) : Fields :=
  { rsv := w.extractLsb' 9 23, a := w.getLsbD 8, op := w.extractLsb' 0 8 }

/-- The word with the given fields (R301). -/
def Fields.word (f : Fields) : Word := f.rsv ++ (BitVec.ofBool f.a ++ f.op)

/-- The layout a flag bit stands for (R301). -/
def layoutOf (a : Bool) : Layout := if a then .ascii else .packed

/-- The flag bit of a layout (R301). -/
def Layout.flag : Layout → Bool
  | .packed => false
  | .ascii => true

/-- `mnemonic_of` of R320: the opcode map of R302. -/
def mnemonicOf (op : Nat) (a : Bool) : Option Instr :=
  match op with
  | 0x00 => some .nop
  | 0x01 => some .freq
  | 0x02 => some .tree
  | 0x03 => some .codes
  | 0x04 => some (.emit (layoutOf a))
  | 0x05 => some (.huff (layoutOf a))
  | 0x06 => some .rle
  | 0x07 => some (.binx (layoutOf a))
  | 0x08 => some .ratio
  | 0x09 => some .ftload
  | 0x0A => some .ftstore
  | 0x0B => some .ctload
  | 0x0C => some .ctstore
  | 0x0D => some .clear
  | _ => none

/-- May the opcode carry A = 1? (R303) -/
def flagOpcode (op : Nat) : Bool := op == 0x04 || op == 0x05 || op == 0x07

/-- Decoding, R320. -/
def decode (w : Word) : Except IllegalWord Instr :=
  let f := fieldsOf w
  if f.rsv ≠ 0 then .error .reservedBits
  else if f.op.toNat > 0x0D then .error .reservedOpcode
  else if f.a && !flagOpcode f.op.toNat then .error .layoutFlag
  else
    match mnemonicOf f.op.toNat f.a with
    | some i => .ok i
    | none => .error .reservedOpcode

/-- The opcode of a command (R302). -/
def Instr.opcode : Instr → Byte
  | .nop => 0x00
  | .freq => 0x01
  | .tree => 0x02
  | .codes => 0x03
  | .emit _ => 0x04
  | .huff _ => 0x05
  | .rle => 0x06
  | .binx _ => 0x07
  | .ratio => 0x08
  | .ftload => 0x09
  | .ftstore => 0x0A
  | .ctload => 0x0B
  | .ctstore => 0x0C
  | .clear => 0x0D

/-- The A bit of a command (R302). -/
def Instr.flag : Instr → Bool
  | .emit a => a.flag
  | .huff a => a.flag
  | .binx a => a.flag
  | .nop => false
  | .freq => false
  | .tree => false
  | .codes => false
  | .rle => false
  | .ratio => false
  | .ftload => false
  | .ftstore => false
  | .ctload => false
  | .ctstore => false
  | .clear => false

/-- The fields of a command's word (R301, R302). -/
def Instr.fields (i : Instr) : Fields := { rsv := 0, a := i.flag, op := i.opcode }

/-- The word of a command (R302). -/
def encode (i : Instr) : Word := i.fields.word

/-- The host's reading of an opcode-table word: a command is one 32-bit word (R300), so the table's bit numbers are the
word's own. -/
def decodeTableWord (nbits w : Nat) : Option Instr :=
  let v := w % 2 ^ nbits
  if v < 2 ^ 32 then
    match decode (BitVec.ofNat 32 v) with
    | .ok i => some i
    | .error _ => none
  else none

end Sys2Proof
end

