-- ==== Sys2Proof/Machine/Types.lean ====
section
/-! DEFINITION. The plain data that State and the free values share: the three internal stores, the argument and result
registers, regions and errors, with their accessors. -/

namespace Sys2Proof.Machine

/-- A table with one entry per symbol: the 256 entries of FT (R130) and of CT (R133). -/
abbrev Table (α : Type) := Vector α 256

/-- Entry `b` of a table. -/
def Table.entry {α : Type} (t : Table α) (b : Byte) : α := t[b.toNat]'b.isLt

/-- The table whose entry for each symbol is given by `f`. -/
def Table.tab {α : Type} (f : Byte → α) : Table α := Vector.ofFn fun i => f (BitVec.ofFin i)

/-- The table with entry `b` replaced. -/
def Table.put {α : Type} (t : Table α) (b : Byte) (v : α) : Table α := Vector.set t b.toNat v b.isLt

/-- The symbols in increasing order, 0 to 255 (R8). -/
def allSymbols : List Byte := (List.range 256).map (BitVec.ofNat 8)

/-- The frequency table: a u32 count for each symbol (R130). -/
abbrev FreqTable := Table Word

/-- The code table: each symbol's code. LEN is the code's length; the empty code is LEN = 0, no entry (R133). -/
abbrev CodeTable := Table BitSeq

/-- The tree of the node store (R132), a node owning its children. `weight` is an exact natural number (R131) and `seq`
the tie-break key (R421). -/
inductive HTree where
  | leaf (sym : Byte) (weight seq : Nat)
  | node (weight seq : Nat) (left right : HTree)
deriving DecidableEq, Repr, Inhabited

/-- A node's weight (R132). -/
def HTree.weight : HTree → Nat
  | .leaf _ w _ => w
  | .node w _ _ _ => w

/-- A node's sequence number (R421). -/
def HTree.seq : HTree → Nat
  | .leaf _ _ q => q
  | .node _ q _ _ => q

/-- The symbols at the leaves, left to right. -/
def HTree.symbols : HTree → List Byte
  | .leaf s _ _ => [s]
  | .node _ _ l r => l.symbols ++ r.symbols

/-- The number of nodes. -/
def HTree.size : HTree → Nat
  | .leaf _ _ _ => 1
  | .node _ _ l r => l.size + r.size + 1

/-- Every internal node's weight is the sum of its children's (R132). -/
def HTree.sumsOk : HTree → Bool
  | .leaf _ _ _ => true
  | .node w _ l r => w == l.weight + r.weight && l.sumsOk && r.sumsOk

/-- The invariants R132 and R425 give a tree that TREE or HUFF built: weights are sums and each leaf occurs once. -/
def HTree.wf (t : HTree) : Bool := t.sumsOk && decide t.symbols.Nodup

/-- The seven argument registers (R124). The same record is the snapshot of a running command (R111). -/
structure Args where
  srcAddr : Word
  srcLen : Word
  dstAddr : Word
  dstCap : Word
  tblAddr : Word
  arg0 : Word
  arg1 : Word
deriving DecidableEq, Repr

/-- The eight result registers (R125). -/
structure Results where
  inBits : Word
  outBits : Word
  outBytes : Word
  runs : Word
  nsym : Word
  maxlen : Word
  resLo : Word
  resHi : Word
deriving DecidableEq, Repr

/-- The names of the result registers (R125). -/
inductive ResultReg where
  | inBits | outBits | outBytes | runs | nsym | maxlen | resLo | resHi
deriving DecidableEq, Repr

/-- The result registers in the order of R125. -/
def ResultReg.all : List ResultReg := [.inBits, .outBits, .outBytes, .runs, .nsym, .maxlen, .resLo, .resHi]

/-- A result register's number, to tell apart the draws made for different registers. -/
def ResultReg.index : ResultReg → Nat
  | .inBits => 0
  | .outBits => 1
  | .outBytes => 2
  | .runs => 3
  | .nsym => 4
  | .maxlen => 5
  | .resLo => 6
  | .resHi => 7

/-- The value of a result register. -/
def Results.read (r : Results) : ResultReg → Word
  | .inBits => r.inBits
  | .outBits => r.outBits
  | .outBytes => r.outBytes
  | .runs => r.runs
  | .nsym => r.nsym
  | .maxlen => r.maxlen
  | .resLo => r.resLo
  | .resHi => r.resHi

/-- Write one result register. -/
def Results.write (r : Results) (x : ResultReg) (v : Word) : Results :=
  match x with
  | .inBits => { r with inBits := v }
  | .outBits => { r with outBits := v }
  | .outBytes => { r with outBytes := v }
  | .runs => { r with runs := v }
  | .nsym => { r with nsym := v }
  | .maxlen => { r with maxlen := v }
  | .resLo => { r with resLo := v }
  | .resHi => { r with resHi := v }

/-- A region of DMEM (R19): the offsets from `addr` to `addr + len - 1`. -/
structure Region where
  addr : Nat
  len : Nat
deriving DecidableEq, Repr

/-- Is the offset `a` inside the region? -/
def Region.has (g : Region) (a : Nat) : Bool := g.addr ≤ a && a < g.addr + g.len

/-- R230: a region is valid when `addr + len <= DMEM_SIZE`, "computed exactly, with no 32-bit wrap". -/
def Region.valid (g : Region) (size : Nat) : Bool := g.addr + g.len ≤ size

/-- R231: when two regions overlap. -/
def Region.overlaps (g h : Region) : Bool :=
  0 < g.len && 0 < h.len && g.addr < h.addr + h.len && h.addr < g.addr + g.len

/-- The reasons of InvalidInput (R902). -/
inductive InputReason where
  | emptySource | noFreqTable | emptyFreqTable | noCodeTable | zeroDenominator
deriving DecidableEq, Repr

/-- The reason's number in ERRINFO0 (R902). -/
def InputReason.code : InputReason → Word
  | .emptySource => 1
  | .noFreqTable => 2
  | .emptyFreqTable => 3
  | .noCodeTable => 4
  | .zeroDenominator => 5

/-- The regions an AddressError can name (R902). -/
inductive RegionKind where
  | source | destination | table | overlap
deriving DecidableEq, Repr

/-- The region's number in ERRINFO0 (R902). -/
def RegionKind.code : RegionKind → Word
  | .source => 1
  | .destination => 2
  | .table => 3
  | .overlap => 4

/-- The errors the engine raises, with their data (R901, R902). UnsupportedFormat, code 4, is never raised (R904). -/
inductive CmdError where
  | invalidInput (reason : InputReason)
  | emptyTree
  | unknownSymbol (index : Nat) (value : Byte)
  | illegalCommand (word : Word)
  | addressError (which : RegionKind) (start : Word)
  | outputOverflow (need : Nat) (cap : Word)
deriving DecidableEq, Repr

/-- The ERRCODE of an error (R901). -/
def CmdError.code : CmdError → Byte
  | .invalidInput _ => 1
  | .emptyTree => 2
  | .unknownSymbol _ _ => 3
  | .illegalCommand _ => 5
  | .addressError _ _ => 6
  | .outputOverflow _ _ => 7

/-- The ERRINFO0 of an error (R902). -/
def CmdError.info0 : CmdError → Word
  | .invalidInput r => r.code
  | .emptyTree => 0
  | .unknownSymbol i _ => BitVec.ofNat 32 i
  | .illegalCommand w => w
  | .addressError g _ => g.code
  | .outputOverflow n _ => BitVec.ofNat 32 n

/-- The ERRINFO1 of an error (R902). -/
def CmdError.info1 : CmdError → Word
  | .invalidInput _ => 0
  | .emptyTree => 0
  | .unknownSymbol _ b => b.setWidth 32
  | .illegalCommand _ => 0
  | .addressError _ a => a
  | .outputOverflow _ c => c

/-- Is the error raised while the command runs (a data error), and not by a check? (R905, R920) -/
def CmdError.isData : CmdError → Bool
  | .unknownSymbol _ _ => true
  | .outputOverflow _ _ => true
  | .invalidInput _ => false
  | .emptyTree => false
  | .illegalCommand _ => false
  | .addressError _ _ => false

/-- The codes the engine may leave in ERRCODE (R901): 0 and the six kinds it raises, never 4 and never 8 to 255. -/
def legalErrCode (c : Byte) : Bool :=
  c == 0 || c == 1 || c == 2 || c == 3 || c == 5 || c == 6 || c == 7

end Sys2Proof.Machine
end

