-- ==== Sys2Proof/Config.lean ====
section
/-! DEFINITION. What is fixed for the block: the identification constants (R120), the default of the one parameter
DMEM_SIZE (R7), the DMEM window's base (R200); and the free values (section 1 of 93_implementation_defined.md), opaque
constants without a body, so that nothing can be proved about the value drawn. -/

namespace Sys2Proof.Config

/-- The ID register (R120). -/
def idValue : Word := 0x43584531

/-- The VERSION register (R120). -/
def versionValue : Word := 0x00000001

/-- The host-port offset of `DMEM[0]` (R200). -/
def dmemBase : Nat := 0x01000000

/-- DMEM_SIZE = 2^(12 + k) for k in 0..12 (R7): the legal sizes are the powers of two from 2^12 to 2^24. -/
def dmemSizeOf (k : Fin 13) : Nat := 2 ^ (12 + k.val)

/-- The node store has room for 511 nodes (R8, R132). -/
def maxNodes : Nat := 511

/-- The default size, 2^16 (R7). -/
def defaultMemLog : Fin 13 := 4

/-- Free byte for DMEM offset `a` at draw `n` (U1, U2, U3, U4, U7). -/
opaque freeByte (n a : Nat) : Byte

/-- Free register value number `k` at draw `n` (U3, U5). -/
opaque freeWord (n k : Nat) : Word

/-- Free bit number `k` at draw `n` (U3, U5). -/
opaque freeFlag (n k : Nat) : Bool

/-- How many host events may still come before the completion of a command accepted at draw `n` (U8, U9). -/
opaque freeDelay (n : Nat) : Nat

/-- Free tree at draw `n` (U3). -/
opaque freeTree (n : Nat) : Machine.HTree

/-- Free choice among the seven codes the engine may leave in ERRCODE, at draw `n` (U3, U14). -/
opaque freeErrPick (n : Nat) : Fin 7

end Sys2Proof.Config
end

