-- ==== Sys2Proof/Machine/State.lean ====
section
/-! DEFINITION. The architectural state (10_state.md), the reasons a step could stop, and the reset state (R1000). -/

namespace Sys2Proof.Machine

/-- Why a step could stop with a fault. The spec gives the block none: "No entry of this spec uses `stuck`"
(93_implementation_defined.md), an error ends one command and the engine goes on (R900), and a bus error is a response
(R922). So this type has no constructor, and no step can fault. -/
inductive Fault
deriving DecidableEq, Repr

/-- Why a step could be refused. -/
inductive Refusal where
  /-- Raised by `exec` for a command without a meaning; safe. No arm uses it: every command has its meaning. -/
  | notModelled (mnemonic : String)
deriving DecidableEq, Repr

/-- A command that has been accepted and has not completed: `BUSY(w, snap)` of R110, and beside it three records of the
model's own. -/
structure Run where
  /-- The accepted command word `w`. -/
  word : Word
  /-- The argument snapshot `snap` (R111). -/
  snap : Args
  /-- MODEL'S OWN: host events that may still be served before the completion (U8). -/
  delay : Nat
  /-- MODEL'S OWN: has the host written the running command's input? (R1020) -/
  raced : Bool
  /-- MODEL'S OWN: bytes of the running command's output that the host has written (R1021). -/
  touched : List Nat
deriving DecidableEq, Repr

/-- The engine phase (R110). -/
inductive Phase where
  | idle
  | busy (r : Run)
deriving DecidableEq, Repr

/-- One host access as the signals of R201 carry it. -/
structure Access where
  /-- `req_addr` -/
  addr : Word
  /-- `req_write` -/
  write : Bool
  /-- `req_size` -/
  size : BitVec 3
  /-- `req_wdata` -/
  wdata : Word
deriving DecidableEq, Repr

/-- What the host does to the block (R1031): an access at the host port, the polling loop WAIT (R341), or a new level of
the `rst_n` pin (R1001). -/
inductive HostEvent where
  | access (q : Access)
  | wait
  | rstN (level : Bool)
deriving DecidableEq, Repr

/-- The block's answer to an access (R201, R202). -/
inductive Response where
  /-- A read served: `resp_err` = 0 and `resp_rdata` = `v`. -/
  | readOk (v : Word)
  /-- A write served: `resp_err` = 0. -/
  | writeOk
  /-- A read with a bus error: `resp_err` = 1, and `resp_rdata` = 0. -/
  | readErr
  /-- A write with a bus error: `resp_err` = 1. -/
  | writeErr
deriving DecidableEq, Repr

/-- The machine. Where a field is the model's own and not the spec's, its docstring says so. -/
structure State where
  /-- The parameter DMEM_SIZE = 2^(12 + memLog) (R7), read as MEMSIZE (R120). No step changes it. -/
  memLog : Fin 13
  /-- The level of the `rst_n` pin (R201, R1001). -/
  rstN : Bool
  /-- The engine phase and the snapshot (R110, R111). -/
  phase : Phase
  /-- CTRL.IE (R121). -/
  ie : Bool
  /-- INTR.DONE (R123). -/
  intrDone : Bool
  /-- INTR.DROP (R123). -/
  intrDrop : Bool
  /-- ERRCODE[7:0] (R120, R901). -/
  errCode : Byte
  /-- ERRINFO0 (R120, R902). -/
  errInfo0 : Word
  /-- ERRINFO1 (R120, R902). -/
  errInfo1 : Word
  /-- The live argument registers (R124). -/
  args : Args
  /-- The result registers (R125). -/
  results : Results
  /-- The FT store (R130): `some` exactly when STATUS.FT_VALID = 1. Contents that are not valid are not held: the spec
  leaves them unspecified and no command reads them (U6). -/
  ft : Option FreqTable
  /-- The node store and ROOT (R132): `some` exactly when STATUS.TREE_VALID = 1. -/
  tree : Option HTree
  /-- The CT store (R133): `some` exactly when STATUS.CT_VALID = 1. -/
  ct : Option CodeTable
  /-- The bytes of DMEM written since hardware reset (R14, R1001), offsets strictly rising. -/
  mem : List Host.Cell
  /-- MODEL'S OWN: the draw that every DMEM byte not listed in `mem` was given at hardware reset (U1). -/
  memDraw : Nat
  /-- MODEL'S OWN: the next draw of a free value. -/
  draws : Nat
  /-- MODEL'S OWN: the host's pending events, first to come first (R261). -/
  hostQ : List HostEvent
  /-- The response lines after the host's last event (R201); `none` when the event had no answer. -/
  resp : Option Response
deriving DecidableEq, Repr

/-- All argument registers at their reset value (R1000). -/
def Args.zero : Args := ⟨0, 0, 0, 0, 0, 0, 0⟩

/-- All result registers at their reset value (R1000). -/
def Results.zero : Results := ⟨0, 0, 0, 0, 0, 0, 0, 0⟩

/-- The state after hardware reset of a block with DMEM_SIZE = 2^(12 + k): R1000, `rst_n` risen (R1001). -/
def State.resetOf (k : Fin 13) : State where
  memLog := k
  rstN := true
  phase := .idle
  ie := false
  intrDone := false
  intrDrop := false
  errCode := 0
  errInfo0 := 0
  errInfo1 := 0
  args := Args.zero
  results := Results.zero
  ft := none
  tree := none
  ct := none
  mem := []
  memDraw := 0
  draws := 1
  hostQ := []
  resp := none

/-- The state after hardware reset at the default DMEM_SIZE (R7, R1000). -/
def State.reset : State := State.resetOf Config.defaultMemLog

end Sys2Proof.Machine
end

