-- ==== Sys2Proof/Machine/Ops.lean ====
section
/-! DEFINITION. The operations shared by every command: DMEM (R14, R210), bit sequences in bytes (R211, R240, R241), the
result registers (R125), acceptance (R110), success completion (R919) and the raising of an error (R15, R920). -/

namespace Sys2Proof.Machine

/-! ### DMEM as a list of cells -/

/-- The byte listed at offset `a`. -/
def memGet (m : List Host.Cell) (a : Nat) : Option Byte :=
  match m with
  | [] => none
  | c :: m => if c.1 = a then some c.2 else memGet m a

/-- The cells of the bytes `bs` at offsets `a`, `a + 1`, … -/
def cells (a : Nat) (bs : List Byte) : List Host.Cell :=
  match bs with
  | [] => []
  | b :: bs => (a, b) :: cells (a + 1) bs

/-- Store the bytes `bs` at offsets `a`, `a + 1`, …, keeping the offsets rising. -/
def memStore (m : List Host.Cell) (a : Nat) (bs : List Byte) : List Host.Cell :=
  m.filter (fun c => c.1 < a) ++ cells a bs ++ m.filter (fun c => a + bs.length ≤ c.1)

/-- The canonical form: offsets strictly rising. An unlisted offset lists no value, so every listed byte differs from
what an unlisted offset lists. -/
def memRising : List Host.Cell → Bool
  | [] => true
  | [_] => true
  | c :: d :: m => c.1 < d.1 && memRising (d :: m)

/-- The memory's form: canonical, and no byte beyond DMEM (R14: `0 <= a < DMEM_SIZE`). -/
def memWf (m : List Host.Cell) (size : Nat) : Bool := memRising m && m.all (fun c => c.1 < size)

/-- DMEM_SIZE (R7). -/
def State.dmemSize (s : State) : Nat := Config.dmemSizeOf s.memLog

/-- The memory of `s` is in its form. -/
def State.memOk (s : State) : Bool := memWf s.mem s.dmemSize

/-- `DMEM[a]` (R14). A byte that nothing has written since hardware reset is the draw it was given then: one value per
byte, stable until written (R1001, U1). -/
def State.byteAt (s : State) (a : Nat) : Byte :=
  match memGet s.mem a with
  | some b => b
  | none => Config.freeByte s.memDraw a

/-- The `n` bytes at offsets `a`, `a + 1`, … -/
def State.bytesAt (s : State) (a n : Nat) : List Byte := (List.range n).map fun i => s.byteAt (a + i)

/-- The little-endian value of bytes, lowest offset first (R14, R210). -/
def leValue : List Byte → Nat
  | [] => 0
  | b :: bs => b.toNat + 256 * leValue bs

/-- The `n` little-endian bytes of a value, lowest offset first (R14, R210). -/
def leBytes : Nat → Nat → List Byte
  | 0, _ => []
  | n + 1, v => BitVec.ofNat 8 v :: leBytes n (v / 256)

/-- `MemRead(a, n)` (R14). -/
def State.memRead (s : State) (a n : Nat) : Nat := leValue (s.bytesAt a n)

/-- Store bytes at DMEM offsets `a`, `a + 1`, … -/
def State.storeBytes (s : State) (a : Nat) (bs : List Byte) : State := { s with mem := memStore s.mem a bs }

/-- `MemWrite(a, n, v)` (R14). -/
def State.memWrite (s : State) (a n v : Nat) : State := s.storeBytes a (leBytes n v)

/-- Free bytes for the `n` offsets from `a` at draw `k`, one draw per byte (U2). -/
def freeBytes (k a n : Nat) : List Byte := (List.range n).map fun i => Config.freeByte k (a + i)

/-- Give every byte of a region that lies in DMEM a free value (R920, U2, U7). -/
def State.smear (s : State) (g : Region) : State :=
  { s with mem := memStore s.mem g.addr (freeBytes s.draws g.addr (min g.len (s.dmemSize - g.addr))), draws := s.draws + 1 }

/-- Give every byte of a region, where there is one, a free value. -/
def State.smearOpt (s : State) (g : Option Region) : State :=
  match g with
  | some g => s.smear g
  | none => s

/-- Give each byte of a list of offsets a free value (R1021, U4). -/
def State.smearList (s : State) (as : List Nat) : State :=
  { s with mem := as.foldl (fun m a => memStore m a [Config.freeByte s.draws a]) s.mem, draws := s.draws + 1 }

/-- What completion leaves in the output bytes the host wrote while the command ran (R1021). -/
def State.smearTouched (s : State) (as : List Nat) : State := if as.isEmpty then s else s.smearList as

/-! ### Bit sequences in bytes -/

/-- The bits of a byte, most significant first (R211). -/
def expandByte (b : Byte) : BitSeq := (List.range 8).map fun i => b.getLsbD (7 - i)

/-- The byte whose bit `7 - i` is `bit i`, for i in 0..7 (R211, the inner loop of R240). -/
def packByte (bit : Nat → Bool) : Byte :=
  (List.range 8).foldl (fun byte i => byte ||| ((BitVec.ofBool (bit i)).setWidth 8 <<< (7 - i))) 0

/-- Bit `k` of a sequence, 0 past its end: the padding of R240. -/
def bitAt (s : BitSeq) (k : Nat) : Bool := s.getD k false

/-- The packed layout (R240). -/
def packBits (s : BitSeq) : List Byte :=
  (List.range ((s.length + 7) / 8)).map fun j => packByte fun i => bitAt s (8 * j + i)

/-- The ASCII layout (R241): one byte 0x30 or 0x31 for each bit. -/
def asciiBits (s : BitSeq) : List Byte := s.map fun b => if b then 0x31 else 0x30

/-- A bit sequence in a layout (R240, R241). -/
def layoutBytes (a : Layout) (s : BitSeq) : List Byte :=
  match a with
  | .packed => packBits s
  | .ascii => asciiBits s

/-- The number of bytes a sequence of `n` bits takes in a layout: `need` of R530 and R540 (R240, R241). -/
def layoutSize (a : Layout) (n : Nat) : Nat :=
  match a with
  | .packed => (n + 7) / 8
  | .ascii => n

/-! ### Result registers -/

/-- Write several result registers. -/
def State.setResults (s : State) (vs : List (ResultReg × Word)) : State :=
  { s with results := vs.foldl (fun r v => r.write v.1 v.2) s.results }

/-- Write 0 to the given result registers (R920). -/
def State.zeroResults (s : State) (rs : List ResultReg) : State := s.setResults (rs.map fun r => (r, 0))

/-! ### The life of a command -/

/-- The argument snapshot (R111): that of the running command. In IDLE there is none, and these are the registers that an
acceptance would latch; no step runs a command in IDLE. -/
def State.snap (s : State) : Args :=
  match s.phase with
  | .busy r => r.snap
  | .idle => s.args

/-- STATUS.BUSY (R122). -/
def State.isBusy (s : State) : Bool :=
  match s.phase with
  | .busy _ => true
  | .idle => false

/-- Acceptance of a command word (R110): the snapshot is latched, the error registers cleared, the phase BUSY. It is also
the return from an error: "Acceptance of that command clears ERRCODE, ERRINFO0 and ERRINFO1" (R923). -/
def State.accept (s : State) (w : Word) (delay : Nat) : State :=
  { s with
    errCode := 0, errInfo0 := 0, errInfo1 := 0
    phase := .busy { word := w, snap := s.args, delay := delay, raced := false, touched := [] } }

/-- The end of every completion (R112): `phase <- IDLE; INTR.DONE <- 1`. After a success nothing else is left to do
(R919). -/
def State.complete (s : State) : State := { s with phase := .idle, intrDone := true }

/-- Write the error registers (R15, R902). -/
def State.setError (s : State) (e : CmdError) : State :=
  { s with errCode := e.code, errInfo0 := e.info0, errInfo1 := e.info1 }

/-- The destination region of the running command, (DST_ADDR, DST_CAP) (R232). -/
def State.dstRegion (s : State) : Region := ⟨s.snap.dstAddr.toNat, s.snap.dstCap.toNat⟩

/-- `raise E(info0, info1)`: error completion (R920) of a command whose result registers are `rs`. A check error changes
nothing else; a data error leaves free values in the whole destination region. -/
def State.raise (s : State) (rs : List ResultReg) (e : CmdError) : State :=
  let t := if e.isData then s.smear s.dstRegion else s
  ((t.setError e).zeroResults rs).complete

/-- The first error of a list of checks, in their order of priority (R910). -/
def firstError : List (Option CmdError) → Option CmdError
  | [] => none
  | some e :: _ => some e
  | none :: cs => firstError cs

/-- One check: the error if the condition fails. -/
def require (ok : Bool) (e : CmdError) : Option CmdError := if ok then none else some e

/-- A command whose checks come first: the first that fails raises its error, and otherwise the body is run (R17, R910). -/
def State.checked (s : State) (rs : List ResultReg) (checks : List (Option CmdError)) (body : State) : State :=
  match firstError checks with
  | some e => s.raise rs e
  | none => body

/-- The end of an encoder: `need > DST_CAP` raises OutputOverflow; otherwise the bytes are written at DST_ADDR and the
result registers written (R530, R540, R600, R700). -/
def State.deliver (s : State) (rs : List ResultReg) (bytes : List Byte) (vs : List (ResultReg × Word)) : State :=
  if bytes.length > s.snap.dstCap.toNat then s.raise rs (.outputOverflow bytes.length s.snap.dstCap)
  else ((s.storeBytes s.snap.dstAddr.toNat bytes).setResults vs).complete

end Sys2Proof.Machine
end

