-- ==== Sys2Proof/Machine/Operands.lean ====
section
/-! DEFINITION. The operands of the commands: the snapshot's regions (R230 to R232, R304), the source bytes, the checks on
regions, and the result registers of each command (R125). -/

namespace Sys2Proof.Machine

/-- (SRC_ADDR, SRC_LEN) (R232). -/
def Args.srcRegion (a : Args) : Region := ⟨a.srcAddr.toNat, a.srcLen.toNat⟩

/-- (DST_ADDR, DST_CAP) (R232). -/
def Args.dstRegion (a : Args) : Region := ⟨a.dstAddr.toNat, a.dstCap.toNat⟩

/-- Bytes of a frequency-table image (R403). -/
def ftImageSize : Nat := 1024

/-- Bytes of a code-table image (R520). -/
def ctImageSize : Nat := 9216

/-- (TBL_ADDR, n) (R232). -/
def Args.tblRegion (a : Args) (n : Nat) : Region := ⟨a.tblAddr.toNat, n⟩

/-- The region a command reads: its source region, or the table region of FTLOAD and CTLOAD (R232). -/
def readRegion (i : Instr) (a : Args) : Option Region :=
  match i with
  | .freq => some a.srcRegion
  | .emit _ => some a.srcRegion
  | .huff _ => some a.srcRegion
  | .rle => some a.srcRegion
  | .binx _ => some a.srcRegion
  | .ftload => some (a.tblRegion ftImageSize)
  | .ctload => some (a.tblRegion ctImageSize)
  | .nop => none
  | .tree => none
  | .codes => none
  | .ratio => none
  | .ftstore => none
  | .ctstore => none
  | .clear => none

/-- The region a command could write: its destination region, or the table region of FTSTORE and CTSTORE (R232). -/
def writtenRegion (i : Instr) (a : Args) : Option Region :=
  match i with
  | .emit _ => some a.dstRegion
  | .huff _ => some a.dstRegion
  | .rle => some a.dstRegion
  | .binx _ => some a.dstRegion
  | .ftstore => some (a.tblRegion ftImageSize)
  | .ctstore => some (a.tblRegion ctImageSize)
  | .nop => none
  | .freq => none
  | .tree => none
  | .codes => none
  | .ratio => none
  | .ftload => none
  | .ctload => none
  | .clear => none

/-- The result registers a command writes (R125). -/
def resultRegs (i : Instr) : List ResultReg :=
  match i with
  | .freq => [.inBits]
  | .tree => [.nsym]
  | .codes => [.nsym, .maxlen]
  | .emit _ => [.inBits, .outBits, .outBytes]
  | .huff _ => [.inBits, .outBits, .outBytes, .nsym, .maxlen]
  | .rle => [.inBits, .outBits, .outBytes, .runs]
  | .binx _ => [.inBits, .outBits, .outBytes]
  | .ratio => [.resLo, .resHi]
  | .nop => []
  | .ftload => []
  | .ftstore => []
  | .ctload => []
  | .ctstore => []
  | .clear => []

/-- The source bytes `ByteAt(SRC_ADDR + i)`, i in 0..SRC_LEN-1 (R14). -/
def State.source (s : State) : List Byte := s.bytesAt s.snap.srcAddr.toNat s.snap.srcLen.toNat

/-- IN_BITS = 8 * SRC_LEN (R125). -/
def State.inBits (s : State) : Word := BitVec.ofNat 32 (8 * s.snap.srcLen.toNat)

/-- The source region is valid, or AddressError(1, SRC_ADDR) (R230, R902). -/
def State.srcCheck (s : State) : Option CmdError :=
  require (s.snap.srcRegion.valid s.dmemSize) (.addressError .source s.snap.srcAddr)

/-- The destination region is valid, or AddressError(2, DST_ADDR) (R230, R902). -/
def State.dstCheck (s : State) : Option CmdError :=
  require (s.snap.dstRegion.valid s.dmemSize) (.addressError .destination s.snap.dstAddr)

/-- Source and destination do not overlap, or AddressError(4, DST_ADDR) (R231, R902). -/
def State.overlapCheck (s : State) : Option CmdError :=
  require (!s.snap.srcRegion.overlaps s.snap.dstRegion) (.addressError .overlap s.snap.dstAddr)

/-- The table region of `n` bytes is valid, or AddressError(3, TBL_ADDR) (R230, R902). -/
def State.tblCheck (s : State) (n : Nat) : Option CmdError :=
  require ((s.snap.tblRegion n).valid s.dmemSize) (.addressError .table s.snap.tblAddr)

/-- SRC_LEN is not 0, or InvalidInput(1, 0) (R902). -/
def State.nonEmptyCheck (s : State) : Option CmdError :=
  require (s.snap.srcLen != 0) (.invalidInput .emptySource)

end Sys2Proof.Machine
end

