-- ==== Sys2Proof/Machine/Flags.lean ====
section
/-! DEFINITION. The flags: the STATUS, INTR and CTRL words (R121 to R123), the interrupt output (R930), the validity flags
and the checks that read them (R127, R134). -/

namespace Sys2Proof.Machine

/-- STATUS.FT_VALID: "the FT store holds a frequency table" (R122). -/
def State.ftValid (s : State) : Bool := s.ft.isSome

/-- STATUS.TREE_VALID: "the node store holds a tree" (R122). -/
def State.treeValid (s : State) : Bool := s.tree.isSome

/-- STATUS.CT_VALID: "the CT store holds a code table" (R122). -/
def State.ctValid (s : State) : Bool := s.ct.isSome

/-- STATUS.ERR: "1 exactly when ERRCODE ≠ 0" (R122). -/
def State.errFlag (s : State) : Bool := s.errCode != 0

/-- The word with bit `i` equal to `b` and 0 elsewhere. -/
def bitWord (b : Bool) (i : Nat) : Word := (BitVec.ofBool b).setWidth 32 <<< i

/-- The word of five STATUS bits; bits 31:5 read 0 (R122). -/
def statusOf (busy err ftv treev ctv : Bool) : Word :=
  bitWord busy 0 ||| bitWord err 1 ||| bitWord ftv 2 ||| bitWord treev 3 ||| bitWord ctv 4

/-- The STATUS register (R122). -/
def State.status (s : State) : Word := statusOf s.isBusy s.errFlag s.ftValid s.treeValid s.ctValid

/-- The STATUS register as read while BUSY = 1: the three validity flags are draws (R122, R1022). -/
def State.statusDrawn (s : State) : Word :=
  statusOf s.isBusy s.errFlag (Config.freeFlag s.draws 0) (Config.freeFlag s.draws 1) (Config.freeFlag s.draws 2)

/-- The INTR register (R123). -/
def State.intr (s : State) : Word := bitWord s.intrDone 0 ||| bitWord s.intrDrop 1

/-- The CTRL register: SRST reads 0 (R121). -/
def State.ctrl (s : State) : Word := bitWord s.ie 1

/-- `irq = CTRL.IE and INTR.DONE` (R930). -/
def State.irq (s : State) : Bool := s.ie && s.intrDone

/-- A host write of INTR: write 1 to clear (R123). -/
def State.ackIntr (s : State) (v : Word) : State :=
  { s with intrDone := s.intrDone && !v.getLsbD 0, intrDrop := s.intrDrop && !v.getLsbD 1 }

/-- A new frequency table: FT_VALID <- 1, TREE_VALID <- 0, CT_VALID <- 0 (R134). -/
def State.newFreqTable (s : State) (t : FreqTable) : State := { s with ft := some t, tree := none, ct := none }

/-- A new tree: TREE_VALID <- 1, CT_VALID <- 0 (R134). -/
def State.newTree (s : State) (t : Option HTree) : State := { s with tree := t, ct := none }

/-- A new code table: CT_VALID <- 1 (R134). -/
def State.newCodeTable (s : State) (t : CodeTable) : State := { s with ct := some t }

/-- All three flags <- 0 (R830). The contents become unspecified, and are not held. -/
def State.clearStores (s : State) : State := { s with ft := none, tree := none, ct := none }

/-- A frequency table is held, or InvalidInput(2, 0) (R902). -/
def State.ftCheck (s : State) : Option CmdError := require s.ftValid (.invalidInput .noFreqTable)

/-- A tree is held, or EmptyTree (R500). -/
def State.treeCheck (s : State) : Option CmdError := require s.treeValid .emptyTree

/-- A code table is held, or InvalidInput(4, 0) (R902). -/
def State.ctCheck (s : State) : Option CmdError := require s.ctValid (.invalidInput .noCodeTable)

end Sys2Proof.Machine
end

