-- ==== Sys2Proof/Machine/Binx.lean ====
section
/-! DEFINITION. The binary expander: BINX (R700 to R704). -/

namespace Sys2Proof.Machine

/-- Each byte's 8 bits, most significant first, in order (R700). -/
def expandBytes (bs : List Byte) : BitSeq := bs.flatMap expandByte

/-- The body of BINX (R700). -/
def State.binxBody (s : State) (a : Layout) : State :=
  let out := expandBytes s.source
  s.deliver (resultRegs (.binx a)) (layoutBytes a out)
    [(.inBits, s.inBits), (.outBits, BitVec.ofNat 32 out.length), (.outBytes, BitVec.ofNat 32 (layoutSize a out.length))]

/-- BINX (R700). -/
def execBinx (a : Layout) (s : State) : Host.Outcome State Fault Refusal :=
  .next <| s.checked (resultRegs (.binx a)) [s.srcCheck, s.dstCheck, s.overlapCheck] (s.binxBody a)

end Sys2Proof.Machine
end

