-- ==== Sys2Proof/Machine/Control.lean ====
section
/-! DEFINITION. The ratio unit RATIO (R800 to R803) and the control commands NOP (R820) and CLEAR (R830). -/

namespace Sys2Proof.Machine

/-- `trunc(6553600 * (ARG0 - ARG1) / ARG0)` on exact integers, truncated toward zero (R800, R801). -/
def ratioOf (arg0 arg1 : Nat) : Int := Int.tdiv (6553600 * ((arg0 : Int) - (arg1 : Int))) (arg0 : Int)

/-- ARG0 is not 0, or InvalidInput(5, 0) (R800). -/
def State.ratioCheck (s : State) : Option CmdError := require (s.snap.arg0 != 0) (.invalidInput .zeroDenominator)

/-- RES = q mod 2^64 (R800). -/
def State.ratioWord (s : State) : BitVec 64 := BitVec.ofInt 64 (ratioOf s.snap.arg0.toNat s.snap.arg1.toNat)

/-- RATIO (R800). -/
def execRatio (s : State) : Host.Outcome State Fault Refusal :=
  .next <| s.checked (resultRegs .ratio) [s.ratioCheck] <|
    (s.setResults [(.resLo, s.ratioWord.extractLsb' 0 32), (.resHi, s.ratioWord.extractLsb' 32 32)]).complete

/-- NOP (R820). -/
def execNop (s : State) : Host.Outcome State Fault Refusal := .next s.complete

/-- CLEAR (R830). -/
def execClear (s : State) : Host.Outcome State Fault Refusal := .next s.clearStores.complete

end Sys2Proof.Machine
end

