-- ==== Sys2Proof/Machine/Frequency.lean ====
section
/-! DEFINITION. The frequency counter: FREQ, FTLOAD and FTSTORE (R400 to R412). -/

namespace Sys2Proof.Machine

/-- The frequency table of a byte sequence: each symbol's number of occurrences (R400, R401). -/
def freqOf (bs : List Byte) : FreqTable := Table.tab fun b => BitVec.ofNat 32 (bs.count b)

/-- The count of entry `b` in an image at `tbl` (R403). -/
def State.loadCount (s : State) (tbl : Nat) (b : Byte) : Word := BitVec.ofNat 32 (s.memRead (tbl + 4 * b.toNat) 4)

/-- The 1024 bytes of a frequency-table image (R403). -/
def ftImage (t : FreqTable) : List Byte := allSymbols.flatMap fun b => leBytes 4 (t.entry b).toNat

/-- The number of symbols with a count above 0 (R420). -/
def distinct (t : FreqTable) : Nat := allSymbols.countP fun b => t.entry b != 0

/-- The frequency table held, the empty one where none is valid; no command reads it then (R130). -/
def State.ftHeld (s : State) : FreqTable := s.ft.getD (Table.tab fun _ => 0)

/-- FREQ (R401). -/
def execFreq (s : State) : Host.Outcome State Fault Refusal :=
  .next <| s.checked (resultRegs .freq) [s.srcCheck] <|
    ((s.newFreqTable (freqOf s.source)).setResults [(.inBits, s.inBits)]).complete

/-- FTLOAD (R410). -/
def execFtload (s : State) : Host.Outcome State Fault Refusal :=
  .next <| s.checked (resultRegs .ftload) [s.tblCheck ftImageSize] <|
    (s.newFreqTable (Table.tab fun b => s.loadCount s.snap.tblAddr.toNat b)).complete

/-- FTSTORE (R412). -/
def execFtstore (s : State) : Host.Outcome State Fault Refusal :=
  .next <| s.checked (resultRegs .ftstore) [s.tblCheck ftImageSize, s.ftCheck] <|
    (s.storeBytes s.snap.tblAddr.toNat (ftImage s.ftHeld)).complete

end Sys2Proof.Machine
end

