-- ==== Sys2Proof/Machine/HuffmanTree.lean ====
section
/-! DEFINITION. The tree builder: TREE (R420 to R426). -/

namespace Sys2Proof.Machine

/-- The order of the keys (weight, seq), lexicographic (R421). -/
def HTree.keyLe (x y : HTree) : Bool := x.weight < y.weight || (x.weight == y.weight && x.seq ≤ y.seq)

/-- The leaves of a table, one for each symbol with a count above 0, in symbol order (R422). -/
def leavesOf (t : FreqTable) : List HTree :=
  allSymbols.filterMap fun b => if t.entry b = 0 then none else some (.leaf b (t.entry b).toNat b.toNat)

/-- The element with the least key of a non-empty list, and the others in their order (R422). -/
def takeMin (x : HTree) : List HTree → HTree × List HTree
  | [] => (x, [])
  | y :: ys =>
    let r := takeMin y ys
    if x.keyLe r.1 then (x, y :: ys) else (r.1, x :: r.2)

/-- The merge of R422: `x` was removed first and goes right, `y` second and goes left (R423). -/
def merge (k : Nat) (x y : HTree) : HTree := .node (x.weight + y.weight) (256 + k) y x

/-- The loop of R422 over a live set given as its first element and the others; `k` merges were made before. Each round
takes one element away, so `fuel` rounds are enough for `fuel + 1` elements. -/
def mergeAll : Nat → Nat → HTree → List HTree → HTree
  | 0, _, t, _ => t
  | fuel + 1, k, t, live =>
    match takeMin t live with
    | (x, []) => x
    | (x, u :: us) =>
      let r := takeMin u us
      mergeAll fuel (k + 1) (merge k x r.1) r.2

/-- `build_tree` (R422): no tree from an empty table. -/
def buildTree (t : FreqTable) : Option HTree :=
  match leavesOf t with
  | [] => none
  | l :: ls => some (mergeAll ls.length 0 l ls)

/-- Some count is above 0, or InvalidInput(3, 0) (R420). -/
def State.ftNonEmptyCheck (s : State) : Option CmdError :=
  require (distinct s.ftHeld != 0) (.invalidInput .emptyFreqTable)

/-- TREE (R420). -/
def execTree (s : State) : Host.Outcome State Fault Refusal :=
  .next <| s.checked (resultRegs .tree) [s.ftCheck, s.ftNonEmptyCheck] <|
    ((s.newTree (buildTree s.ftHeld)).setResults [(.nsym, BitVec.ofNat 32 (distinct s.ftHeld))]).complete

end Sys2Proof.Machine
end

