-- ==== Sys2Proof/Machine/HuffmanCodes.lean ====
section
/-! DEFINITION. The code assigner and the code-table image: CODES, CTLOAD and CTSTORE (R500 to R523). -/

namespace Sys2Proof.Machine

/-- The code table without entries (R500). -/
def CodeTable.empty : CodeTable := Table.tab fun _ => []

/-- `walk(i, p)` of R500: the leaves' codes in pre-order, each the path from the root ('0' left, '1' right). -/
def HTree.walk : HTree → BitSeq → List (Byte × BitSeq)
  | .leaf s _ _, p => [(s, p)]
  | .node _ _ l r, p => l.walk (p ++ [false]) ++ r.walk (p ++ [true])

/-- The codes of a tree: a single leaf has the one-bit code "0" (R503). -/
def HTree.codes : HTree → List (Byte × BitSeq)
  | .leaf s _ _ => [(s, [false])]
  | .node w q l r => (HTree.node w q l r).walk []

/-- The code table of a tree (R500). -/
def assignCodes (t : HTree) : CodeTable := t.codes.foldl (fun ct e => ct.put e.1 e.2) CodeTable.empty

/-- The number of symbols with an entry (R500). -/
def CodeTable.nsym (ct : CodeTable) : Nat := allSymbols.countP fun b => (ct.entry b).length != 0

/-- The longest code length (R500). -/
def CodeTable.maxlen (ct : CodeTable) : Nat := allSymbols.foldl (fun m b => max m (ct.entry b).length) 0

/-- NSYM and MAXLEN of a code table (R125). -/
def CodeTable.results (ct : CodeTable) : List (ResultReg × Word) :=
  [(.nsym, BitVec.ofNat 32 ct.nsym), (.maxlen, BitVec.ofNat 32 ct.maxlen)]

/-- The code table held, the one without entries where none is valid; no command reads it then (R133). -/
def State.ctHeld (s : State) : CodeTable := s.ct.getD CodeTable.empty

/-- The tree held; where none is valid some tree, and no command reads it then (R132). -/
def State.treeHeld (s : State) : HTree := s.tree.getD default

/-- The offset of entry `b` of a code-table image (R520). -/
def ctEntryAt (tbl : Nat) (b : Byte) : Nat := tbl + 36 * b.toNat

/-- One entry of an image at `tbl` (R520, R521). -/
def State.loadCode (s : State) (tbl : Nat) (b : Byte) : BitSeq :=
  let e := ctEntryAt tbl b
  (List.range (s.byteAt e).toNat).map fun k => (s.byteAt (e + 4 + k / 8)).getLsbD (7 - k % 8)

/-- The 36 bytes of one entry of an image (R520, R523). -/
def codeImage (c : BitSeq) : List Byte :=
  BitVec.ofNat 8 c.length :: 0 :: 0 :: 0 ::
    (List.range 32).map fun j => packByte fun i => bitAt c (8 * j + i)

/-- The 9216 bytes of a code-table image (R520). -/
def ctImage (ct : CodeTable) : List Byte := allSymbols.flatMap fun b => codeImage (ct.entry b)

/-- CODES (R500). -/
def execCodes (s : State) : Host.Outcome State Fault Refusal :=
  .next <| s.checked (resultRegs .codes) [s.treeCheck] <|
    let ct := assignCodes s.treeHeld
    ((s.newCodeTable ct).setResults ct.results).complete

/-- CTLOAD (R521). -/
def execCtload (s : State) : Host.Outcome State Fault Refusal :=
  .next <| s.checked (resultRegs .ctload) [s.tblCheck ctImageSize] <|
    (s.newCodeTable (Table.tab fun b => s.loadCode s.snap.tblAddr.toNat b)).complete

/-- CTSTORE (R523). -/
def execCtstore (s : State) : Host.Outcome State Fault Refusal :=
  .next <| s.checked (resultRegs .ctstore) [s.tblCheck ctImageSize, s.ctCheck] <|
    (s.storeBytes s.snap.tblAddr.toNat (ctImage s.ctHeld)).complete

end Sys2Proof.Machine
end

