-- ==== Sys2Proof/Machine/Emit.lean ====
section
/-! DEFINITION. The bit emitter EMIT (R530, R531) and the composite HUFF (R540 to R542). -/

namespace Sys2Proof.Machine

/-- The first byte without a code and its index, the first byte having index `i` (R530). -/
def firstUnknown (ct : CodeTable) (i : Nat) : List Byte → Option (Nat × Byte)
  | [] => none
  | b :: bs => if (ct.entry b).length = 0 then some (i, b) else firstUnknown ct (i + 1) bs

/-- The concatenation of the bytes' codes (R530). -/
def codeStream (ct : CodeTable) (bs : List Byte) : BitSeq := bs.flatMap fun b => ct.entry b

/-- IN_BITS, OUT_BITS and OUT_BYTES of an encoder that gives the bit sequence `s` in layout `a` (R125, R126). -/
def State.streamResults (s : State) (a : Layout) (n : Nat) : List (ResultReg × Word) :=
  [(.inBits, s.inBits), (.outBits, BitVec.ofNat 32 n), (.outBytes, BitVec.ofNat 32 (layoutSize a n))]

/-- The body of EMIT with a code table (R530). -/
def State.emitWith (s : State) (a : Layout) (ct : CodeTable) : State :=
  match firstUnknown ct 0 s.source with
  | some u => s.raise (resultRegs (.emit a)) (.unknownSymbol u.1 u.2)
  | none =>
    let out := codeStream ct s.source
    s.deliver (resultRegs (.emit a)) (layoutBytes a out) (s.streamResults a out.length)

/-- EMIT (R530). -/
def execEmit (a : Layout) (s : State) : Host.Outcome State Fault Refusal :=
  .next <| s.checked (resultRegs (.emit a)) [s.srcCheck, s.dstCheck, s.overlapCheck, s.ctCheck] <|
    s.emitWith a s.ctHeld

/-- The first three parts of HUFF: the frequency table of the source, its tree and the tree's codes, each made valid
(R540). They stay when the output overflows. -/
def State.buildStores (s : State) (t : FreqTable) (h : HTree) (ct : CodeTable) : State :=
  { s with ft := some t, tree := some h, ct := some ct }

/-- The body of HUFF (R540). -/
def State.huffBody (s : State) (a : Layout) : State :=
  let t := freqOf s.source
  let h := (buildTree t).getD default
  let ct := assignCodes h
  let out := codeStream ct s.source
  (s.buildStores t h ct).deliver (resultRegs (.huff a)) (layoutBytes a out)
    (s.streamResults a out.length ++ [(.nsym, BitVec.ofNat 32 (distinct t)), (.maxlen, BitVec.ofNat 32 ct.maxlen)])

/-- HUFF (R540). -/
def execHuff (a : Layout) (s : State) : Host.Outcome State Fault Refusal :=
  .next <| s.checked (resultRegs (.huff a)) [s.srcCheck, s.dstCheck, s.overlapCheck, s.nonEmptyCheck] <|
    s.huffBody a

end Sys2Proof.Machine
end

