-- ==== Sys2Proof/Machine/Rle.lean ====
section
/-! DEFINITION. The run-length encoder: RLE (R600 to R604). -/

namespace Sys2Proof.Machine

/-- The scan of R600 with the current run (`cur`, `cnt`). -/
def runsFrom (cur : Byte) (cnt : Nat) : List Byte → List (Byte × Nat)
  | [] => [(cur, cnt)]
  | b :: bs => if b = cur then runsFrom cur (cnt + 1) bs else (cur, cnt) :: runsFrom b 1 bs

/-- The runs of a byte sequence (R600). -/
def runsOf : List Byte → List (Byte × Nat)
  | [] => []
  | b :: bs => runsFrom b 1 bs

/-- The 5-byte record of a run (R601). -/
def runRecord (r : Byte × Nat) : List Byte := r.1 :: leBytes 4 r.2

/-- The body of RLE (R600). -/
def State.rleBody (s : State) : State :=
  let runs := runsOf s.source
  s.deliver (resultRegs .rle) (runs.flatMap runRecord)
    [(.inBits, s.inBits), (.outBits, BitVec.ofNat 32 (40 * runs.length)), (.outBytes, BitVec.ofNat 32 (5 * runs.length)),
      (.runs, BitVec.ofNat 32 runs.length)]

/-- RLE (R600). -/
def execRle (s : State) : Host.Outcome State Fault Refusal :=
  .next <| s.checked (resultRegs .rle) [s.srcCheck, s.dstCheck, s.overlapCheck, s.nonEmptyCheck] s.rleBody

end Sys2Proof.Machine
end

