-- ==== Sys2Proof/Machine/Dispatch.lean ====
section
/-! DEFINITION. The meaning of each command: one arm per constructor of Instr. -/

namespace Sys2Proof.Machine

/-- Run a command to its completion (R112). -/
def exec (i : Instr) (s : State) : Host.Outcome State Fault Refusal :=
  match i with
  | .nop => Sys2Proof.Machine.execNop s
  | .freq => Sys2Proof.Machine.execFreq s
  | .tree => Sys2Proof.Machine.execTree s
  | .codes => Sys2Proof.Machine.execCodes s
  | .emit a => Sys2Proof.Machine.execEmit a s
  | .huff a => Sys2Proof.Machine.execHuff a s
  | .rle => Sys2Proof.Machine.execRle s
  | .binx a => Sys2Proof.Machine.execBinx a s
  | .ratio => Sys2Proof.Machine.execRatio s
  | .ftload => Sys2Proof.Machine.execFtload s
  | .ftstore => Sys2Proof.Machine.execFtstore s
  | .ctload => Sys2Proof.Machine.execCtload s
  | .ctstore => Sys2Proof.Machine.execCtstore s
  | .clear => Sys2Proof.Machine.execClear s

end Sys2Proof.Machine
end

