-- ==== Sys2Proof/Machine/HostPort.lean ====
section
/-! DEFINITION. The host port: the register map (R120 to R125), the access rules (R200 to R203, R220), the resets (R1000 to
R1003), what a host access does while a command runs (R1020 to R1023), and the host-sequence assembly (R340, R341). -/

namespace Sys2Proof.Machine

/-! ### Registers -/

/-- The registers of R120. -/
inductive Reg where
  | id | version | memsize | ctrl | status | intr | cmd | errcode | errinfo0 | errinfo1
  | srcAddr | srcLen | dstAddr | dstCap | tblAddr | arg0 | arg1
  | result (r : ResultReg)
deriving DecidableEq, Repr

/-- The register at an offset of the register window; none is reserved (R120). -/
def regAt (off : Nat) : Option Reg :=
  match off with
  | 0x000 => some .id
  | 0x004 => some .version
  | 0x008 => some .memsize
  | 0x00C => some .ctrl
  | 0x010 => some .status
  | 0x014 => some .intr
  | 0x018 => some .cmd
  | 0x01C => some .errcode
  | 0x020 => some .errinfo0
  | 0x024 => some .errinfo1
  | 0x040 => some .srcAddr
  | 0x044 => some .srcLen
  | 0x048 => some .dstAddr
  | 0x04C => some .dstCap
  | 0x050 => some .tblAddr
  | 0x054 => some .arg0
  | 0x058 => some .arg1
  | 0x080 => some (.result .inBits)
  | 0x084 => some (.result .outBits)
  | 0x088 => some (.result .outBytes)
  | 0x08C => some (.result .runs)
  | 0x090 => some (.result .nsym)
  | 0x094 => some (.result .maxlen)
  | 0x098 => some (.result .resLo)
  | 0x09C => some (.result .resHi)
  | _ => none

/-- The offset of a register (R120). -/
def Reg.offset : Reg → Nat
  | .id => 0x000
  | .version => 0x004
  | .memsize => 0x008
  | .ctrl => 0x00C
  | .status => 0x010
  | .intr => 0x014
  | .cmd => 0x018
  | .errcode => 0x01C
  | .errinfo0 => 0x020
  | .errinfo1 => 0x024
  | .srcAddr => 0x040
  | .srcLen => 0x044
  | .dstAddr => 0x048
  | .dstCap => 0x04C
  | .tblAddr => 0x050
  | .arg0 => 0x054
  | .arg1 => 0x058
  | .result .inBits => 0x080
  | .result .outBits => 0x084
  | .result .outBytes => 0x088
  | .result .runs => 0x08C
  | .result .nsym => 0x090
  | .result .maxlen => 0x094
  | .result .resLo => 0x098
  | .result .resHi => 0x09C

/-- The value of a register: what a read returns while IDLE. CMD reads 0 (R120). -/
def State.regValue (s : State) : Reg → Word
  | .id => Config.idValue
  | .version => Config.versionValue
  | .memsize => BitVec.ofNat 32 s.dmemSize
  | .ctrl => s.ctrl
  | .status => s.status
  | .intr => s.intr
  | .cmd => 0
  | .errcode => s.errCode.setWidth 32
  | .errinfo0 => s.errInfo0
  | .errinfo1 => s.errInfo1
  | .srcAddr => s.args.srcAddr
  | .srcLen => s.args.srcLen
  | .dstAddr => s.args.dstAddr
  | .dstCap => s.args.dstCap
  | .tblAddr => s.args.tblAddr
  | .arg0 => s.args.arg0
  | .arg1 => s.args.arg1
  | .result r => s.results.read r

/-- What a host read of a register returns in either phase: while BUSY = 1 the result registers and the validity flags are
draws, and every other register is read exactly (R1022). -/
def State.regRead (s : State) (x : Reg) : Word :=
  if s.isBusy then
    match x with
    | .status => s.statusDrawn
    | .result r => Config.freeWord s.draws r.index
    | y => s.regValue y
  else s.regValue x

/-- Does a read of this register make a draw? (R1022) -/
def State.regReadDraws (s : State) (x : Reg) : Bool :=
  s.isBusy &&
    match x with
    | .status => true
    | .result _ => true
    | _ => false

/-! ### Regions of the running command -/

/-- Its input: the source region or the read table region (R1020). -/
def State.runningInput (s : State) : Option Region :=
  match s.phase with
  | .idle => none
  | .busy r =>
    match decode r.word with
    | .ok i => readRegion i r.snap
    | .error _ => none

/-- Its output: the destination region or the written table region (R1021). -/
def State.runningOutput (s : State) : Option Region :=
  match s.phase with
  | .idle => none
  | .busy r =>
    match decode r.word with
    | .ok i => writtenRegion i r.snap
    | .error _ => none

/-- Is the offset in the region, if there is one? -/
def regionHas (g : Option Region) (a : Nat) : Bool :=
  match g with
  | some g => g.has a
  | none => false

/-! ### Resets -/

/-- Hardware reset, `rst_n` = 0: every register and store at its reset value, DMEM not initialised, so every byte a new
draw (R1000, R1001). A running command is abandoned (R1003). -/
def State.hardReset (s : State) : State :=
  { State.resetOf s.memLog with
    rstN := false, memDraw := s.draws, draws := s.draws + 1, hostQ := s.hostQ, resp := none }

/-- Soft reset: every register, flag and store at its reset value; DMEM kept, but for the output region of a command that
was running, which becomes unspecified (R1002, R1025). -/
def State.softReset (s : State) : State :=
  let t := s.smearOpt s.runningOutput
  { State.resetOf s.memLog with
    rstN := s.rstN, mem := t.mem, memDraw := t.memDraw, draws := t.draws, hostQ := s.hostQ, resp := s.resp }

/-! ### Writes -/

/-- A host write of CMD (R110): accepted when IDLE, dropped when BUSY (R1023). The time to completion is a free value
(U8). -/
def State.writeCmd (s : State) (w : Word) : State :=
  if s.isBusy then { s with intrDrop := true }
  else { s.accept w (Config.freeDelay s.draws) with draws := s.draws + 1 }

/-- A host write of CTRL (R121): SRST = 1 performs a soft reset and ignores the other bits; otherwise IE is written. -/
def State.writeCtrl (s : State) (v : Word) : State :=
  if v.getLsbD 0 then s.softReset else { s with ie := v.getLsbD 1 }

/-- A host write of a register (R120): read-only registers ignore it. -/
def State.regWrite (s : State) (x : Reg) (v : Word) : State :=
  match x with
  | .ctrl => s.writeCtrl v
  | .intr => s.ackIntr v
  | .cmd => s.writeCmd v
  | .srcAddr => { s with args := { s.args with srcAddr := v } }
  | .srcLen => { s with args := { s.args with srcLen := v } }
  | .dstAddr => { s with args := { s.args with dstAddr := v } }
  | .dstCap => { s with args := { s.args with dstCap := v } }
  | .tblAddr => { s with args := { s.args with tblAddr := v } }
  | .arg0 => { s with args := { s.args with arg0 := v } }
  | .arg1 => { s with args := { s.args with arg1 := v } }
  | .id => s
  | .version => s
  | .memsize => s
  | .status => s
  | .errcode => s
  | .errinfo0 => s
  | .errinfo1 => s
  | .result _ => s

/-- What a host write of `n` bytes at DMEM offset `a` does to the running command's record: a write into its input races
it (R1020), and a byte of its output is left unspecified after completion (R1021). -/
def State.noteWrite (s : State) (a n : Nat) : State :=
  match s.phase with
  | .idle => s
  | .busy r =>
    let as := (List.range n).map (a + ·)
    { s with
      phase := .busy
        { r with
          raced := r.raced || as.any (regionHas s.runningInput)
          touched := r.touched ++ as.filter (regionHas s.runningOutput) } }

/-- A host write of `n` bytes at DMEM offset `a` (R203): `MemWrite(a, n, req_wdata[8n-1:0])`. -/
def State.dmemWrite (s : State) (a n : Nat) (v : Word) : State := (s.noteWrite a n).memWrite a n v.toNat

/-- The byte a host read sees: a draw inside the running command's output (R1021), and the byte itself elsewhere. -/
def State.hostByte (s : State) (a : Nat) : Byte :=
  if regionHas s.runningOutput a then Config.freeByte s.draws a else s.byteAt a

/-- A host read of `n` bytes at DMEM offset `a` (R203): little-endian, zero above (R201). -/
def State.dmemRead (s : State) (a n : Nat) : Word :=
  BitVec.ofNat 32 (leValue ((List.range n).map fun i => s.hostByte (a + i)))

/-- Does a read of `n` bytes at offset `a` make a draw? (R1021) -/
def State.dmemReadDraws (s : State) (a n : Nat) : Bool :=
  (List.range n).any fun i => regionHas s.runningOutput (a + i)

/-! ### Accesses -/

/-- What an access reaches (R200, R202). -/
inductive Target where
  | register (off : Nat)
  | dmem (a n : Nat)
  | busError
deriving DecidableEq, Repr

/-- The target of an access, or a bus error: unmapped, misaligned, of a wrong size or past the end of DMEM (R202, R220). -/
def State.target (s : State) (q : Access) : Target :=
  let off := q.addr.toNat
  let n := q.size.toNat
  if off < 0x1000 then
    if n = 4 ∧ off % 4 = 0 then .register off else .busError
  else if off < Config.dmemBase then .busError
  else if (n = 1 ∨ n = 2 ∨ n = 4) ∧ off % n = 0 ∧ off - Config.dmemBase + n ≤ s.dmemSize then
    .dmem (off - Config.dmemBase) n
  else .busError

/-- Put an answer on the response lines (R201). -/
def State.respond (s : State) (r : Response) : State := { s with resp := some r }

/-- Make a draw if one was used. -/
def State.drawIf (s : State) (b : Bool) : State := if b then { s with draws := s.draws + 1 } else s

/-- A read of the register window: reserved offsets read 0 (R120). -/
def State.readRegAt (s : State) (off : Nat) : State :=
  match regAt off with
  | some x => (s.drawIf (s.regReadDraws x)).respond (.readOk (s.regRead x))
  | none => s.respond (.readOk 0)

/-- A write to the register window: reserved offsets ignore it (R120). -/
def State.writeRegAt (s : State) (off : Nat) (v : Word) : State :=
  match regAt off with
  | some x => (s.regWrite x v).respond .writeOk
  | none => s.respond .writeOk

/-- One host access, one atomic event (R201, R221, R261). -/
def State.access (s : State) (q : Access) : State :=
  match s.target q with
  | .register off => if q.write then s.writeRegAt off q.wdata else s.readRegAt off
  | .dmem a n =>
    if q.write then (s.dmemWrite a n q.wdata).respond .writeOk
    else (s.drawIf (s.dmemReadDraws a n)).respond (.readOk (s.dmemRead a n))
  | .busError => s.respond (if q.write then .writeErr else .readErr)

/-- A host event (R1031). While `rst_n` is 0 the block "answers no host access" (R1001). The event WAIT is the read of
STATUS that ends the polling loop (R341): `engineTurn` lets the running command complete before it. -/
def State.event (s : State) (e : HostEvent) : State :=
  match e with
  | .rstN false => s.hardReset
  | .rstN true => { s with rstN := true, resp := none }
  | .access q => if s.rstN then s.access q else { s with resp := none }
  | .wait => if s.rstN then s.readRegAt Reg.status.offset else { s with resp := none }

/-- One host event has passed while a command runs (U8). -/
def State.tick (s : State) : State :=
  match s.phase with
  | .busy r => { s with phase := .busy { r with delay := r.delay - 1 } }
  | .idle => s

/-- The host's turn: its next event (R261), or nothing; in IDLE the block "does nothing until a CMD write" (R954). -/
def State.hostTurn (s : State) : State :=
  match s.hostQ with
  | [] => s
  | e :: es => ({ s with hostQ := es }.tick).event e

/-- Does the host now do nothing but wait: no event is pending, or the next is the polling loop WAIT (R341)? -/
def State.hostWaits (s : State) : Bool :=
  match s.hostQ with
  | [] => true
  | .wait :: _ => true
  | .access _ :: _ => false
  | .rstN _ :: _ => false

/-- Whose turn it is (R112, R1040): the engine completes the running command when the host does nothing but wait for it,
or else once its delay has passed. A read of STATUS that finds BUSY = 1 has no effect (R222), so the rounds of a polling
loop before the completion are not shown one by one. -/
def State.engineTurn (s : State) : Option Run :=
  match s.phase with
  | .idle => none
  | .busy r => if s.rstN && (s.hostWaits || r.delay == 0) then some r else none

/-! ### A completion the host raced -/

/-- The n-th legal ERRCODE (R901): 0, 1, 2, 3, 5, 6, 7. -/
def errCodeNo (k : Fin 7) : Byte := if k.val < 4 then BitVec.ofNat 8 k.val else BitVec.ofNat 8 (k.val + 1)

/-- A store whose flag and contents are free. -/
def freeOpt {α : Type} (flag : Bool) (v : α) : Option α := if flag then some v else none

/-- A free frequency table at draw `n`, or none (R1020). -/
def freeFt (n : Nat) : Option FreqTable :=
  freeOpt (Config.freeFlag n 0) (Table.tab fun b => Config.freeWord n (16 + b.toNat))

/-- A free tree at draw `n`, or none (R1020): any tree that the node store has room for (R132), whatever its symbols,
weights and keys. -/
def freeHTree (n : Nat) : Option HTree :=
  let t := Config.freeTree n
  freeOpt (Config.freeFlag n 1 && decide (t.size ≤ Config.maxNodes)) t

/-- A free code table at draw `n`, or none (R1020): any length up to 255 and any bits (R133). -/
def freeCt (n : Nat) : Option CodeTable :=
  freeOpt (Config.freeFlag n 2) <| Table.tab fun b =>
    (List.range ((Config.freeWord n (272 + b.toNat)).toNat % 256)).map fun k => Config.freeFlag n (3 + 256 * b.toNat + k)

/-- The stores and flags a raced command leaves: any among those the command may write (R1020, R134). -/
def State.raceStores (s : State) (i : Instr) : State :=
  match i with
  | .freq => { s with ft := freeFt s.draws, tree := freeHTree s.draws, ct := freeCt s.draws }
  | .ftload => { s with ft := freeFt s.draws, tree := freeHTree s.draws, ct := freeCt s.draws }
  | .huff _ => { s with ft := freeFt s.draws, tree := freeHTree s.draws, ct := freeCt s.draws }
  | .ctload => { s with ct := freeCt s.draws }
  | .tree => { s with tree := freeHTree s.draws, ct := freeCt s.draws }
  | .codes => { s with ct := freeCt s.draws }
  | .clear => { s with ft := freeFt s.draws, tree := freeHTree s.draws, ct := freeCt s.draws }
  | .nop => s
  | .emit _ => s
  | .rle => s
  | .binx _ => s
  | .ratio => s
  | .ftstore => s
  | .ctstore => s

/-- Free error registers (R1020, U14). -/
def State.raceError (s : State) : State :=
  { s with
    errCode := errCodeNo (Config.freeErrPick s.draws)
    errInfo0 := Config.freeWord s.draws 8
    errInfo1 := Config.freeWord s.draws 9 }

/-- The completion of a command whose input the host wrote (R1020): free error registers, result registers, stores, flags
and output bytes among those the command may write; everything else as it was. -/
def State.raceCompletion (s : State) (i : Instr) (snap : Args) : State :=
  let t := ((s.raceError.raceStores i).setResults ((resultRegs i).map fun r => (r, Config.freeWord s.draws r.index)))
  ({ t with draws := s.draws + 1 }.smearOpt (writtenRegion i snap)).complete

/-! ### Host-sequence assembly -/

/-- The actions of R340 and R341. -/
inductive HostAction where
  /-- `W reg, v` -/
  | write (x : Reg) (v : Word)
  /-- `R reg` -/
  | read (x : Reg)
  /-- `WB a, b0, b1, …` -/
  | writeBytes (a : Nat) (bs : List Byte)
  /-- `RB a, n` -/
  | readBytes (a n : Nat)
  /-- `CMD m` or `CMD m.A` -/
  | cmd (i : Instr)
  /-- `WAIT` -/
  | wait
  /-- `RUN m` or `RUN m.A` -/
  | run (i : Instr)
  /-- `ACK` -/
  | ack
  /-- `SRC a, n` -/
  | src (a n : Word)
  /-- `DST a, n` -/
  | dst (a n : Word)
  /-- `TBL a` -/
  | tbl (a : Word)
  /-- `SRESET` -/
  | sreset
deriving DecidableEq, Repr

/-- A 4-byte write of a register. -/
def writeReg (r : Reg) (v : Word) : HostEvent := .access ⟨BitVec.ofNat 32 r.offset, true, 4, v⟩

/-- A 4-byte read of a register. -/
def readReg (r : Reg) : HostEvent := .access ⟨BitVec.ofNat 32 r.offset, false, 4, 0⟩

/-- A 1-byte write of a DMEM offset. -/
def writeByte (a : Nat) (b : Byte) : HostEvent := .access ⟨BitVec.ofNat 32 (Config.dmemBase + a), true, 1, b.setWidth 32⟩

/-- A 1-byte read of a DMEM offset. -/
def readByte (a : Nat) : HostEvent := .access ⟨BitVec.ofNat 32 (Config.dmemBase + a), false, 1, 0⟩

/-- The events an action stands for (R340, R341). -/
def HostAction.expand : HostAction → List HostEvent
  | .write x v => [writeReg x v]
  | .read x => [readReg x]
  | .writeBytes a bs => bs.mapIdx fun i b => writeByte (a + i) b
  | .readBytes a n => (List.range n).map fun i => readByte (a + i)
  | .cmd i => [writeReg .cmd (encode i)]
  | .wait => [.wait]
  | .run i => [writeReg .cmd (encode i), .wait]
  | .ack => [writeReg .intr 0x3]
  | .src a n => [writeReg .srcAddr a, writeReg .srcLen n]
  | .dst a n => [writeReg .dstAddr a, writeReg .dstCap n]
  | .tbl a => [writeReg .tblAddr a]
  | .sreset => [writeReg .ctrl 0x1]

/-- The events of a host program (R340). -/
def hostProgram (as : List HostAction) : List HostEvent := as.flatMap HostAction.expand

end Sys2Proof.Machine
end

