-- ==== Sys2Proof/Machine/Completion.lean ====
section
/-! DEFINITION. The completion of a running command (R112). -/

namespace Sys2Proof.Machine

/-- The completion step of `BUSY(w, snap)` (R112). The word is decoded first, and an illegal one raises IllegalCommand
(R320). A command whose input the host wrote completes in any state R1020 allows. Otherwise the command runs, and the
output bytes the host wrote meanwhile are left unspecified (R1021). -/
def State.completion (s : State) (r : Run) : Host.Outcome State Fault Refusal :=
  match decode r.word with
  | .error _ => .next (s.raise [] (.illegalCommand r.word))
  | .ok i =>
    if r.raced then .next (s.raceCompletion i r.snap)
    else
      match exec i s with
      | .next t => .next (t.smearTouched r.touched)
      | .fault f => .fault f
      | .refused f => .refused f

end Sys2Proof.Machine
end

