-- ==== Sys2Proof/Machine/Step.lean ====
section
/-! DEFINITION. One step of the block: the completion of the running command, or one event of the host. -/

namespace Sys2Proof.Machine

/-- One step: the engine's, if it is its turn, or else the host's (R112, R261, R1040). -/
def step (s : State) : Host.Outcome State Fault Refusal :=
  match s.engineTurn with
  | some r => s.completion r
  | none => .next s.hostTurn

/-- The state in which the next step runs the command word `w`: the word has just been accepted (R110) and the engine is
about to complete it. CXE fetches nothing (R101); acceptance of a CMD write is what brings a command in. -/
def State.withFetchWord (s : State) (nbits w : Nat) : State :=
  { s.accept (BitVec.ofNat 32 (w % 2 ^ nbits)) 0 with rstN := true }

end Sys2Proof.Machine
end

