-- ==== Sys2Proof/Safety.lean ====
section
/-! DEFINITION. What claims call a good state (the invariant every step keeps, a host that keeps to the hazard rules, the end
of a host program), and the words claims about commands are written in, each taken from the spec's rules and not from the
meanings. -/

namespace Sys2Proof.Machine

/-- Every register and store at its reset value: what the block holds while `rst_n` is 0 (R1000, R1001). DMEM, the free
draws and the host's own queue are not registers. -/
def State.registersReset (s : State) : Prop :=
  s.phase = .idle ∧ s.ie = false ∧ s.intrDone = false ∧ s.intrDrop = false ∧ s.errCode = 0 ∧ s.errInfo0 = 0 ∧
    s.errInfo1 = 0 ∧ s.args = Args.zero ∧ s.results = Results.zero ∧ s.ft = none ∧ s.tree = none ∧ s.ct = none

/-- The invariant of the machine. -/
structure State.Inv (s : State) : Prop where
  /-- DMEM is in its canonical form and inside DMEM_SIZE (R14). -/
  mem : s.memOk = true
  /-- A valid tree fits the node store (R132). -/
  tree : ∀ t, s.tree = some t → t.size ≤ Config.maxNodes
  /-- Every code of a valid code table fits the u8 LEN field (R133, R505). -/
  codes : ∀ ct, s.ct = some ct → ∀ b : Byte, (ct.entry b).length ≤ 255
  /-- ERRCODE holds 0 or a code the engine raises, never 4 and never 8 to 255 (R901, R904). -/
  errCode : legalErrCode s.errCode = true
  /-- While a command runs, `rst_n` is 1 and the error registers read 0 (R110, R1022). -/
  busy : s.isBusy = true → s.rstN = true ∧ s.errCode = 0 ∧ s.errInfo0 = 0 ∧ s.errInfo1 = 0
  /-- The output bytes noted as written by the host are bytes of DMEM (R1021). -/
  touched : ∀ r, s.phase = .busy r → ∀ a ∈ r.touched, a < s.dmemSize
  /-- While `rst_n` is 0 every register holds its reset value (R1001). -/
  held : s.rstN = false → s.registersReset

/-- A valid tree is one that TREE or HUFF could build: weights are sums and each leaf occurs once (R132, R425). Only the
completion of a command whose input the host wrote can end this (R1020). -/
def State.treeWf (s : State) : Prop := ∀ t, s.tree = some t → t.wf = true

/-- The host has kept to the hazard rules R1020 and R1021 for the command that is running. -/
def State.raceFree (s : State) : Bool :=
  match s.phase with
  | .idle => true
  | .busy r => !r.raced && r.touched.isEmpty

/-- A host program has ended (R1030): its last action has completed and the engine is IDLE. -/
def State.ended (s : State) : Bool := s.hostQ.isEmpty && !s.isBusy

/-! ### Operands, as the rules name them -/

/-- SRC_ADDR of the snapshot. -/
abbrev State.srcAt (s : State) : Nat := s.snap.srcAddr.toNat

/-- SRC_LEN of the snapshot. -/
abbrev State.srcCount (s : State) : Nat := s.snap.srcLen.toNat

/-- DST_ADDR of the snapshot. -/
abbrev State.dstAt (s : State) : Nat := s.snap.dstAddr.toNat

/-- DST_CAP of the snapshot. -/
abbrev State.dstRoom (s : State) : Nat := s.snap.dstCap.toNat

/-- TBL_ADDR of the snapshot. -/
abbrev State.tblAt (s : State) : Nat := s.snap.tblAddr.toNat

/-- The source region is valid (R230). -/
abbrev State.srcOk (s : State) : Prop := s.srcAt + s.srcCount ≤ s.dmemSize

/-- The destination region is valid (R230). -/
abbrev State.dstOk (s : State) : Prop := s.dstAt + s.dstRoom ≤ s.dmemSize

/-- The table region of `n` bytes is valid (R230). -/
abbrev State.tblOk (s : State) (n : Nat) : Prop := s.tblAt + n ≤ s.dmemSize

/-- Source and destination overlap (R231). -/
abbrev State.regionsOverlap (s : State) : Prop :=
  0 < s.srcCount ∧ 0 < s.dstRoom ∧ s.srcAt < s.dstAt + s.dstRoom ∧ s.dstAt < s.srcAt + s.srcCount

/-- The address checks of an encoder pass (R530, R540, R600, R700). -/
abbrev State.regionsOk (s : State) : Prop := s.srcOk ∧ s.dstOk ∧ ¬s.regionsOverlap

/-- Source byte `i`, `ByteAt(SRC_ADDR + i)`. -/
def State.srcByte (s : State) (i : Nat) : Byte := s.byteAt (s.srcAt + i)

/-- The first check error of a command by the table R905, as (ERRCODE, ERRINFO0, ERRINFO1) of R901 and R902. -/
def State.checkErrorOf (s : State) (i : Instr) : Option (Byte × Word × Word) :=
  let source : Option (Byte × Word × Word) := if s.srcOk then none else some (6, 1, s.snap.srcAddr)
  let destination : Option (Byte × Word × Word) := if s.dstOk then none else some (6, 2, s.snap.dstAddr)
  let overlap : Option (Byte × Word × Word) := if s.regionsOverlap then some (6, 4, s.snap.dstAddr) else none
  let table (n : Nat) : Option (Byte × Word × Word) := if s.tblOk n then none else some (6, 3, s.snap.tblAddr)
  let input (bad : Bool) (reason : Word) : Option (Byte × Word × Word) := if bad then some (1, reason, 0) else none
  match i with
  | .nop => none
  | .freq => source
  | .tree => (input s.ft.isNone 2).or (input (s.ft == some (Vector.replicate 256 0)) 3)
  | .codes => if s.tree.isNone then some (2, 0, 0) else none
  | .emit _ => ((source.or destination).or overlap).or (input s.ct.isNone 4)
  | .huff _ => ((source.or destination).or overlap).or (input (s.srcCount == 0) 1)
  | .rle => ((source.or destination).or overlap).or (input (s.srcCount == 0) 1)
  | .binx _ => (source.or destination).or overlap
  | .ratio => input (s.snap.arg0 == 0) 5
  | .ftload => table 1024
  | .ftstore => (table 1024).or (input s.ft.isNone 2)
  | .ctload => table 9216
  | .ctstore => (table 9216).or (input s.ct.isNone 4)
  | .clear => none

/-- Which commands write a result register: the last column of R125. -/
def writesResult (r : ResultReg) (i : Instr) : Bool :=
  match r, i with
  | .inBits, .freq => true
  | .inBits, .emit _ => true
  | .inBits, .huff _ => true
  | .inBits, .rle => true
  | .inBits, .binx _ => true
  | .outBits, .emit _ => true
  | .outBits, .huff _ => true
  | .outBits, .rle => true
  | .outBits, .binx _ => true
  | .outBytes, .emit _ => true
  | .outBytes, .huff _ => true
  | .outBytes, .rle => true
  | .outBytes, .binx _ => true
  | .runs, .rle => true
  | .nsym, .tree => true
  | .nsym, .codes => true
  | .nsym, .huff _ => true
  | .maxlen, .codes => true
  | .maxlen, .huff _ => true
  | .resLo, .ratio => true
  | .resHi, .ratio => true
  | _, _ => false

/-- May a command with these arguments write the DMEM byte at `x`? Its destination region or its written table region
(R232). -/
def mayWriteByte (i : Instr) (a : Args) (x : Nat) : Prop :=
  match i with
  | .emit _ => a.dstAddr.toNat ≤ x ∧ x < a.dstAddr.toNat + a.dstCap.toNat
  | .huff _ => a.dstAddr.toNat ≤ x ∧ x < a.dstAddr.toNat + a.dstCap.toNat
  | .rle => a.dstAddr.toNat ≤ x ∧ x < a.dstAddr.toNat + a.dstCap.toNat
  | .binx _ => a.dstAddr.toNat ≤ x ∧ x < a.dstAddr.toNat + a.dstCap.toNat
  | .ftstore => a.tblAddr.toNat ≤ x ∧ x < a.tblAddr.toNat + 1024
  | .ctstore => a.tblAddr.toNat ≤ x ∧ x < a.tblAddr.toNat + 9216
  | _ => False

/-- May a command with these arguments read the DMEM byte at `x`? Its source region or its read table region (R232). -/
def mayReadByte (i : Instr) (a : Args) (x : Nat) : Prop :=
  match i with
  | .freq => a.srcAddr.toNat ≤ x ∧ x < a.srcAddr.toNat + a.srcLen.toNat
  | .emit _ => a.srcAddr.toNat ≤ x ∧ x < a.srcAddr.toNat + a.srcLen.toNat
  | .huff _ => a.srcAddr.toNat ≤ x ∧ x < a.srcAddr.toNat + a.srcLen.toNat
  | .rle => a.srcAddr.toNat ≤ x ∧ x < a.srcAddr.toNat + a.srcLen.toNat
  | .binx _ => a.srcAddr.toNat ≤ x ∧ x < a.srcAddr.toNat + a.srcLen.toNat
  | .ftload => a.tblAddr.toNat ≤ x ∧ x < a.tblAddr.toNat + 1024
  | .ctload => a.tblAddr.toNat ≤ x ∧ x < a.tblAddr.toNat + 9216
  | _ => False

/-- The byte at `x` is in the input of the running command (R1020). -/
def State.isInput (s : State) (x : Nat) : Prop :=
  ∃ r i, s.phase = .busy r ∧ decode r.word = .ok i ∧ mayReadByte i r.snap x

/-- The byte at `x` is in the output of the running command (R1021). -/
def State.isOutput (s : State) (x : Nat) : Prop :=
  ∃ r i, s.phase = .busy r ∧ decode r.word = .ok i ∧ mayWriteByte i r.snap x

/-- The command ends with the given ERRCODE, ERRINFO0 and ERRINFO1. -/
def State.endsWith (s : State) (i : Instr) (code : Byte) (info0 info1 : Word) : Prop :=
  ∃ t, exec i s = .next t ∧ t.errCode = code ∧ t.errInfo0 = info0 ∧ t.errInfo1 = info1

/-- Does a command write FT_VALID? The first column of R134. -/
def writesFt : Instr → Bool
  | .freq => true
  | .ftload => true
  | .huff _ => true
  | .clear => true
  | _ => false

/-- Does a command write TREE_VALID? The second column of R134. -/
def writesTree : Instr → Bool
  | .freq => true
  | .ftload => true
  | .tree => true
  | .huff _ => true
  | .clear => true
  | _ => false

/-- Does a command write CT_VALID? The third column of R134. -/
def writesCt : Instr → Bool
  | .freq => true
  | .ftload => true
  | .tree => true
  | .codes => true
  | .ctload => true
  | .huff _ => true
  | .clear => true
  | _ => false

/-- FT_VALID after a command's success, `b` before it: the first column of R134. -/
def ftValidAfter (i : Instr) (b : Bool) : Bool :=
  match i with
  | .freq => true
  | .ftload => true
  | .huff _ => true
  | .clear => false
  | _ => b

/-- TREE_VALID after a command's success, `b` before it: the second column of R134. -/
def treeValidAfter (i : Instr) (b : Bool) : Bool :=
  match i with
  | .freq => false
  | .ftload => false
  | .tree => true
  | .huff _ => true
  | .clear => false
  | _ => b

/-- CT_VALID after a command's success, `b` before it: the third column of R134. -/
def ctValidAfter (i : Instr) (b : Bool) : Bool :=
  match i with
  | .freq => false
  | .ftload => false
  | .tree => false
  | .codes => true
  | .ctload => true
  | .huff _ => true
  | .clear => false
  | _ => b

/-- The host's part of the state and the parameter are the same: what no command writes. -/
structure SameSetting (s t : State) : Prop where
  memLog : t.memLog = s.memLog
  rstN : t.rstN = s.rstN
  ie : t.ie = s.ie
  intrDrop : t.intrDrop = s.intrDrop
  args : t.args = s.args
  memDraw : t.memDraw = s.memDraw
  hostQ : t.hostQ = s.hostQ
  resp : t.resp = s.resp

/-! ### Bit streams, frequency tables, trees, codes and runs, as the rules describe them -/

/-- The bytes a stream of `n` bits needs in a layout: ceil(n / 8) packed (R240), n in ASCII (R241). -/
def bytesNeeded (a : Layout) (n : Nat) : Nat :=
  match a with
  | .packed => (n + 7) / 8
  | .ascii => n

/-- DMEM holds the stream `b` at offset `d` in a layout: bit by bit as R240 says, padding included, or character by
character as R241 says. -/
def State.holdsStream (t : State) (a : Layout) (d : Nat) (b : BitSeq) : Prop :=
  match a with
  | .packed => ∀ k < 8 * ((b.length + 7) / 8), (t.byteAt (d + k / 8)).getLsbD (7 - k % 8) = b.getD k false
  | .ascii => ∀ k < b.length, t.byteAt (d + k) = if b.getD k false then 0x31 else 0x30

/-- `ft` counts the source bytes: each entry is the number of indices at which its symbol stands (R400, R401). -/
def State.countsSource (s : State) (ft : FreqTable) : Prop :=
  ∀ b : Byte, (ft.entry b).toNat = ((List.range s.srcCount).filter fun i => s.srcByte i = b).length

/-- The number of symbols with a count above 0. -/
def symbolsIn (ft : FreqTable) : Nat := ((List.range 256).filter fun n => ft.entry (BitVec.ofNat 8 n) ≠ 0).length

/-- `live` holds one leaf for each symbol with a count above 0, and nothing else (R422). -/
def IsLeafSet (ft : FreqTable) (live : List HTree) : Prop :=
  live.Nodup ∧ ∀ t, t ∈ live ↔ ∃ b : Byte, ft.entry b ≠ 0 ∧ t = .leaf b (ft.entry b).toNat b.toNat

/-- `x` has a smaller key (weight, seq) than `y` (R421). -/
def KeyLt (x y : HTree) : Prop := x.weight < y.weight ∨ (x.weight = y.weight ∧ x.seq < y.seq)

/-- The loop of R422 as a relation: from the live set, after `k` merges, the loop ends with the given root. Each round
removes the least element `x`, then the least element `y` of what is left, and puts back their merge, with `y` left and `x`
right (R423). -/
inductive Huffman : Nat → List HTree → HTree → Prop where
  | root (k : Nat) (t : HTree) : Huffman k [t] t
  | round (k : Nat) (live : List HTree) (x y : HTree) (rest : List HTree) (t : HTree)
      (remove : live.Perm (x :: y :: rest))
      (first : ∀ z ∈ y :: rest, KeyLt x z)
      (second : ∀ z ∈ rest, KeyLt y z)
      (go : Huffman (k + 1) (.node (x.weight + y.weight) (256 + k) y x :: rest) t) : Huffman k live t

/-- The symbol reached from a node by a path, left on 0 and right on 1 (R501). -/
def HTree.leafAt : HTree → BitSeq → Option Byte
  | .leaf s _ _, [] => some s
  | .leaf _ _ _, _ :: _ => none
  | .node _ _ _ _, [] => none
  | .node _ _ l r, b :: p => if b then r.leafAt p else l.leafAt p

/-- `p` is the code of `b` in the tree: the path to its leaf (R501), or "0" where the root is a leaf (R503). -/
def HTree.hasCode (h : HTree) (b : Byte) (p : BitSeq) : Prop :=
  match h with
  | .leaf s _ _ => b = s ∧ p = [false]
  | .node w q l r => (HTree.node w q l r).leafAt p = some b

/-- The leaf at the end of path `p` comes before the one at the end of `c` in pre-order: where the paths part, `p` goes
left. -/
def PathBefore (p c : BitSeq) : Prop := ∃ q r r', p = q ++ false :: r ∧ c = q ++ true :: r'

/-- `ct` is the code table of the tree: the symbols of its leaves have their codes, and no other symbol has an entry. -/
def IsCodeTable (h : HTree) (ct : CodeTable) : Prop :=
  ∀ b : Byte, (b ∈ h.symbols → h.hasCode b (ct.entry b)) ∧ (b ∉ h.symbols → ct.entry b = [])

/-- The codes of `ct` form a full prefix code of `n` symbols (R502): no code is a prefix of another, every length is between 1
and n - 1, and the sum of 2^-LEN is 1, here multiplied by 2^255. -/
def CodeTable.isPrefixCode (ct : CodeTable) (n : Nat) : Prop :=
  (∀ b c : Byte, ct.entry b ≠ [] → ct.entry c ≠ [] → b ≠ c → ¬ct.entry b <+: ct.entry c) ∧
    (∀ b : Byte, ct.entry b ≠ [] → 1 ≤ (ct.entry b).length ∧ (ct.entry b).length ≤ n - 1) ∧
    ((List.range 256).map fun k =>
      if ct.entry (BitVec.ofNat 8 k) = [] then 0 else 2 ^ (255 - (ct.entry (BitVec.ofNat 8 k)).length)).sum = 2 ^ 255

/-- The codes of the source bytes, one after the other (R530). -/
def State.sourceCodes (s : State) (ct : CodeTable) : BitSeq :=
  (List.range s.srcCount).flatMap fun i => ct.entry (s.srcByte i)

/-- The bits of the source bytes, each most significant bit first (R700). -/
def State.sourceBits (s : State) : BitSeq :=
  (List.range s.srcCount).flatMap fun i =>
    let b := s.srcByte i
    [b.getLsbD 7, b.getLsbD 6, b.getLsbD 5, b.getLsbD 4, b.getLsbD 3, b.getLsbD 2, b.getLsbD 1, b.getLsbD 0]

/-- `count` copies of `value` for each run, in order: `expand` of R603. -/
def expandRuns (runs : List (Byte × Nat)) : List Byte := runs.flatMap fun r => List.replicate r.2 r.1

/-- `runs` are the maximal runs of the source: they expand to it, none is empty, and neighbours differ (R600, R603). -/
def State.areRuns (s : State) (runs : List (Byte × Nat)) : Prop :=
  expandRuns runs = (List.range s.srcCount).map s.srcByte ∧ (∀ r ∈ runs, 1 ≤ r.2) ∧
    List.IsChain (fun r q : Byte × Nat => r.1 ≠ q.1) runs

/-- The j-th run record in DMEM at offset `d` (R601). -/
def State.recordAt (t : State) (d j : Nat) : Byte × Nat := (t.byteAt (d + 5 * j), t.memRead (d + 5 * j + 1) 4)

/-- An illegal command word: the three cases of R310. -/
def isIllegal (w : Word) : Prop :=
  w.toNat / 2 ^ 9 ≠ 0 ∨ 0x0E ≤ w.toNat % 256 ∨
    (w.getLsbD 8 = true ∧ w.toNat % 256 ≠ 0x04 ∧ w.toNat % 256 ≠ 0x05 ∧ w.toNat % 256 ≠ 0x07)

/-- The accesses that get a bus error (R202): unmapped, a wrong access of the register window, an unaligned or over-long
access of the DMEM window. -/
def State.busErrorCase (s : State) (q : Access) : Prop :=
  let off := q.addr.toNat
  let n := q.size.toNat
  (0x1000 ≤ off ∧ off < 0x01000000) ∨ (0x01000000 ≤ off ∧ 0x01000000 + s.dmemSize < off + n) ∨
    (off < 0x1000 ∧ (n ≠ 4 ∨ off % 4 ≠ 0)) ∨
    (0x01000000 ≤ off ∧ ((n ≠ 1 ∧ n ≠ 2 ∧ n ≠ 4) ∨ off % n ≠ 0))

/-- The engine is about to complete the running command: no further host event comes first (R112, R1040). -/
def State.completing (s : State) (r : Run) : Prop :=
  s.phase = .busy r ∧ s.rstN = true ∧ (s.hostQ = [] ∨ (∃ es, s.hostQ = .wait :: es) ∨ r.delay = 0)

end Sys2Proof.Machine
end

