-- ==== Sys2Proof/Certificates/Slice0/Obligations.lean ====
section
/-! DEFINITION. The statements for the provers. Every statement about a command names the whole next state as a record
update of the state before, so that what it does not name is unchanged; `mem := t.mem` is then said byte by byte. -/

open Sys2Proof Sys2Proof.Machine

/-! ### Encoding -/

/-- Decoding a word gives a command exactly when the word is that command's encoding: no bit of an encoding is dropped, and
no other word decodes (30_encoding.md, sections 2 and 5). -/
def Obligations.DecodeAcceptsExactlyTheEncodings : Prop :=
  ∀ (w : Word) (i : Instr), decode w = .ok i ↔ encode i = w

/-- The words of the opcode map, row by row (R302). -/
def Obligations.OpcodeMapWordsDecode : Prop :=
  decode 0x00000000 = .ok .nop ∧ decode 0x00000001 = .ok .freq ∧ decode 0x00000002 = .ok .tree ∧
    decode 0x00000003 = .ok .codes ∧ decode 0x00000004 = .ok (.emit .packed) ∧ decode 0x00000104 = .ok (.emit .ascii) ∧
    decode 0x00000005 = .ok (.huff .packed) ∧ decode 0x00000105 = .ok (.huff .ascii) ∧ decode 0x00000006 = .ok .rle ∧
    decode 0x00000007 = .ok (.binx .packed) ∧ decode 0x00000107 = .ok (.binx .ascii) ∧ decode 0x00000008 = .ok .ratio ∧
    decode 0x00000009 = .ok .ftload ∧ decode 0x0000000A = .ok .ftstore ∧ decode 0x0000000B = .ok .ctload ∧
    decode 0x0000000C = .ok .ctstore ∧ decode 0x0000000D = .ok .clear

/-- R310: an illegal word is accepted like any word; at completion it raises IllegalCommand with the word as ERRINFO0, and
changes nothing else. Every other word is a command. -/
def Obligations.IllegalWordsRaiseIllegalCommand : Prop :=
  (∀ (s : State) (w : Word), s.phase = .idle → isIllegal w →
    ∃ r, (s.writeCmd w).phase = .busy r ∧ r.word = w ∧ r.snap = s.args) ∧
  (∀ (s : State) (r : Run), s.completing r → isIllegal r.word →
    step s = .next { s with
      phase := .idle, intrDone := true, errCode := 5, errInfo0 := r.word, errInfo1 := 0 }) ∧
  ∀ w : Word, ¬isIllegal w → ∃ i, decode w = .ok i

/-! ### Steps and the life of a command -/

/-- When the engine completes a command whose word decodes to `i` and whose input the host did not touch, the step is `exec`
of `i`; the output bytes the host wrote meanwhile are then made free. CXE has no program counter (R101): the command comes
in by its acceptance, and nothing else is added around `exec`. -/
def Obligations.StepRunsTheDecodedCommand : Prop :=
  ∀ (s : State) (r : Run) (i : Instr), s.completing r → decode r.word = .ok i → r.raced = false →
    ∃ t, exec i s = .next t ∧ step s = .next (t.smearTouched r.touched) ∧ (r.touched = [] → step s = exec i s)

/-- While the engine does not complete a command, a step serves the host's next event and takes it from the queue; in IDLE
with nothing pending, a step changes nothing (R261, R954). Counting the open delay in host events is the model's choice (log
entry 7). -/
def Obligations.HostEventsAreServedInOrder : Prop :=
  (∀ (s : State) (e : HostEvent) (es : List HostEvent), s.phase = .idle → s.hostQ = e :: es →
    step s = .next ({ s with hostQ := es }.event e)) ∧
  (∀ (s : State) (r : Run) (e : HostEvent) (es : List HostEvent), s.phase = .busy r → s.hostQ = e :: es → e ≠ .wait →
    0 < r.delay →
    step s = .next ({ s with hostQ := es, phase := .busy { r with delay := r.delay - 1 } }.event e)) ∧
  ∀ s : State, s.phase = .idle → s.hostQ = [] → step s = .next s

/-- Every command and every step answers a next state: nothing stops the block (R900, R1040; log entry 15). -/
def Obligations.EveryStepAnswersNext : Prop :=
  (∀ (i : Instr) (s : State), ∃ t, exec i s = .next t) ∧ ∀ s : State, ∃ t, step s = .next t

/-- An accepted command completes, or is abandoned by a reset, after finitely many steps: at most one more than the host
events its free delay lets in before (R1040). The form of the bound is the model's choice (log entry 7). -/
def Obligations.AcceptedCommandsComplete : Prop :=
  ∀ (s : State) (r : Run), s.phase = .busy r → s.rstN = true →
    ∃ k t, k ≤ r.delay + 1 ∧ Host.Core.run Sys2Proof.core k s = .next t ∧ t.phase = .idle

/-- R110: a host write of CMD is accepted in IDLE, with the snapshot of the seven argument registers and the error registers
cleared, and dropped while BUSY, where only INTR.DROP changes. -/
def Obligations.CmdWriteIsAcceptedOrDropped : Prop :=
  ∀ (s : State) (w : Word) (es : List HostEvent), s.rstN = true → s.hostQ = .access ⟨0x018, true, 4, w⟩ :: es →
    (s.phase = .idle → ∃ d, step s = .next { s with
      hostQ := es, resp := some .writeOk, draws := s.draws + 1, errCode := 0, errInfo0 := 0, errInfo1 := 0
      phase := .busy { word := w, snap := s.args, delay := d, raced := false, touched := [] } }) ∧
    ∀ r, s.phase = .busy r → 0 < r.delay → step s = .next { s with
      hostQ := es, resp := some .writeOk, intrDrop := true, phase := .busy { r with delay := r.delay - 1 } }

/-- R111: the snapshot is the seven argument registers at acceptance, and the running command reads only it: changing the
live registers changes nothing of what it does. A host write of one while BUSY changes that register and nothing else. -/
def Obligations.RunningCommandReadsOnlyTheSnapshot : Prop :=
  (∀ (s : State) (w : Word), s.phase = .idle → ∃ r, (s.writeCmd w).phase = .busy r ∧ r.snap = s.args) ∧
  (∀ (i : Instr) (s : State) (r : Run) (a : Args) (t : State), s.phase = .busy r → exec i s = .next t →
    exec i { s with args := a } = .next { t with args := a }) ∧
  ∀ (s : State) (r : Run) (v : Word), s.phase = .busy r →
    s.regWrite .srcAddr v = { s with args := { s.args with srcAddr := v } } ∧
    s.regWrite .srcLen v = { s with args := { s.args with srcLen := v } } ∧
    s.regWrite .dstAddr v = { s with args := { s.args with dstAddr := v } } ∧
    s.regWrite .dstCap v = { s with args := { s.args with dstCap := v } } ∧
    s.regWrite .tblAddr v = { s with args := { s.args with tblAddr := v } } ∧
    s.regWrite .arg0 v = { s with args := { s.args with arg0 := v } } ∧
    s.regWrite .arg1 v = { s with args := { s.args with arg1 := v } }

/-- Every completion releases the engine, sets DONE and raises `irq` if it is enabled (R263, R930); DROP does not drive
`irq`, clearing IE masks it without clearing DONE, and clearing DONE lowers it. -/
def Obligations.CompletionRaisesTheInterrupt : Prop :=
  (∀ (i : Instr) (s t : State), exec i s = .next t →
    t.isBusy = false ∧ (t.regRead .status).getLsbD 0 = false ∧ (t.regRead .intr).getLsbD 0 = true ∧ t.irq = s.ie) ∧
  ∀ (s : State) (v : Word), v.getLsbD 0 = false →
    ({ s with intrDrop := !s.intrDrop }).irq = s.irq ∧
    (s.regWrite .ctrl v).irq = (v.getLsbD 1 && s.intrDone) ∧ (s.regWrite .ctrl v).intrDone = s.intrDone ∧
    (s.regWrite .intr 1).irq = false

/-! ### Host port -/

/-- R202: an access in one of the three cases gets a bus error, changes no state and reads 0; every other access is
served without one. That a DMEM access of a size other than 1, 2 and 4 counts as such a case is an inference from decision
D6 (log entry 12). -/
def Obligations.BusErrorsChangeNothing : Prop :=
  ∀ (s : State) (q : Access),
    (s.busErrorCase q → s.access q = { s with resp := some (if q.write then .writeErr else .readErr) }) ∧
    (¬s.busErrorCase q → ∃ r, (s.access q).resp = some r ∧ r ≠ .writeErr ∧ r ≠ .readErr)

/-- A host write of n bytes to the DMEM window writes those bytes little-endian and no other; a read of n bytes returns
them little-endian; and a read of any width inside a 4-byte write returns its bytes in the same order (R203, R210). This holds
in IDLE, and while a command runs for a write apart from its input and output and a read apart from its output (R1021,
R1031). -/
def Obligations.DmemWindowIsLittleEndian : Prop :=
  (∀ (s : State) (a : Nat) (n : BitVec 3) (v : Word), n = 1 ∨ n = 2 ∨ n = 4 → a % n.toNat = 0 →
    a + n.toNat ≤ s.dmemSize → (∀ x, a ≤ x → x < a + n.toNat → ¬s.isInput x ∧ ¬s.isOutput x) →
    ∃ t, s.access ⟨BitVec.ofNat 32 (0x01000000 + a), true, n, v⟩ = t ∧
      t = { s with mem := t.mem, resp := some .writeOk } ∧
      (∀ i < n.toNat, t.byteAt (a + i) = v.extractLsb' (8 * i) 8) ∧
      ∀ x, x < a ∨ a + n.toNat ≤ x → t.byteAt x = s.byteAt x) ∧
  (∀ (s : State) (a : Nat) (n : BitVec 3) (u : Word), n = 1 ∨ n = 2 ∨ n = 4 → a % n.toNat = 0 →
    a + n.toNat ≤ s.dmemSize → (∀ x, a ≤ x → x < a + n.toNat → ¬s.isOutput x) →
    ∃ v : Word, s.access ⟨BitVec.ofNat 32 (0x01000000 + a), false, n, u⟩ = { s with resp := some (.readOk v) } ∧
      v.toNat < 2 ^ (8 * n.toNat) ∧ ∀ i < n.toNat, v.extractLsb' (8 * i) 8 = s.byteAt (a + i)) ∧
  ∀ (s : State) (a k : Nat) (n : BitVec 3) (v : Word), a % 4 = 0 → a + 4 ≤ s.dmemSize →
    (∀ x, a ≤ x → x < a + 4 → ¬s.isInput x ∧ ¬s.isOutput x) → n = 1 ∨ n = 2 ∨ n = 4 → k % n.toNat = 0 → k + n.toNat ≤ 4 →
    ((s.access ⟨BitVec.ofNat 32 (0x01000000 + a), true, 4, v⟩).access
      ⟨BitVec.ofNat 32 (0x01000000 + (a + k)), false, n, 0⟩).resp =
        some (.readOk (BitVec.ofNat 32 (v.toNat / 2 ^ (8 * k) % 2 ^ (8 * n.toNat))))

/-- The argument registers: every bit is writable, a read returns the last value written, in either phase, and no other
register changes (R124). -/
def Obligations.ArgumentRegistersReadBack : Prop :=
  ∀ (s : State) (off : Word) (v : Word),
    off = 0x040 ∨ off = 0x044 ∨ off = 0x048 ∨ off = 0x04C ∨ off = 0x050 ∨ off = 0x054 ∨ off = 0x058 →
    ∃ t, s.access ⟨off, true, 4, v⟩ = t ∧ t = { s with args := t.args, resp := some .writeOk } ∧
      (t.access ⟨off, false, 4, 0⟩).resp = some (.readOk v) ∧
      ∀ off' : Word, off' ≠ off → off'.toNat % 4 = 0 → off'.toNat < 0x1000 →
        (t.access ⟨off', false, 4, 0⟩).resp = (s.access ⟨off', false, 4, 0⟩).resp

/-- A write to a read-only or reserved offset is ignored; reserved offsets and CMD read 0; the constants read as R120
gives them. -/
def Obligations.ReadOnlyAndReservedRegisters : Prop :=
  ∀ (s : State) (off v : Word), off.toNat < 0x1000 → off.toNat % 4 = 0 →
    (off ≠ 0x00C → off ≠ 0x014 → off ≠ 0x018 → ¬(0x040 ≤ off.toNat ∧ off.toNat ≤ 0x058) →
      s.access ⟨off, true, 4, v⟩ = { s with resp := some .writeOk }) ∧
    (off = 0x018 ∨ (0x028 ≤ off.toNat ∧ off.toNat ≤ 0x03C) ∨ (0x05C ≤ off.toNat ∧ off.toNat ≤ 0x07C) ∨
        0x0A0 ≤ off.toNat →
      s.access ⟨off, false, 4, 0⟩ = { s with resp := some (.readOk 0) }) ∧
    (off = 0x000 → s.access ⟨off, false, 4, 0⟩ = { s with resp := some (.readOk 0x43584531) }) ∧
    (off = 0x004 → s.access ⟨off, false, 4, 0⟩ = { s with resp := some (.readOk 1) }) ∧
    (off = 0x008 → s.access ⟨off, false, 4, 0⟩ = { s with resp := some (.readOk (BitVec.ofNat 32 s.dmemSize)) })

/-- INTR is write-1-to-clear and CTRL holds IE, with SRST reading 0 and the reserved bits ignored (R121, R123). -/
def Obligations.IntrAndCtrlFollowTheirBits : Prop :=
  ∀ (s : State) (v : Word),
    s.access ⟨0x014, true, 4, v⟩ = { s with
      intrDone := s.intrDone && !v.getLsbD 0, intrDrop := s.intrDrop && !v.getLsbD 1, resp := some .writeOk } ∧
    (v.getLsbD 0 = false →
      s.access ⟨0x00C, true, 4, v⟩ = { s with ie := v.getLsbD 1, resp := some .writeOk } ∧
      ((s.access ⟨0x00C, true, 4, v⟩).access ⟨0x00C, false, 4, 0⟩).resp = some (.readOk (v &&& 2))) ∧
    ∃ x, (s.access ⟨0x014, false, 4, 0⟩).resp = some (.readOk x) ∧ x.getLsbD 0 = s.intrDone ∧ x.getLsbD 1 = s.intrDrop ∧
      x.toNat < 4

/-- Reads while a command runs, in every state with the invariant: BUSY reads 1 and ERR 0, the error registers 0, and CTRL,
INTR and the arguments their exact values (R1022). -/
def Obligations.ReadsWhileBusy : Prop :=
  ∀ s : State, s.Inv → s.isBusy = true →
    (s.regRead .status).getLsbD 0 = true ∧ (s.regRead .status).getLsbD 1 = false ∧ s.regRead .errcode = 0 ∧
    s.regRead .errinfo0 = 0 ∧ s.regRead .errinfo1 = 0 ∧ s.regRead .ctrl = (if s.ie then 2 else 0) ∧
    (s.regRead .intr).getLsbD 0 = s.intrDone ∧ (s.regRead .intr).getLsbD 1 = s.intrDrop ∧
    s.regRead .srcAddr = s.args.srcAddr ∧ s.regRead .srcLen = s.args.srcLen ∧ s.regRead .dstAddr = s.args.dstAddr ∧
    s.regRead .dstCap = s.args.dstCap ∧ s.regRead .tblAddr = s.args.tblAddr ∧ s.regRead .arg0 = s.args.arg0 ∧
    s.regRead .arg1 = s.args.arg1

/-- A command whose input the host wrote while it ran (R1020): it completes, and what it does not write follows the normal
rules: other result registers, stores and flags it may not write, DMEM outside its output, the host's registers. ERRCODE is
one the engine may leave: an inference from R901 and U14 (log entry 10). -/
def Obligations.RacedCompletionKeepsTheRest : Prop :=
  ∀ (s : State) (r : Run) (i : Instr), s.completing r → decode r.word = .ok i → r.raced = true →
    ∃ t, step s = .next t ∧ SameSetting s t ∧ t.phase = .idle ∧ t.intrDone = true ∧ legalErrCode t.errCode = true ∧
      (∀ x, writesResult x i = false → t.results.read x = s.results.read x) ∧
      (writesFt i = false → t.ft = s.ft) ∧ (writesTree i = false → t.tree = s.tree) ∧ (writesCt i = false → t.ct = s.ct) ∧
      ∀ x, ¬mayWriteByte i r.snap x → t.byteAt x = s.byteAt x

/-- A host write of 1, 2 or 4 bytes of DMEM while a command runs (R1020, R1021). A byte of it in the command's input marks
the command raced, each byte of it in the command's output is noted, and the rest of the record stays; every byte of it apart
from the output is stored, and no other byte changes. At an unraced completion the noted bytes are the only ones left otherwise
than `exec` leaves them. That a run keeps such a record is the model's choice (log entry 16), and that its regions count as the
snapshot names them, valid or not, is an inference (log entry 11). -/
def Obligations.HostWritesWhileBusy : Prop :=
  (∀ (s : State) (r : Run) (i : Instr) (a : Nat) (n : BitVec 3) (v : Word), s.phase = .busy r → decode r.word = .ok i →
    n = 1 ∨ n = 2 ∨ n = 4 → a % n.toNat = 0 → a + n.toNat ≤ s.dmemSize →
    ∃ t raced touched, s.access ⟨BitVec.ofNat 32 (0x01000000 + a), true, n, v⟩ = t ∧
      t = { s with phase := .busy { r with raced := raced, touched := touched }, mem := t.mem, resp := some .writeOk } ∧
      (raced = true ↔ r.raced = true ∨ ∃ x, a ≤ x ∧ x < a + n.toNat ∧ mayReadByte i r.snap x) ∧
      (∀ x, x ∈ touched ↔ x ∈ r.touched ∨ (a ≤ x ∧ x < a + n.toNat ∧ mayWriteByte i r.snap x)) ∧
      (∀ j < n.toNat, ¬mayWriteByte i r.snap (a + j) → t.byteAt (a + j) = v.extractLsb' (8 * j) 8) ∧
      ∀ x, x < a ∨ a + n.toNat ≤ x → t.byteAt x = s.byteAt x) ∧
  ∀ (s : State) (r : Run) (i : Instr) (t u : State), s.completing r → decode r.word = .ok i → r.raced = false →
    exec i s = .next t → step s = .next u →
    u = { t with mem := u.mem, draws := u.draws } ∧ ∀ x, x ∉ r.touched → u.byteAt x = t.byteAt x

/-! ### Reset -/

/-- The values the spec gives for reset, read at the host port, for every DMEM_SIZE (R1000). -/
def Obligations.ResetValues : Prop :=
  ∀ k : Fin 13, ∀ s : State, s = State.resetOf k →
    s.regRead .id = 0x43584531 ∧ s.regRead .version = 1 ∧ s.regRead .memsize = BitVec.ofNat 32 (2 ^ (12 + k.val)) ∧
    s.regRead .ctrl = 0 ∧ s.regRead .status = 0 ∧ s.regRead .intr = 0 ∧ s.regRead .errcode = 0 ∧
    s.regRead .errinfo0 = 0 ∧ s.regRead .errinfo1 = 0 ∧ s.regRead .srcAddr = 0 ∧ s.regRead .srcLen = 0 ∧
    s.regRead .dstAddr = 0 ∧ s.regRead .dstCap = 0 ∧ s.regRead .tblAddr = 0 ∧ s.regRead .arg0 = 0 ∧
    s.regRead .arg1 = 0 ∧ (∀ r, s.regRead (.result r) = 0) ∧ s.phase = .idle ∧ s.irq = false

/-- R1002: a CTRL write with SRST = 1 restores every register, flag and store, in either phase, and keeps DMEM but for the
output region of a running command; it sets no DONE and raises no `irq`. That the level of `rst_n` is kept is an inference, and
that the pending host events are is the model's choice (log entry 17). -/
def Obligations.SoftResetRestoresTheRegisters : Prop :=
  ∀ (s : State) (v : Word), v.getLsbD 0 = true →
    ∃ t, s.access ⟨0x00C, true, 4, v⟩ = t ∧ t.registersReset ∧ t.irq = false ∧ t.resp = some .writeOk ∧
      t.memLog = s.memLog ∧ t.rstN = s.rstN ∧ t.hostQ = s.hostQ ∧
      (s.phase = .idle → ∀ x, t.byteAt x = s.byteAt x) ∧
      ∀ r, s.phase = .busy r → ∀ x, (∀ i, decode r.word = .ok i → ¬mayWriteByte i r.snap x) → t.byteAt x = s.byteAt x

/-- Hardware reset: while `rst_n` is 0 every register holds its reset value, no access is answered and `irq` is 0; when it
rises the block is IDLE with the reset values (R1001, R1003). -/
def Obligations.HardwareResetHoldsTheBlock : Prop :=
  (∀ s : State, (s.event (.rstN false)).registersReset ∧ (s.event (.rstN false)).rstN = false ∧
    (s.event (.rstN false)).memLog = s.memLog ∧ (s.event (.rstN false)).irq = false) ∧
  (∀ (s : State) (q : Access), s.rstN = false → s.event (.access q) = { s with resp := none }) ∧
  ∀ s : State, s.registersReset → (s.event (.rstN true)).registersReset ∧ (s.event (.rstN true)).rstN = true ∧
    (s.event (.rstN true)).irq = false

/-! ### Errors -/

/-- A command whose checks fail reports the first failing check by the table R905, with the codes and data of R901 and R902,
in the order of R910: the error registers are written, the command's own result registers become 0, and nothing else
changes but the end of the command (R920). -/
def Obligations.CheckErrorsAreReported : Prop :=
  ∀ (i : Instr) (s : State) (code : Byte) (info0 info1 : Word), s.checkErrorOf i = some (code, info0, info1) →
    ∃ t, exec i s = .next t ∧
      t = { s with
        phase := .idle, intrDone := true, errCode := code, errInfo0 := info0, errInfo1 := info1, results := t.results } ∧
      ∀ x, t.results.read x = if writesResult x i then 0 else s.results.read x

/-- EMIT and UnknownSymbol (R530): the first source byte without a code, by index, is reported, whatever the destination's
capacity; the error leaves the stores and every byte outside the destination region unchanged. -/
def Obligations.EmitReportsTheFirstUnknownSymbol : Prop :=
  ∀ (s : State) (a : Layout) (ct : CodeTable) (i : Nat), s.regionsOk → s.ct = some ct → i < s.srcCount →
    (∀ j < i, ct.entry (s.srcByte j) ≠ []) → ct.entry (s.srcByte i) = [] →
    ∃ t, exec (.emit a) s = .next t ∧
      t = { s with
        phase := .idle, intrDone := true, errCode := 3, errInfo0 := BitVec.ofNat 32 i
        errInfo1 := (s.srcByte i).setWidth 32
        results := { s.results with inBits := 0, outBits := 0, outBytes := 0 }, mem := t.mem, draws := t.draws } ∧
      ∀ x, x < s.dstAt ∨ s.dstAt + s.dstRoom ≤ x → t.byteAt x = s.byteAt x

/-- OutputOverflow of the encoders EMIT, RLE and BINX (R530, R600, R700, R920): the need and the capacity are reported, the
command's result registers become 0, and every byte outside the destination region keeps its value. -/
def Obligations.OverflowLeavesTheRest : Prop :=
  ∀ (s : State), s.regionsOk →
    (∀ (a : Layout) (ct : CodeTable), s.ct = some ct → (∀ i < s.srcCount, ct.entry (s.srcByte i) ≠ []) →
      s.dstRoom < bytesNeeded a (s.sourceCodes ct).length →
      ∃ t, exec (.emit a) s = .next t ∧
        t = { s with
          phase := .idle, intrDone := true, errCode := 7
          errInfo0 := BitVec.ofNat 32 (bytesNeeded a (s.sourceCodes ct).length), errInfo1 := s.snap.dstCap
          results := { s.results with inBits := 0, outBits := 0, outBytes := 0 }, mem := t.mem, draws := t.draws } ∧
        ∀ x, x < s.dstAt ∨ s.dstAt + s.dstRoom ≤ x → t.byteAt x = s.byteAt x) ∧
    (∀ runs, 0 < s.srcCount → s.areRuns runs → s.dstRoom < 5 * runs.length →
      ∃ t, exec .rle s = .next t ∧
        t = { s with
          phase := .idle, intrDone := true, errCode := 7, errInfo0 := BitVec.ofNat 32 (5 * runs.length)
          errInfo1 := s.snap.dstCap
          results := { s.results with inBits := 0, outBits := 0, outBytes := 0, runs := 0 }
          mem := t.mem, draws := t.draws } ∧
        ∀ x, x < s.dstAt ∨ s.dstAt + s.dstRoom ≤ x → t.byteAt x = s.byteAt x) ∧
    ∀ a : Layout, s.dstRoom < bytesNeeded a (8 * s.srcCount) →
      ∃ t, exec (.binx a) s = .next t ∧
        t = { s with
          phase := .idle, intrDone := true, errCode := 7, errInfo0 := BitVec.ofNat 32 (bytesNeeded a (8 * s.srcCount))
          errInfo1 := s.snap.dstCap
          results := { s.results with inBits := 0, outBits := 0, outBytes := 0 }, mem := t.mem, draws := t.draws } ∧
        ∀ x, x < s.dstAt ∨ s.dstAt + s.dstRoom ≤ x → t.byteAt x = s.byteAt x

/-! ### What each command does -/

/-- R820: NOP, word 0x00000000, changes nothing but the end of the command: BUSY goes to 0 and INTR.DONE to 1, so that with
IE = 1 `irq` is 1. -/
def Obligations.NopOnlyCompletes : Prop :=
  encode .nop = 0x00000000 ∧ ∀ s : State, ∃ t, exec .nop s = .next t ∧
    t = { s with phase := .idle, intrDone := true } ∧ t.irq = s.ie

/-- R830: CLEAR, word 0x0000000D, discards the three stores; no result register and no DMEM byte changes. As long as the
stores are as CLEAR left them, the commands that need one end with the errors the rule names. -/
def Obligations.ClearDiscardsTheStores : Prop :=
  encode .clear = 0x0000000D ∧ ∀ s : State, ∃ t, exec .clear s = .next t ∧
    t = { s with phase := .idle, intrDone := true, ft := none, tree := none, ct := none } ∧
    t.ftValid = false ∧ t.treeValid = false ∧ t.ctValid = false ∧
    ∀ u : State, u.ft = t.ft → u.tree = t.tree → u.ct = t.ct →
      u.endsWith .tree 1 2 0 ∧ u.endsWith .codes 2 0 0 ∧ (∀ a, u.regionsOk → u.endsWith (.emit a) 1 4 0) ∧
      (u.tblOk 9216 → u.endsWith .ctstore 1 4 0) ∧ (u.tblOk 1024 → u.endsWith .ftstore 1 2 0)

/-- R401: FREQ counts the source bytes, makes the table valid and the tree and codes invalid, and writes IN_BITS. -/
def Obligations.FreqCountsTheSource : Prop :=
  ∀ s : State, s.srcOk → ∃ ft, s.countsSource ft ∧
    exec .freq s = .next { s with
      phase := .idle, intrDone := true, ft := some ft, tree := none, ct := none
      results := { s.results with inBits := BitVec.ofNat 32 (8 * s.srcCount) } }

/-- The sum of all FT entries after FREQ equals SRC_LEN (R401, corner cases). -/
def Obligations.FrequenciesSumToTheLength : Prop :=
  ∀ (s t : State) (ft : FreqTable), s.srcOk → exec .freq s = .next t → t.ft = some ft →
    ((List.range 256).map fun n => (ft.entry (BitVec.ofNat 8 n)).toNat).sum = s.srcCount

/-- R410: FTLOAD loads the 256 little-endian counts of the image, and writes no result register and no DMEM byte. -/
def Obligations.FtloadReadsTheImage : Prop :=
  ∀ s : State, s.tblOk 1024 → ∃ ft,
    exec .ftload s = .next { s with phase := .idle, intrDone := true, ft := some ft, tree := none, ct := none } ∧
    ∀ b : Byte, (ft.entry b).toNat =
      (s.byteAt (s.tblAt + 4 * b.toNat)).toNat + 2 ^ 8 * (s.byteAt (s.tblAt + 4 * b.toNat + 1)).toNat +
      2 ^ 16 * (s.byteAt (s.tblAt + 4 * b.toNat + 2)).toNat + 2 ^ 24 * (s.byteAt (s.tblAt + 4 * b.toNat + 3)).toNat

/-- R412: FTSTORE writes the 256 counts little-endian at TBL_ADDR, and nothing else. -/
def Obligations.FtstoreWritesTheImage : Prop :=
  ∀ (s : State) (ft : FreqTable), s.tblOk 1024 → s.ft = some ft → ∃ t, exec .ftstore s = .next t ∧
    t = { s with phase := .idle, intrDone := true, mem := t.mem } ∧
    (∀ (b : Byte) (j : Nat), j < 4 → t.byteAt (s.tblAt + 4 * b.toNat + j) = (ft.entry b).extractLsb' (8 * j) 8) ∧
    ∀ x, x < s.tblAt ∨ s.tblAt + 1024 ≤ x → t.byteAt x = s.byteAt x

/-- FTSTORE followed by FTLOAD at the same TBL_ADDR leaves FT unchanged, and clears the two derived flags (R412, R410). -/
def Obligations.FtstoreThenFtloadKeepsTheTable : Prop :=
  ∀ (s t : State) (ft : FreqTable), s.tblOk 1024 → s.ft = some ft → exec .ftstore s = .next t →
    ∃ u, exec .ftload { t with phase := s.phase } = .next u ∧ u.ft = some ft ∧ u.tree = none ∧ u.ct = none

/-- TREE ends with a root that the loop of R422 ends with, from one leaf for each symbol with a count above 0, and writes
NSYM (R420). -/
def Obligations.TreeRunsTheMergeLoop : Prop :=
  ∀ (s : State) (ft : FreqTable), s.ft = some ft → ft ≠ Vector.replicate 256 0 → ∃ h live,
    IsLeafSet ft live ∧ Huffman 0 live h ∧
    exec .tree s = .next { s with
      phase := .idle, intrDone := true, tree := some h, ct := none
      results := { s.results with nsym := BitVec.ofNat 32 (symbolsIn ft) } }

/-- Every outcome of the loop of R422, from one leaf for each symbol with a count above 0 in any order, is the tree that TREE
leaves: the result depends only on the frequency table, because every minimum is unique (R421, R425). With
`TreeRunsTheMergeLoop`, which says that there is an outcome, this fixes the tree. -/
def Obligations.MergeLoopOutcomesAreTheTree : Prop :=
  ∀ (s : State) (ft : FreqTable) (live : List HTree) (h : HTree), s.ft = some ft → IsLeafSet ft live →
    Huffman 0 live h → ∃ t, exec .tree s = .next t ∧ t.errCode = s.errCode ∧ t.tree = some h

/-- Every tree TREE builds: its root weight is the sum of the counts and below 2^40, weights are sums, each symbol with a
count above 0 is at one leaf, and with m leaves there are 2m - 1 nodes (R425, R131). -/
def Obligations.TreePropertiesHold : Prop :=
  ∀ (s t : State) (ft : FreqTable) (h : HTree), s.ft = some ft → ft ≠ Vector.replicate 256 0 →
    exec .tree s = .next t → t.tree = some h →
    h.wf = true ∧ (∀ b : Byte, b ∈ h.symbols ↔ ft.entry b ≠ 0) ∧ h.symbols.length = symbolsIn ft ∧
    h.size = 2 * symbolsIn ft - 1 ∧
    h.weight = ((List.range 256).map fun n => (ft.entry (BitVec.ofNat 8 n)).toNat).sum ∧ h.weight < 2 ^ 40

/-- CODES gives every symbol of the tree the path to its leaf, or "0" for a single leaf, and the others no code; NSYM is the
number of symbols with a code and MAXLEN the longest length (R500, R501, R503). Where each symbol is at one leaf, NSYM is the
number of leaves (R504). A raced command can leave a tree in which leaves share a symbol (R1020): the walk is in pre-order, so the last
of them gives the code. -/
def Obligations.CodesArePathsToLeaves : Prop :=
  ∀ (s : State) (h : HTree), s.tree = some h → ∃ ct n m, IsCodeTable h ct ∧
    (∀ b p, h.hasCode b p → p = ct.entry b ∨ PathBefore p (ct.entry b)) ∧
    n = ((List.range 256).filter fun k => ct.entry (BitVec.ofNat 8 k) ≠ []).length ∧
    (h.symbols.Nodup → n = h.symbols.length) ∧
    (∀ b : Byte, (ct.entry b).length ≤ m) ∧ (∃ b : Byte, (ct.entry b).length = m) ∧
    exec .codes s = .next { s with
      phase := .idle, intrDone := true, ct := some ct
      results := { s.results with nsym := BitVec.ofNat 32 n, maxlen := BitVec.ofNat 32 m } }

/-- R502: after CODES or HUFF with a tree of two or more leaves no code is a prefix of another, every length is between 1 and
NSYM - 1, and the Kraft sum is 1. NSYM is the number of leaves; after a HUFF whose output does not fit the register reads 0
(R920), and the number of leaves stands for it. In a tree that TREE or HUFF built each symbol is at one leaf (R425,
`TreePropertiesHold`), which the first part assumes of the tree that CODES reads; only a raced command can leave another
(R1020). -/
def Obligations.CodesArePrefixFree : Prop :=
  (∀ (s t : State) (h : HTree) (ct : CodeTable), s.tree = some h → h.symbols.Nodup → 2 ≤ h.symbols.length →
    exec .codes s = .next t → t.ct = some ct →
    t.results.nsym.toNat = h.symbols.length ∧ ct.isPrefixCode h.symbols.length) ∧
  ∀ (s t : State) (a : Layout) (h : HTree) (ct : CodeTable), s.regionsOk → 0 < s.srcCount → s.errCode = 0 →
    exec (.huff a) s = .next t → t.tree = some h → t.ct = some ct → 2 ≤ h.symbols.length →
    (t.errCode = 0 → t.results.nsym.toNat = h.symbols.length) ∧ ct.isPrefixCode h.symbols.length

/-- R521: CTLOAD loads each entry's length and bits as the image holds them, without a check, and writes nothing else. -/
def Obligations.CtloadReadsTheImage : Prop :=
  ∀ s : State, s.tblOk 9216 → ∃ ct,
    exec .ctload s = .next { s with phase := .idle, intrDone := true, ct := some ct } ∧
    ∀ b : Byte, (ct.entry b).length = (s.byteAt (s.tblAt + 36 * b.toNat)).toNat ∧
      ∀ k < (ct.entry b).length, (ct.entry b).getD k false =
        (s.byteAt (s.tblAt + 36 * b.toNat + 4 + k / 8)).getLsbD (7 - k % 8)

/-- CTSTORE writes the image of R520: each entry's length, three zero bytes, its bits most significant first and zeros past
them; and nothing else (R523). A code in the store has at most 255 bits (R133). -/
def Obligations.CtstoreWritesTheImage : Prop :=
  ∀ (s : State) (ct : CodeTable), s.tblOk 9216 → s.ct = some ct → (∀ b : Byte, (ct.entry b).length ≤ 255) →
    ∃ t, exec .ctstore s = .next t ∧ t = { s with phase := .idle, intrDone := true, mem := t.mem } ∧
    (∀ b : Byte, (t.byteAt (s.tblAt + 36 * b.toNat)).toNat = (ct.entry b).length ∧
      t.byteAt (s.tblAt + 36 * b.toNat + 1) = 0 ∧ t.byteAt (s.tblAt + 36 * b.toNat + 2) = 0 ∧
      t.byteAt (s.tblAt + 36 * b.toNat + 3) = 0 ∧
      ∀ k < 256, (t.byteAt (s.tblAt + 36 * b.toNat + 4 + k / 8)).getLsbD (7 - k % 8) = (ct.entry b).getD k false) ∧
    ∀ x, x < s.tblAt ∨ s.tblAt + 9216 ≤ x → t.byteAt x = s.byteAt x

/-- CTSTORE followed by CTLOAD at the same TBL_ADDR leaves CT unchanged (R523). -/
def Obligations.CtstoreThenCtloadKeepsTheTable : Prop :=
  ∀ (s t : State) (ct : CodeTable), s.tblOk 9216 → s.ct = some ct → (∀ b : Byte, (ct.entry b).length ≤ 255) →
    exec .ctstore s = .next t → ∃ u, exec .ctload { t with phase := s.phase } = .next u ∧ u.ct = some ct

/-- EMIT on a source whose bytes all have codes and whose output fits: the concatenation of the codes is written in the
command's layout, the three result registers are written, and no other byte of DMEM changes (R530). -/
def Obligations.EmitWritesTheCodes : Prop :=
  ∀ (s : State) (a : Layout) (ct : CodeTable), s.regionsOk → s.ct = some ct →
    (∀ i < s.srcCount, ct.entry (s.srcByte i) ≠ []) → bytesNeeded a (s.sourceCodes ct).length ≤ s.dstRoom →
    ∃ t, exec (.emit a) s = .next t ∧
      t = { s with
        phase := .idle, intrDone := true, mem := t.mem
        results := { s.results with
          inBits := BitVec.ofNat 32 (8 * s.srcCount), outBits := BitVec.ofNat 32 (s.sourceCodes ct).length
          outBytes := BitVec.ofNat 32 (bytesNeeded a (s.sourceCodes ct).length) } } ∧
      t.holdsStream a s.dstAt (s.sourceCodes ct) ∧
      ∀ x, x < s.dstAt ∨ s.dstAt + bytesNeeded a (s.sourceCodes ct).length ≤ x → t.byteAt x = s.byteAt x

/-- R531: two EMITs with the same code table and the same source bytes, in blocks that may differ in everything else, give
the same destination bytes and results; and EMIT leaves every store as it was. -/
def Obligations.EmitIsPure : Prop :=
  ∀ (s s' t t' : State) (a : Layout), s.regionsOk → s'.regionsOk → s.ct.isSome → s.ct = s'.ct →
    s.srcCount = s'.srcCount → (∀ i < s.srcCount, s.srcByte i = s'.srcByte i) → s.dstRoom = s'.dstRoom →
    s.errCode = 0 → s'.errCode = 0 → exec (.emit a) s = .next t → exec (.emit a) s' = .next t' →
    t.errCode = t'.errCode ∧ t.results.inBits = t'.results.inBits ∧ t.results.outBits = t'.results.outBits ∧
    t.results.outBytes = t'.results.outBytes ∧ t.ft = s.ft ∧ t.tree = s.tree ∧ t.ct = s.ct ∧
    (t.errCode = 0 → ∀ k < t.results.outBytes.toNat, t.byteAt (s.dstAt + k) = t'.byteAt (s'.dstAt + k))

/-- HUFF (R540): the frequency table counts the source, the tree is the outcome of the merge loop, the code table is the
tree's, and the output is the concatenation of the codes. The stores are kept also when the output does not fit. -/
def Obligations.HuffBuildsAndEmits : Prop :=
  ∀ (s : State) (a : Layout), s.regionsOk → 0 < s.srcCount → ∃ ft live h ct m,
    s.countsSource ft ∧ IsLeafSet ft live ∧ Huffman 0 live h ∧ IsCodeTable h ct ∧
    (∀ b : Byte, (ct.entry b).length ≤ m) ∧ (∃ b : Byte, (ct.entry b).length = m) ∧
    (bytesNeeded a (s.sourceCodes ct).length ≤ s.dstRoom → ∃ t, exec (.huff a) s = .next t ∧
      t = { s with
        phase := .idle, intrDone := true, ft := some ft, tree := some h, ct := some ct, mem := t.mem
        results := { s.results with
          inBits := BitVec.ofNat 32 (8 * s.srcCount), outBits := BitVec.ofNat 32 (s.sourceCodes ct).length
          outBytes := BitVec.ofNat 32 (bytesNeeded a (s.sourceCodes ct).length)
          nsym := BitVec.ofNat 32 (symbolsIn ft), maxlen := BitVec.ofNat 32 m } } ∧
      t.holdsStream a s.dstAt (s.sourceCodes ct) ∧
      ∀ x, x < s.dstAt ∨ s.dstAt + bytesNeeded a (s.sourceCodes ct).length ≤ x → t.byteAt x = s.byteAt x) ∧
    (s.dstRoom < bytesNeeded a (s.sourceCodes ct).length → ∃ t, exec (.huff a) s = .next t ∧
      t = { s with
        phase := .idle, intrDone := true, ft := some ft, tree := some h, ct := some ct, mem := t.mem, draws := t.draws
        errCode := 7, errInfo0 := BitVec.ofNat 32 (bytesNeeded a (s.sourceCodes ct).length), errInfo1 := s.snap.dstCap
        results := { s.results with inBits := 0, outBits := 0, outBytes := 0, nsym := 0, maxlen := 0 } } ∧
      ∀ x, x < s.dstAt ∨ s.dstAt + s.dstRoom ≤ x → t.byteAt x = s.byteAt x)

/-- HUFF is the pipeline (R540): "FREQ, TREE, CODES and EMIT, in that order, as one command". Where its output fits, the four
commands run one after the other from the same snapshot end in the very state HUFF ends in. -/
def Obligations.HuffIsThePipeline : Prop :=
  ∀ (s t : State) (a : Layout), s.regionsOk → 0 < s.srcCount → s.errCode = 0 → exec (.huff a) s = .next t →
    t.errCode = 0 →
    ∃ t1 t2 t3, exec .freq s = .next t1 ∧ exec .tree { t1 with phase := s.phase } = .next t2 ∧
      exec .codes { t2 with phase := s.phase } = .next t3 ∧ exec (.emit a) { t3 with phase := s.phase } = .next t

/-- R542: HUFF's outputs are a function of the source bytes, DST_CAP and A alone. -/
def Obligations.HuffDependsOnlyOnItsSource : Prop :=
  ∀ (s s' t t' : State) (a : Layout), s.regionsOk → s'.regionsOk → s.srcCount = s'.srcCount → 0 < s.srcCount →
    (∀ i < s.srcCount, s.srcByte i = s'.srcByte i) → s.dstRoom = s'.dstRoom → s.errCode = 0 → s'.errCode = 0 →
    exec (.huff a) s = .next t → exec (.huff a) s' = .next t' →
    t.ft = t'.ft ∧ t.tree = t'.tree ∧ t.ct = t'.ct ∧ t.errCode = t'.errCode ∧
    (∀ x, writesResult x (.huff a) = true → t.results.read x = t'.results.read x) ∧
    (t.errCode = 0 → ∀ k < t.results.outBytes.toNat, t.byteAt (s.dstAt + k) = t'.byteAt (s'.dstAt + k))

/-- HUFF never raises UnknownSymbol or EmptyTree (R540, corner cases). -/
def Obligations.HuffKnowsItsSymbols : Prop :=
  ∀ (s t : State) (a : Layout), s.errCode = 0 → exec (.huff a) s = .next t → t.errCode ≠ 3 ∧ t.errCode ≠ 2

/-- The size bound of R541: after a successful HUFF, OUT_BITS <= IN_BITS. -/
def Obligations.HuffNeverExpands : Prop :=
  ∀ (s t : State) (a : Layout), s.regionsOk → 0 < s.srcCount → s.errCode = 0 → exec (.huff a) s = .next t →
    t.errCode = 0 → t.results.outBits.toNat ≤ t.results.inBits.toNat

/-- RLE finds the maximal runs of the source and, where they fit, writes one 5-byte record for each, the value and then the
count little-endian, and the four result registers; no other byte of DMEM changes (R600, R601). -/
def Obligations.RleWritesTheRuns : Prop :=
  ∀ s : State, s.regionsOk → 0 < s.srcCount → ∃ runs, s.areRuns runs ∧
    (5 * runs.length ≤ s.dstRoom → ∃ t, exec .rle s = .next t ∧
      t = { s with
        phase := .idle, intrDone := true, mem := t.mem
        results := { s.results with
          inBits := BitVec.ofNat 32 (8 * s.srcCount), outBits := BitVec.ofNat 32 (40 * runs.length)
          outBytes := BitVec.ofNat 32 (5 * runs.length), runs := BitVec.ofNat 32 runs.length } } ∧
      (∀ j < runs.length, t.byteAt (s.dstAt + 5 * j) = (runs.getD j (0, 0)).1 ∧
        ∀ k < 4, t.byteAt (s.dstAt + 5 * j + 1 + k) = BitVec.ofNat 8 ((runs.getD j (0, 0)).2 / 2 ^ (8 * k))) ∧
      ∀ x, x < s.dstAt ∨ s.dstAt + 5 * runs.length ≤ x → t.byteAt x = s.byteAt x)

/-- R603: the records a successful RLE leaves in DMEM. Every count is at least 1, the counts sum to SRC_LEN, expanding them
gives back the source, neighbours differ, and RUNS is 1 plus the number of changes. -/
def Obligations.RleRecordsExpandToTheSource : Prop :=
  ∀ (s t : State) (runs : List (Byte × Nat)), s.regionsOk → 0 < s.srcCount → s.errCode = 0 → exec .rle s = .next t →
    t.errCode = 0 → runs = (List.range t.results.runs.toNat).map (fun j => t.recordAt s.dstAt j) →
    (∀ r ∈ runs, 1 ≤ r.2) ∧ (runs.map Prod.snd).sum = s.srcCount ∧
    expandRuns runs = (List.range s.srcCount).map s.srcByte ∧ List.IsChain (fun r q : Byte × Nat => r.1 ≠ q.1) runs ∧
    t.results.runs.toNat =
      1 + ((List.range s.srcCount).filter fun i => decide (1 ≤ i) && (s.srcByte i != s.srcByte (i - 1))).length

/-- BINX writes the 8 bits of each source byte, most significant first, in the command's layout; OUT_BITS is 8 * SRC_LEN for
every source, including the empty one (R700, R701). -/
def Obligations.BinxWritesTheBits : Prop :=
  ∀ (s : State) (a : Layout), s.regionsOk → bytesNeeded a (8 * s.srcCount) ≤ s.dstRoom →
    ∃ t, exec (.binx a) s = .next t ∧
      t = { s with
        phase := .idle, intrDone := true, mem := t.mem
        results := { s.results with
          inBits := BitVec.ofNat 32 (8 * s.srcCount), outBits := BitVec.ofNat 32 (8 * s.srcCount)
          outBytes := BitVec.ofNat 32 (bytesNeeded a (8 * s.srcCount)) } } ∧
      t.holdsStream a s.dstAt s.sourceBits ∧
      ∀ x, x < s.dstAt ∨ s.dstAt + bytesNeeded a (8 * s.srcCount) ≤ x → t.byteAt x = s.byteAt x

/-- R702: in the packed layout BINX copies the source bytes unchanged. -/
def Obligations.BinxPackedCopiesTheSource : Prop :=
  ∀ (s t : State), s.regionsOk → s.srcCount ≤ s.dstRoom → exec (.binx .packed) s = .next t →
    t.results.outBytes.toNat = s.srcCount ∧ ∀ j < s.srcCount, t.byteAt (s.dstAt + j) = s.srcByte j

/-- RATIO: {RES_HI, RES_LO}, read as a signed 64-bit number, is the quotient of 6553600 * (ARG0 - ARG1) by ARG0, truncated
toward zero (R800, R801), and lies between the bounds of R802. -/
def Obligations.RatioIsTheTruncatedQuotient : Prop :=
  ∀ s : State, s.snap.arg0 ≠ 0 → ∃ t, exec .ratio s = .next t ∧
    t = { s with
      phase := .idle, intrDone := true
      results := { s.results with resLo := t.results.resLo, resHi := t.results.resHi } } ∧
    (t.results.resHi ++ t.results.resLo).toInt =
      Int.tdiv (6553600 * ((s.snap.arg0.toNat : Int) - (s.snap.arg1.toNat : Int))) (s.snap.arg0.toNat : Int) ∧
    -28147497657958400 ≤ (t.results.resHi ++ t.results.resLo).toInt ∧
    (t.results.resHi ++ t.results.resLo).toInt ≤ 6553600

/-! ### The whole machine -/

/-- What any command leaves unchanged, whether it succeeds or fails: the host's registers and queue, the result registers
outside its column of R125, the stores and flags outside its row of R134, and every DMEM byte outside the region it may
write (R232). -/
def Obligations.CommandFrames : Prop :=
  ∀ (i : Instr) (s t : State), exec i s = .next t →
    SameSetting s t ∧ t.phase = .idle ∧ t.intrDone = true ∧
    (∀ x, writesResult x i = false → t.results.read x = s.results.read x) ∧
    (writesFt i = false → t.ft = s.ft) ∧ (writesTree i = false → t.tree = s.tree) ∧ (writesCt i = false → t.ct = s.ct) ∧
    ∀ x, ¬mayWriteByte i s.snap x → t.byteAt x = s.byteAt x

/-- R134: which command sets and clears the validity flags on success, and that on an error they change only for HUFF with
OutputOverflow, where all three are 1; and that both resets clear them. -/
def Obligations.ValidityFlagsFollowTheirWriters : Prop :=
  (∀ (i : Instr) (s t : State), s.errCode = 0 → exec i s = .next t →
    (t.errCode = 0 →
      t.ftValid = ftValidAfter i s.ftValid ∧ t.treeValid = treeValidAfter i s.treeValid ∧
      t.ctValid = ctValidAfter i s.ctValid) ∧
    (t.errCode = 7 → (∃ a, i = .huff a) → t.ftValid = true ∧ t.treeValid = true ∧ t.ctValid = true) ∧
    (t.errCode ≠ 0 → (t.errCode ≠ 7 ∨ ∀ a, i ≠ .huff a) → t.ft = s.ft ∧ t.tree = s.tree ∧ t.ct = s.ct)) ∧
  ∀ s : State, (s.softReset.ftValid = false ∧ s.softReset.treeValid = false ∧ s.softReset.ctValid = false) ∧
    s.hardReset.ftValid = false ∧ s.hardReset.treeValid = false ∧ s.hardReset.ctValid = false

/-- The invariant holds at reset, for every DMEM_SIZE, and no tree is held that is not well formed. -/
def Obligations.InvariantHoldsAtReset : Prop :=
  State.reset.Inv ∧ ∀ k : Fin 13, (State.resetOf k).Inv ∧ (State.resetOf k).treeWf

/-- Every step keeps the invariant: DMEM in its canonical form and within DMEM_SIZE, the tree within the node store (R132),
every code within the u8 LEN field (R133, R505), ERRCODE one the engine raises (R901, R904), the error registers 0 while BUSY,
and every register at its reset value while `rst_n` is 0. No step changes DMEM_SIZE. Every step but the completion of a raced
command also keeps a valid tree well formed (R132, R425). That a raced completion keeps to the legal codes and to trees and codes
that fit their stores is an inference (log entry 10). -/
def Obligations.EveryStepKeepsTheInvariant : Prop :=
  ∀ s t : State, s.Inv → step s = .next t → t.Inv ∧ t.memLog = s.memLog ∧
    (s.treeWf → (∀ r, s.completing r → r.raced = false) → t.treeWf)

/-! ### Register reads in IDLE -/

/-- What a host read of STATUS, the error registers and the result registers returns in IDLE: STATUS shows BUSY 0, ERR, and the
three validity flags in their bits and 0 above; the others read exactly (R120, R122, R125, R901). The read changes nothing but
the answer. -/
def Obligations.ReadsWhileIdle : Prop :=
  ∀ s : State, s.phase = .idle →
    (∃ v : Word, s.access ⟨0x010, false, 4, 0⟩ = { s with resp := some (.readOk v) } ∧ v.getLsbD 0 = false ∧
      (v.getLsbD 1 = true ↔ s.errCode ≠ 0) ∧ (v.getLsbD 2 = true ↔ ∃ ft, s.ft = some ft) ∧
      (v.getLsbD 3 = true ↔ ∃ h, s.tree = some h) ∧ (v.getLsbD 4 = true ↔ ∃ ct, s.ct = some ct) ∧ v.toNat < 32) ∧
    (∃ v : Word, s.access ⟨0x01C, false, 4, 0⟩ = { s with resp := some (.readOk v) } ∧ v.toNat = s.errCode.toNat) ∧
    s.access ⟨0x020, false, 4, 0⟩ = { s with resp := some (.readOk s.errInfo0) } ∧
    s.access ⟨0x024, false, 4, 0⟩ = { s with resp := some (.readOk s.errInfo1) } ∧
    s.access ⟨0x080, false, 4, 0⟩ = { s with resp := some (.readOk s.results.inBits) } ∧
    s.access ⟨0x084, false, 4, 0⟩ = { s with resp := some (.readOk s.results.outBits) } ∧
    s.access ⟨0x088, false, 4, 0⟩ = { s with resp := some (.readOk s.results.outBytes) } ∧
    s.access ⟨0x08C, false, 4, 0⟩ = { s with resp := some (.readOk s.results.runs) } ∧
    s.access ⟨0x090, false, 4, 0⟩ = { s with resp := some (.readOk s.results.nsym) } ∧
    s.access ⟨0x094, false, 4, 0⟩ = { s with resp := some (.readOk s.results.maxlen) } ∧
    s.access ⟨0x098, false, 4, 0⟩ = { s with resp := some (.readOk s.results.resLo) } ∧
    s.access ⟨0x09C, false, 4, 0⟩ = { s with resp := some (.readOk s.results.resHi) }
end

