-- ==== Sys2Proof/Laws/Bits.lean ====
section
/-! SUPPORT. Bit sequences in bytes: packing, expanding and the two layouts. -/

namespace Sys2Proof.Machine

theorem getD_map_range {α : Type} (f : Nat → α) (n i : Nat) (d : α) (h : i < n) :
    ((List.range n).map f).getD i d = f i := by
  simp [h]

theorem packByte_eq (bit : Nat → Bool) (w : Nat → Bool) (h : ∀ i < 8, bit i = w i) : packByte bit = packByte w := by
  simp [packByte, List.range, List.range.loop, h]

/-- Bit `7 - k` of a packed byte is the k-th bit given (R211). -/
theorem getLsbD_packByte (bit : Nat → Bool) (k : Nat) (h : k < 8) : (packByte bit).getLsbD (7 - k) = bit k := by
  have key : ∀ b0 b1 b2 b3 b4 b5 b6 b7 : Bool, ∀ k < 8,
      (packByte fun i => [b0, b1, b2, b3, b4, b5, b6, b7].getD i false).getLsbD (7 - k) =
        [b0, b1, b2, b3, b4, b5, b6, b7].getD k false := by
    decide +kernel
  have hw : packByte bit = packByte fun i =>
      [bit 0, bit 1, bit 2, bit 3, bit 4, bit 5, bit 6, bit 7].getD i false :=
    packByte_eq _ _ (by intro i hi; interval_cases i <;> rfl)
  rw [hw, key _ _ _ _ _ _ _ _ k h]
  interval_cases k <;> rfl

theorem length_expandByte (b : Byte) : (expandByte b).length = 8 := by simp [expandByte]

theorem getD_expandByte (b : Byte) (k : Nat) (h : k < 8) : (expandByte b).getD k false = b.getLsbD (7 - k) :=
  getD_map_range (fun i => b.getLsbD (7 - i)) 8 k false h

/-- Packing the bits of a byte gives the byte back. -/
theorem packByte_expandByte (b : Byte) : (packByte fun i => (expandByte b).getD i false) = b := by
  apply BitVec.eq_of_getLsbD_eq
  intro i hi
  have h := getLsbD_packByte (fun i => (expandByte b).getD i false) (7 - i) (by omega)
  rw [show 7 - (7 - i) = i by omega] at h
  rw [h, getD_expandByte _ _ (by omega)]
  congr 1; omega

theorem length_packBits (s : BitSeq) : (packBits s).length = (s.length + 7) / 8 := by simp [packBits]

theorem length_asciiBits (s : BitSeq) : (asciiBits s).length = s.length := by simp [asciiBits]

/-- The number of bytes written is `need` (R240, R241). -/
theorem length_layoutBytes (a : Layout) (s : BitSeq) : (layoutBytes a s).length = layoutSize a s.length := by
  cases a
  · exact length_packBits s
  · exact length_asciiBits s

/-- Byte `j` of the packed layout. -/
theorem getD_packBits (s : BitSeq) (j : Nat) (h : j < (s.length + 7) / 8) :
    (packBits s).getD j 0 = packByte fun i => bitAt s (8 * j + i) :=
  getD_map_range _ _ _ _ h

/-- Bit `k` of the stream is in byte `k div 8`, at position `7 - (k mod 8)`; past the end it is 0 (R240). -/
theorem getLsbD_packBits (s : BitSeq) (k : Nat) (h : k < 8 * ((s.length + 7) / 8)) :
    ((packBits s).getD (k / 8) 0).getLsbD (7 - k % 8) = s.getD k false := by
  rw [getD_packBits s (k / 8) (by omega), getLsbD_packByte _ _ (by omega)]
  simp only [bitAt]
  congr 1; omega

/-- Byte `k` of the ASCII layout (R241). -/
theorem getD_asciiBits (s : BitSeq) (k : Nat) (h : k < s.length) :
    (asciiBits s).getD k 0 = if s.getD k false then 0x31 else 0x30 := by
  simp [asciiBits, h]

end Sys2Proof.Machine
end

