-- ==== Sys2Proof/Laws/Tree.lean ====
section
/-! SUPPORT. The tree builder: what `takeMin` removes, that `mergeAll` follows the loop of R422, and what every outcome of that
loop has in common. -/

namespace Sys2Proof.Machine

/-! ### Symbols and tables -/

theorem mem_allSymbols (b : Byte) : b ∈ allSymbols :=
  List.mem_map.mpr ⟨b.toNat, List.mem_range.mpr b.isLt, by simp⟩

theorem allSymbols_nodup : allSymbols.Nodup := by
  refine List.Nodup.map_on ?_ List.nodup_range
  intro x hx y hy h
  have := congrArg BitVec.toNat h
  simp only [BitVec.toNat_ofNat, List.mem_range] at this hx hy
  omega

@[simp] theorem Table.entry_tab {α : Type} (f : Byte → α) (b : Byte) : (Table.tab f).entry b = f b := by
  simp [Table.entry, Table.tab]

theorem Table.ext_entry {α : Type} {t u : Table α} (h : ∀ b : Byte, t.entry b = u.entry b) : t = u := by
  apply Vector.ext
  intro i hi
  simpa [Table.entry, Nat.mod_eq_of_lt hi] using h (BitVec.ofNat 8 i)

theorem Table.entry_put {α : Type} (t : Table α) (b c : Byte) (v : α) :
    (t.put b v).entry c = if b = c then v else t.entry c := by
  simp only [Table.entry, Table.put, Vector.getElem_set]
  by_cases h : b = c
  · simp [h]
  · have h2 : ¬b.toNat = c.toNat := fun e => h (BitVec.eq_of_toNat_eq e)
    simp [h, h2]

theorem replicate_entry (b : Byte) : Table.entry (Vector.replicate 256 (0 : Word)) b = 0 := by
  simp [Table.entry]

/-! ### Removing the least element -/

theorem HTree.keyLe_iff (x y : HTree) : x.keyLe y = true ↔ ¬KeyLt y x := by
  simp only [HTree.keyLe, KeyLt, Bool.or_eq_true, Bool.and_eq_true, decide_eq_true_eq, beq_iff_eq]
  omega

theorem KeyLt.trans_le {x y z : HTree} (h : ¬KeyLt y x) (g : ¬KeyLt z y) : ¬KeyLt z x := by
  simp only [KeyLt] at *
  omega

/-- `takeMin` takes one element away and keeps the others. -/
theorem takeMin_perm (x : HTree) (xs : List HTree) : (x :: xs).Perm ((takeMin x xs).1 :: (takeMin x xs).2) := by
  induction xs generalizing x with
  | nil => exact List.Perm.refl _
  | cons y ys ih =>
    simp only [takeMin]
    split
    · exact List.Perm.refl _
    · exact ((ih y).cons x).trans (List.Perm.swap _ _ _)

theorem length_takeMin (x : HTree) (xs : List HTree) : (takeMin x xs).2.length = xs.length := by
  have := (takeMin_perm x xs).length_eq
  simpa using this.symm

/-- The element taken is a least one (R421). -/
theorem takeMin_least (x : HTree) (xs : List HTree) : ∀ z ∈ (takeMin x xs).2, ¬KeyLt z (takeMin x xs).1 := by
  induction xs generalizing x with
  | nil => simp [takeMin]
  | cons y ys ih =>
    have hp := takeMin_perm y ys
    have hi := ih y
    simp only [takeMin]
    generalize takeMin y ys = r at hp hi ⊢
    split
    · rename_i hle
      rw [HTree.keyLe_iff] at hle
      intro z hz
      rcases List.mem_cons.mp (hp.subset hz) with rfl | hz'
      · exact hle
      · exact KeyLt.trans_le hle (hi z hz')
    · rename_i hle
      rw [HTree.keyLe_iff, not_not] at hle
      intro z hz
      rcases List.mem_cons.mp hz with rfl | hz'
      · simp only [KeyLt] at hle ⊢; omega
      · exact hi z hz'

/-! ### The loop of R422 -/

/-- With distinct sequence numbers, an element that no other precedes is strictly least. -/
theorem keyLt_of_least {x z : HTree} (h : ¬KeyLt z x) (hne : x.seq ≠ z.seq) : KeyLt x z := by
  simp only [KeyLt] at *
  omega

/-- `mergeAll` follows the loop of R422: sequence numbers are distinct and below the next one (R421). -/
theorem mergeAll_huffman (fuel k : Nat) (t : HTree) (live : List HTree) (hl : live.length = fuel)
    (hn : ((t :: live).map HTree.seq).Nodup) (hs : ∀ z ∈ t :: live, z.seq < 256 + k) :
    Huffman k (t :: live) (mergeAll fuel k t live) := by
  induction fuel generalizing k t live with
  | zero =>
    obtain rfl := List.length_eq_zero_iff.mp hl
    exact .root k t
  | succ fuel ih =>
    have hp := takeMin_perm t live
    have hlen := length_takeMin t live
    have hleast := takeMin_least t live
    simp only [mergeAll]
    generalize takeMin t live = r at hp hlen hleast
    obtain ⟨x, rest⟩ := r
    cases rest with
    | nil => simp at hlen; omega
    | cons u us =>
      have hp' := takeMin_perm u us
      have hlen' := length_takeMin u us
      have hleast' := takeMin_least u us
      simp only
      generalize takeMin u us = q at hp' hlen' hleast'
      obtain ⟨y, rest⟩ := q
      simp only at hp hp' hlen hlen' hleast hleast' ⊢
      have hperm : (t :: live).Perm (x :: y :: rest) := hp.trans (hp'.cons x)
      have hnod : ((x :: y :: rest).map HTree.seq).Nodup := (hperm.map HTree.seq).nodup_iff.mp hn
      simp only [List.map_cons, List.nodup_cons, List.mem_cons, List.mem_map, not_or, not_exists, not_and] at hnod
      have hseq : ∀ z ∈ x :: y :: rest, z.seq < 256 + k := fun z hz => hs z (hperm.symm.subset hz)
      refine .round k _ x y rest _ hperm ?_ ?_ ?_
      · intro z hz
        refine keyLt_of_least (hleast z (hp'.symm.subset hz)) ?_
        rcases List.mem_cons.mp hz with rfl | hz
        · exact hnod.1.1
        · exact fun e => hnod.1.2 z hz e.symm
      · intro z hz
        exact keyLt_of_least (hleast' z hz) fun e => hnod.2.1 z hz e.symm
      · refine ih (k + 1) (merge k x y) rest (by simp only [List.length_cons] at hlen; omega) ?_ ?_
        · rw [List.map_cons, List.nodup_cons]
          refine ⟨?_, hnod.2.2⟩
          simp only [List.mem_map, not_exists, not_and]
          intro z hz e
          have := hseq z (by simp [hz])
          simp only [merge, HTree.seq] at e
          rw [HTree.seq.eq_def] at this
          simp only [HTree.seq] at *
          omega
        · intro z hz
          rcases List.mem_cons.mp hz with rfl | hz
          · simp [merge, HTree.seq]
          · have := hseq z (by simp [hz]); omega

/-- The loop has one outcome: every minimum is unique (R421). -/
theorem Huffman.unique {k : Nat} {live live' : List HTree} {h h' : HTree} (hh : Huffman k live h)
    (hh' : Huffman k live' h') (hp : live.Perm live') : h = h' := by
  induction hh generalizing live' with
  | root k t =>
    have hl : live' = [t] := List.perm_singleton.mp hp.symm
    subst hl
    cases hh' with
    | root => rfl
    | round _ _ x y rest _ hperm => simpa using hperm.length_eq
  | round k live x y rest t hperm hfirst hsecond _ ih =>
    cases hh' with
    | root => simpa using (hperm.symm.trans hp).length_eq
    | round _ _ x' y' rest' _ hperm' hfirst' hsecond' hgo' =>
      have hxy : (x :: y :: rest).Perm (x' :: y' :: rest') := hperm.symm.trans (hp.trans hperm')
      have hx : x = x' := by
        by_contra hne
        have h1 : x' ∈ y :: rest :=
          (List.mem_cons.mp (hxy.symm.subset (List.mem_cons_self ..))).resolve_left fun e => hne e.symm
        have h2 : x ∈ y' :: rest' := (List.mem_cons.mp (hxy.subset (List.mem_cons_self ..))).resolve_left hne
        have a := hfirst x' h1
        have b := hfirst' x h2
        simp only [KeyLt] at a b; omega
      subst hx
      have hyr := (List.perm_cons x).mp hxy
      have hy : y = y' := by
        by_contra hne
        have h1 : y' ∈ rest :=
          (List.mem_cons.mp (hyr.symm.subset (List.mem_cons_self ..))).resolve_left fun e => hne e.symm
        have h2 : y ∈ rest' := (List.mem_cons.mp (hyr.subset (List.mem_cons_self ..))).resolve_left hne
        have a := hsecond y' h1
        have b := hsecond' y h2
        simp only [KeyLt] at a b; omega
      subst hy
      exact ih hgo' (((List.perm_cons y).mp hyr).cons _)

/-- Weights stay sums (R132). -/
theorem Huffman.sumsOk {k : Nat} {live : List HTree} {h : HTree} (hh : Huffman k live h)
    (hs : ∀ t ∈ live, t.sumsOk = true) : h.sumsOk = true := by
  induction hh with
  | root k t => exact hs t (by simp)
  | round k live x y rest t hperm _ _ _ ih =>
    have hs' : ∀ t ∈ x :: y :: rest, t.sumsOk = true := fun t ht => hs t (hperm.symm.subset ht)
    refine ih fun t ht => ?_
    rcases List.mem_cons.mp ht with rfl | ht
    · simp [HTree.sumsOk, HTree.weight, hs' x (by simp), hs' y (by simp), Nat.add_comm]
    · exact hs' t (by simp [ht])

/-- The leaves are those of the live set (R425). -/
theorem Huffman.symbols_perm {k : Nat} {live : List HTree} {h : HTree} (hh : Huffman k live h) :
    h.symbols.Perm (live.flatMap HTree.symbols) := by
  induction hh with
  | root k t => simp
  | round k live x y rest t hperm _ _ _ ih =>
    refine ih.trans (List.Perm.trans ?_ (hperm.flatMap_right HTree.symbols).symm)
    simp only [List.flatMap_cons, HTree.symbols, ← List.append_assoc]
    exact List.perm_append_comm.append_right _

/-- The root's weight is the sum of the weights (R425). -/
theorem Huffman.weight_eq {k : Nat} {live : List HTree} {h : HTree} (hh : Huffman k live h) :
    h.weight = (live.map HTree.weight).sum := by
  induction hh with
  | root k t => simp
  | round k live x y rest t hperm _ _ _ ih =>
    rw [ih, (hperm.map HTree.weight).sum_eq]
    simp [HTree.weight, Nat.add_assoc]

/-- Each round adds one node (R425). -/
theorem Huffman.size_eq {k : Nat} {live : List HTree} {h : HTree} (hh : Huffman k live h) :
    h.size + 1 = (live.map fun t => t.size + 1).sum := by
  induction hh with
  | root k t => simp
  | round k live x y rest t hperm _ _ _ ih =>
    rw [ih, (hperm.map fun t => t.size + 1).sum_eq]
    simp [HTree.size]
    omega

/-! ### The leaves of a table -/

theorem mem_leavesOf (ft : FreqTable) (t : HTree) :
    t ∈ leavesOf ft ↔ ∃ b : Byte, ft.entry b ≠ 0 ∧ t = .leaf b (ft.entry b).toNat b.toNat := by
  simp only [leavesOf, List.mem_filterMap]
  constructor
  · rintro ⟨b, -, hb⟩
    refine ⟨b, ?_⟩
    split at hb <;> simp_all
  · rintro ⟨b, hb, rfl⟩
    exact ⟨b, mem_allSymbols b, if_neg hb⟩

theorem leavesOf_eq (ft : FreqTable) : leavesOf ft =
    (allSymbols.filter fun b => ft.entry b != 0).map fun b => .leaf b (ft.entry b).toNat b.toNat := by
  unfold leavesOf
  induction allSymbols with
  | nil => rfl
  | cons b bs ih =>
    rw [List.filterMap_cons, List.filter_cons, ih]
    by_cases h : ft.entry b = 0
    · rw [if_pos h, h]; rfl
    · rw [if_neg h, if_pos (bne_iff_ne.mpr h)]; rfl

theorem leavesOf_seq_nodup (ft : FreqTable) : ((leavesOf ft).map HTree.seq).Nodup := by
  rw [leavesOf_eq, List.map_map]
  exact (allSymbols_nodup.filter _).map_on fun b _ c _ h => BitVec.eq_of_toNat_eq h

theorem leavesOf_symbols (ft : FreqTable) :
    (leavesOf ft).flatMap HTree.symbols = allSymbols.filter fun b => ft.entry b != 0 := by
  rw [leavesOf_eq]
  induction allSymbols.filter fun b => ft.entry b != 0 with
  | nil => rfl
  | cons b bs ih => simp only [List.map_cons, List.flatMap_cons, HTree.symbols, ih]; rfl

theorem length_leavesOf (ft : FreqTable) : (leavesOf ft).length = distinct ft := by
  rw [leavesOf_eq, List.length_map, distinct, List.countP_eq_length_filter]

/-- The model's leaves are the leaf set of R422. -/
theorem leavesOf_isLeafSet (ft : FreqTable) : IsLeafSet ft (leavesOf ft) :=
  ⟨(leavesOf_seq_nodup ft).of_map _, mem_leavesOf ft⟩

theorem IsLeafSet.perm {ft : FreqTable} {l l' : List HTree} (h : IsLeafSet ft l) (h' : IsLeafSet ft l') : l.Perm l' :=
  (List.perm_ext_iff_of_nodup h.1 h'.1).mpr fun t => (h.2 t).trans (h'.2 t).symm

theorem symbolsIn_eq (ft : FreqTable) : symbolsIn ft = distinct ft := by
  rw [symbolsIn, distinct, allSymbols, List.countP_map, List.countP_eq_length_filter]
  congr 2
  funext n
  simp [bne, BEq.beq]

theorem distinct_eq_zero (ft : FreqTable) : distinct ft = 0 ↔ ft = Vector.replicate 256 0 := by
  simp only [distinct, List.countP_eq_zero, bne_iff_ne, ne_eq, not_not]
  constructor
  · intro h
    apply Table.ext_entry
    intro b
    rw [h b (mem_allSymbols b), replicate_entry]
  · rintro rfl b -
    exact replicate_entry b

theorem distinct_le (ft : FreqTable) : distinct ft ≤ 256 := by
  have := List.countP_le_length (p := fun b => ft.entry b != 0) (l := allSymbols)
  simpa [distinct, allSymbols] using this

/-- `build_tree` follows the loop of R422 from the leaves of the table. -/
theorem buildTree_huffman {ft : FreqTable} (h : distinct ft ≠ 0) :
    ∃ t, buildTree ft = some t ∧ Huffman 0 (leavesOf ft) t := by
  unfold buildTree
  have hl := length_leavesOf ft
  have hn := leavesOf_seq_nodup ft
  have hm := mem_leavesOf ft
  generalize leavesOf ft = ls at hl hn hm
  cases ls with
  | nil => simp at hl; omega
  | cons l ls =>
    refine ⟨_, rfl, mergeAll_huffman _ _ _ _ rfl hn ?_⟩
    intro z hz
    obtain ⟨b, -, rfl⟩ := (hm z).mp hz
    have := b.isLt
    simp only [HTree.seq]; omega

/-- Every tree built is well formed, and its leaves are the symbols with a count (R425). -/
theorem Huffman.of_leaves {ft : FreqTable} {h : HTree} (hh : Huffman 0 (leavesOf ft) h) :
    h.wf = true ∧ h.symbols.Perm (allSymbols.filter fun b => ft.entry b != 0) := by
  have hp := hh.symbols_perm
  rw [leavesOf_symbols] at hp
  refine ⟨?_, hp⟩
  have hs : h.sumsOk = true := by
    refine hh.sumsOk fun t ht => ?_
    obtain ⟨b, -, rfl⟩ := (mem_leavesOf ft t).mp ht
    rfl
  simp [HTree.wf, hs, hp.nodup_iff.mpr (allSymbols_nodup.filter _)]

theorem leavesOf_weight (ft : FreqTable) :
    ((leavesOf ft).map HTree.weight).sum = (allSymbols.map fun b => (ft.entry b).toNat).sum := by
  rw [leavesOf_eq, List.map_map]
  induction allSymbols with
  | nil => rfl
  | cons b bs ih =>
    rw [List.filter_cons]
    by_cases h : ft.entry b = 0
    · rw [h]; simpa [h] using ih
    · rw [if_pos (bne_iff_ne.mpr h), List.map_cons, List.sum_cons, ih]; rfl

end Sys2Proof.Machine
end

