-- ==== Sys2Proof/Laws/Codes.lean ====
section
/-! SUPPORT. The code assigner: codes are paths, the code table of a tree, the prefix property, the length bound and the
Kraft sum. -/

namespace Sys2Proof.Machine

/-! ### Paths -/

theorem HTree.symbols_length_pos (h : HTree) : 1 ≤ h.symbols.length := by
  induction h with
  | leaf => simp [HTree.symbols]
  | node _ _ l r ihl _ => simp only [HTree.symbols, List.length_append]; omega

/-- The walk records exactly the paths to the leaves, behind the path so far (R501). -/
theorem HTree.mem_walk (h : HTree) (p : BitSeq) (b : Byte) (q : BitSeq) :
    (b, q) ∈ h.walk p ↔ ∃ r, q = p ++ r ∧ h.leafAt r = some b := by
  induction h generalizing p with
  | leaf s w n =>
    simp only [HTree.walk, List.mem_singleton, Prod.mk.injEq]
    constructor
    · rintro ⟨rfl, rfl⟩
      exact ⟨[], by simp, rfl⟩
    · rintro ⟨r, rfl, hr⟩
      cases r with
      | nil => simpa [HTree.leafAt, eq_comm] using hr
      | cons => simp [HTree.leafAt] at hr
  | node w n l r ihl ihr =>
    simp only [HTree.walk, List.mem_append, ihl, ihr]
    constructor
    · rintro (⟨x, rfl, hx⟩ | ⟨x, rfl, hx⟩)
      · exact ⟨false :: x, by simp, by simpa [HTree.leafAt] using hx⟩
      · exact ⟨true :: x, by simp, by simpa [HTree.leafAt] using hx⟩
    · rintro ⟨x, rfl, hx⟩
      cases x with
      | nil => simp [HTree.leafAt] at hx
      | cons c x =>
        cases c
        · exact .inl ⟨x, by simp, by simpa [HTree.leafAt] using hx⟩
        · exact .inr ⟨x, by simp, by simpa [HTree.leafAt] using hx⟩

theorem HTree.walk_symbols (h : HTree) (p : BitSeq) : (h.walk p).map Prod.fst = h.symbols := by
  induction h generalizing p with
  | leaf => rfl
  | node w n l r ihl ihr => simp [HTree.walk, HTree.symbols, ihl, ihr]

theorem HTree.leafAt_mem {h : HTree} {p : BitSeq} {b : Byte} (hp : h.leafAt p = some b) : b ∈ h.symbols := by
  rw [← h.walk_symbols []]
  exact List.mem_map.mpr ⟨(b, p), (h.mem_walk [] b p).mpr ⟨p, by simp, hp⟩, rfl⟩

/-- No path to a leaf is a proper beginning of another (R502). -/
theorem HTree.leafAt_of_prefix {h : HTree} {p q : BitSeq} {b c : Byte} (hp : h.leafAt p = some b)
    (hq : h.leafAt q = some c) (hpq : p <+: q) : b = c := by
  induction h generalizing p q with
  | leaf s w n =>
    cases p <;> cases q <;> simp_all [HTree.leafAt]
  | node w n l r ihl ihr =>
    cases p with
    | nil => simp [HTree.leafAt] at hp
    | cons x p =>
      cases q with
      | nil => simp [HTree.leafAt] at hq
      | cons y q =>
        obtain ⟨rfl, hpq'⟩ := List.cons_prefix_cons.mp hpq
        cases x
        · exact ihl (p := p) (q := q) (by simpa [HTree.leafAt] using hp) (by simpa [HTree.leafAt] using hq) hpq'
        · exact ihr (p := p) (q := q) (by simpa [HTree.leafAt] using hp) (by simpa [HTree.leafAt] using hq) hpq'

/-- A path to a leaf is shorter than the number of leaves (R505). -/
theorem HTree.leafAt_length {h : HTree} {p : BitSeq} {b : Byte} (hp : h.leafAt p = some b) :
    p.length + 1 ≤ h.symbols.length := by
  induction h generalizing p with
  | leaf s w n => cases p <;> simp_all [HTree.leafAt, HTree.symbols]
  | node w n l r ihl ihr =>
    have h1 := l.symbols_length_pos
    have h2 := r.symbols_length_pos
    cases p with
    | nil => simp [HTree.leafAt] at hp
    | cons x p =>
      simp only [HTree.symbols, List.length_append, List.length_cons]
      cases x
      · have := ihl (by simpa [HTree.leafAt] using hp); omega
      · have := ihr (by simpa [HTree.leafAt] using hp); omega

theorem symbols_length_le {l : List Byte} (h : l.Nodup) : l.length ≤ 256 := by
  have := (h.subperm fun b _ => mem_allSymbols b).length_le
  simpa [allSymbols] using this

theorem HTree.wf_nodup {h : HTree} (hw : h.wf = true) : h.symbols.Nodup := by
  simp only [HTree.wf, Bool.and_eq_true, decide_eq_true_eq] at hw
  exact hw.2

/-! ### The code table of a tree -/

theorem foldl_put_other (l : List (Byte × BitSeq)) (t : CodeTable) (b : Byte) (h : b ∉ l.map Prod.fst) :
    (l.foldl (fun ct e => ct.put e.1 e.2) t).entry b = t.entry b := by
  induction l generalizing t with
  | nil => rfl
  | cons e l ih =>
    simp only [List.map_cons, List.mem_cons, not_or] at h
    rw [List.foldl_cons, ih _ h.2, Table.entry_put, if_neg (Ne.symm h.1)]

theorem foldl_put_mem (l : List (Byte × BitSeq)) (t : CodeTable) (b : Byte) (q : BitSeq) (hn : (l.map Prod.fst).Nodup)
    (h : (b, q) ∈ l) : (l.foldl (fun ct e => ct.put e.1 e.2) t).entry b = q := by
  induction l generalizing t with
  | nil => simp at h
  | cons e l ih =>
    rw [List.map_cons, List.nodup_cons] at hn
    rw [List.foldl_cons]
    rcases List.mem_cons.mp h with rfl | h
    · rw [foldl_put_other _ _ _ hn.1, Table.entry_put, if_pos rfl]
    · exact ih _ hn.2 h

theorem HTree.codes_symbols (h : HTree) : h.codes.map Prod.fst = h.symbols := by
  cases h with
  | leaf => rfl
  | node w q l r => exact HTree.walk_symbols _ _

theorem HTree.mem_codes (h : HTree) (b : Byte) (p : BitSeq) : (b, p) ∈ h.codes ↔ h.hasCode b p := by
  cases h with
  | leaf s w q => simp [HTree.codes, HTree.hasCode]
  | node w q l r =>
    simp only [HTree.codes, HTree.hasCode]
    rw [HTree.mem_walk]
    simp

/-- What a walk leaves in an entry: the path of the last leaf of that symbol, in pre-order (R500). -/
theorem HTree.foldl_walk (h : HTree) (p : BitSeq) (t : CodeTable) (b : Byte) (hb : b ∈ h.symbols) :
    ∃ q, ((h.walk p).foldl (fun ct e => ct.put e.1 e.2) t).entry b = p ++ q ∧ h.leafAt q = some b ∧
      ∀ q', h.leafAt q' = some b → q' = q ∨ PathBefore q' q := by
  induction h generalizing p t with
  | leaf s w n =>
    obtain rfl : b = s := by simpa [HTree.symbols] using hb
    refine ⟨[], by simp [HTree.walk, Table.entry_put], rfl, fun q' hq => ?_⟩
    cases q' with
    | nil => exact .inl rfl
    | cons => simp [HTree.leafAt] at hq
  | node w n l r ihl ihr =>
    rw [HTree.walk, List.foldl_append]
    have grow : ∀ (c : Bool) {q' q : BitSeq}, q' = q ∨ PathBefore q' q → c :: q' = c :: q ∨ PathBefore (c :: q') (c :: q) := by
      rintro c q' q (rfl | ⟨x, y, z, rfl, rfl⟩)
      · exact .inl rfl
      · exact .inr ⟨c :: x, y, z, rfl, rfl⟩
    by_cases hr : b ∈ r.symbols
    · obtain ⟨q, h1, h2, h3⟩ := ihr (p ++ [true]) _ hr
      refine ⟨true :: q, by rw [h1, List.append_assoc]; rfl, by simpa [HTree.leafAt] using h2, fun q' hq => ?_⟩
      cases q' with
      | nil => simp [HTree.leafAt] at hq
      | cons c q' =>
        cases c
        · exact .inr ⟨[], q', q, rfl, rfl⟩
        · exact grow true (h3 q' (by simpa [HTree.leafAt] using hq))
    · have hl : b ∈ l.symbols := by simpa [HTree.symbols, hr] using hb
      obtain ⟨q, h1, h2, h3⟩ := ihl (p ++ [false]) t hl
      refine ⟨false :: q, ?_, by simpa [HTree.leafAt] using h2, fun q' hq => ?_⟩
      · rw [foldl_put_other _ _ _ (by rwa [r.walk_symbols]), h1, List.append_assoc]; rfl
      · cases q' with
        | nil => simp [HTree.leafAt] at hq
        | cons c q' =>
          cases c
          · exact grow false (h3 q' (by simpa [HTree.leafAt] using hq))
          · exact absurd (HTree.leafAt_mem (h := r) (p := q') (by simpa [HTree.leafAt] using hq)) hr

/-- `assignCodes` gives the code table of the tree (R500), and where several leaves have one symbol, the last one's. -/
theorem assignCodes_spec (h : HTree) : IsCodeTable h (assignCodes h) ∧
    ∀ b p, h.hasCode b p → p = (assignCodes h).entry b ∨ PathBefore p ((assignCodes h).entry b) := by
  have hnone : ∀ b, b ∉ h.symbols → (assignCodes h).entry b = [] := by
    intro b hb
    rw [← h.codes_symbols] at hb
    rw [assignCodes, foldl_put_other _ _ _ hb, CodeTable.empty, Table.entry_tab]
  cases h with
  | leaf s w n =>
    have he : (assignCodes (.leaf s w n)).entry s = [false] := by simp [assignCodes, HTree.codes, Table.entry_put]
    refine ⟨fun b => ⟨fun hb => ?_, hnone b⟩, ?_⟩
    · obtain rfl : b = s := by simpa [HTree.symbols] using hb
      exact ⟨rfl, he⟩
    · rintro b p ⟨rfl, rfl⟩
      exact .inl he.symm
  | node w n l r =>
    have key : ∀ b ∈ (HTree.node w n l r).symbols, _ := fun b hb =>
      (HTree.node w n l r).foldl_walk [] CodeTable.empty b hb
    simp only [List.nil_append] at key
    refine ⟨fun b => ⟨fun hb => ?_, hnone b⟩, fun b p hp => ?_⟩
    · obtain ⟨q, h1, h2, -⟩ := key b hb
      rw [assignCodes, HTree.codes, h1]
      exact h2
    · obtain ⟨q, h1, -, h3⟩ := key b (HTree.leafAt_mem hp)
      rw [assignCodes, HTree.codes, h1]
      exact h3 p hp

theorem assignCodes_isCodeTable (h : HTree) : IsCodeTable h (assignCodes h) := (assignCodes_spec h).1

/-- A tree of `n` leaves has `2 n - 1` nodes (R425). -/
theorem HTree.size_eq (h : HTree) : h.size + 1 = 2 * h.symbols.length := by
  induction h with
  | leaf => rfl
  | node w q l r ihl ihr => simp only [HTree.size, HTree.symbols, List.length_append]; omega

/-- A code has at least one bit, and fewer than the tree has leaves, or one (R503, R505). -/
theorem HTree.hasCode_length {h : HTree} {b : Byte} {p : BitSeq} (hp : h.hasCode b p) :
    1 ≤ p.length ∧ p.length ≤ max 1 (h.symbols.length - 1) := by
  cases h with
  | leaf s w q => obtain ⟨-, rfl⟩ := hp; simp
  | node w q l r =>
    have := HTree.leafAt_length hp
    cases p with
    | nil => simp [HTree.hasCode, HTree.leafAt] at hp
    | cons x p => simp only [List.length_cons] at this ⊢; omega

theorem IsCodeTable.entry_eq_nil {h : HTree} {ct : CodeTable} (hc : IsCodeTable h ct) (b : Byte) :
    ct.entry b = [] ↔ b ∉ h.symbols := by
  constructor
  · intro he hb
    have := HTree.hasCode_length ((hc b).1 hb)
    simp [he] at this
  · exact (hc b).2

/-- A tree that fits the node store has codes of at most 255 bits (R505). -/
theorem IsCodeTable.length_le {h : HTree} (hs : h.size ≤ Config.maxNodes) {ct : CodeTable} (hc : IsCodeTable h ct) (b : Byte) :
    (ct.entry b).length ≤ 255 := by
  have := h.size_eq
  simp only [Config.maxNodes] at hs
  by_cases hb : b ∈ h.symbols
  · have := (HTree.hasCode_length ((hc b).1 hb)).2; omega
  · simp [(hc b).2 hb]

/-- A well-formed tree fits the node store: it has at most 256 leaves (R8, R425). -/
theorem HTree.size_le {h : HTree} (hw : h.wf = true) : h.size ≤ Config.maxNodes := by
  have := symbols_length_le (HTree.wf_nodup hw)
  have := h.size_eq
  simp only [Config.maxNodes]; omega

/-- The present symbols, in symbol order, are the leaves. -/
theorem filter_mem_perm {l : List Byte} (h : l.Nodup) : (allSymbols.filter fun b => decide (b ∈ l)).Perm l :=
  (List.perm_ext_iff_of_nodup (allSymbols_nodup.filter _) h).mpr fun b => by simp [mem_allSymbols]

/-- NSYM is the number of leaves, where each symbol is at one leaf (R504). -/
theorem IsCodeTable.nsym_eq {h : HTree} (hn : h.symbols.Nodup) {ct : CodeTable} (hc : IsCodeTable h ct) :
    ct.nsym = h.symbols.length := by
  rw [CodeTable.nsym, List.countP_eq_length_filter, ← (filter_mem_perm hn).length_eq]
  congr 2
  funext b
  have := hc.entry_eq_nil b
  by_cases hb : b ∈ h.symbols <;> simp_all

theorem foldl_max_spec (f : Byte → Nat) (l : List Byte) (m : Nat) :
    m ≤ l.foldl (fun m b => max m (f b)) m ∧ (∀ b ∈ l, f b ≤ l.foldl (fun m b => max m (f b)) m) ∧
      (l.foldl (fun m b => max m (f b)) m = m ∨ ∃ b ∈ l, l.foldl (fun m b => max m (f b)) m = f b) := by
  induction l generalizing m with
  | nil => simp
  | cons c l ih =>
    obtain ⟨h1, h2, h3⟩ := ih (max m (f c))
    simp only [List.foldl_cons, List.mem_cons]
    refine ⟨by omega, ?_, ?_⟩
    · rintro b (rfl | hb)
      · omega
      · exact h2 b hb
    · rcases h3 with h3 | ⟨b, hb, h3⟩
      · rw [h3]
        rcases Nat.le_total m (f c) with h | h
        · exact .inr ⟨c, .inl rfl, by omega⟩
        · exact .inl (by omega)
      · exact .inr ⟨b, .inr hb, h3⟩

/-- MAXLEN bounds every length and is reached (R500). -/
theorem CodeTable.maxlen_spec (ct : CodeTable) :
    (∀ b : Byte, (ct.entry b).length ≤ ct.maxlen) ∧ ∃ b : Byte, (ct.entry b).length = ct.maxlen := by
  obtain ⟨-, h2, h3⟩ := foldl_max_spec (fun b => (ct.entry b).length) allSymbols 0
  refine ⟨fun b => h2 b (mem_allSymbols b), ?_⟩
  rcases h3 with h3 | ⟨b, -, h3⟩
  · refine ⟨0, Nat.le_antisymm (h2 0 (mem_allSymbols 0)) ?_⟩
    rw [CodeTable.maxlen, h3]; exact Nat.zero_le _
  · exact ⟨b, h3.symm⟩

/-! ### The Kraft sum -/

theorem HTree.walk_length_le {h : HTree} {p : BitSeq} {e : Byte × BitSeq} (he : e ∈ h.walk p) :
    e.2.length + 1 ≤ p.length + h.symbols.length := by
  obtain ⟨r, hq, hr⟩ := (h.mem_walk p e.1 e.2).mp he
  have := HTree.leafAt_length hr
  rw [hq, List.length_append]; omega

/-- The codes below a node at depth `d` take the share 2^(-d) (R502). -/
theorem HTree.kraft (h : HTree) (p : BitSeq) (n : Nat) (hn : p.length + h.symbols.length ≤ n + 1) :
    ((h.walk p).map fun e => 2 ^ (n - e.2.length)).sum = 2 ^ (n - p.length) := by
  induction h generalizing p with
  | leaf => simp [HTree.walk]
  | node w q l r ihl ihr =>
    have h1 := l.symbols_length_pos
    have h2 := r.symbols_length_pos
    simp only [HTree.symbols, List.length_append] at hn
    rw [HTree.walk, List.map_append, List.sum_append, ihl _ (by simp; omega), ihr _ (by simp; omega)]
    simp only [List.length_append, List.length_cons, List.length_nil, Nat.zero_add]
    rw [show n - p.length = (n - (p.length + 1)) + 1 by omega, Nat.pow_succ]
    omega

/-- A sum over the symbols that a table of codes gives, taken over the tree's own list of codes. -/
theorem IsCodeTable.sum_eq {h : HTree} (hn : h.symbols.Nodup) {ct : CodeTable} (hc : IsCodeTable h ct) (f : Byte → BitSeq → Nat)
    (hf : ∀ b, f b [] = 0) : (allSymbols.map fun b => f b (ct.entry b)).sum = (h.codes.map fun e => f e.1 e.2).sum := by
  have h1 : (h.codes.map fun e => f e.1 e.2) = h.symbols.map fun b => f b (ct.entry b) := by
    rw [← h.codes_symbols, List.map_map]
    apply List.map_congr_left
    rintro ⟨b, p⟩ he
    have hcode := (h.mem_codes b p).mp he
    have hb : b ∈ h.symbols := by
      rw [← h.codes_symbols]; exact List.mem_map.mpr ⟨(b, p), he, rfl⟩
    have h2 := (h.mem_codes _ _).mpr ((hc b).1 hb)
    have hnd : (h.codes.map Prod.fst).Nodup := by rw [h.codes_symbols]; exact hn
    have h3 := foldl_put_mem h.codes ct b p hnd he
    have h4 := foldl_put_mem h.codes ct b _ hnd h2
    simp [← h3, h4]
  rw [h1, ← ((filter_mem_perm hn).map fun b => f b (ct.entry b)).sum_eq]
  induction allSymbols with
  | nil => rfl
  | cons b bs ih =>
    rw [List.map_cons, List.sum_cons, ih, List.filter_cons]
    by_cases hb : b ∈ h.symbols
    · simp [hb]
    · simp [hb, (hc b).2 hb, hf]

end Sys2Proof.Machine
end

