-- ==== Sys2Proof/Laws/Memory.lean ====
section
/-! SUPPORT. DMEM: a read after a store, the canonical form, and byte order. -/

namespace Sys2Proof.Machine

theorem memGet_append (m n : List Host.Cell) (a : Nat) : memGet (m ++ n) a = (memGet m a).or (memGet n a) := by
  induction m with
  | nil => simp [memGet]
  | cons c m ih => by_cases h : c.1 = a <;> simp [memGet, h, ih]

theorem memGet_eq_none {m : List Host.Cell} {a : Nat} (h : ∀ c ∈ m, c.1 ≠ a) : memGet m a = none := by
  induction m with
  | nil => rfl
  | cons c m ih =>
    have hc := h c (by simp)
    simp [memGet, hc, ih fun d hd => h d (by simp [hd])]

theorem memGet_filter (m : List Host.Cell) (p : Host.Cell → Bool) (a : Nat) (h : ∀ b, p (a, b) = true) :
    memGet (m.filter p) a = memGet m a := by
  induction m with
  | nil => rfl
  | cons c m ih =>
    obtain ⟨x, b⟩ := c
    by_cases hx : x = a
    · subst hx
      simp [h b, memGet]
    · by_cases hp : p (x, b) <;> simp [hp, memGet, hx, ih]

theorem memGet_cells (a : Nat) (bs : List Byte) (x : Nat) :
    memGet (cells a bs) x = if a ≤ x then bs[x - a]? else none := by
  induction bs generalizing a with
  | nil => simp [cells, memGet]
  | cons b bs ih =>
    simp only [cells, memGet]
    by_cases h : a = x
    · simp [h]
    · rw [if_neg h, ih (a + 1)]
      by_cases h1 : a + 1 ≤ x
      · have h2 : a ≤ x := by omega
        have h3 : x - a = (x - (a + 1)) + 1 := by omega
        simp [h1, h2, h3]
      · have h2 : ¬a ≤ x := by omega
        simp [h1, h2]

/-- A read of one offset after a store: the stored byte inside the stored range, the old listing outside. -/
theorem memGet_memStore (m : List Host.Cell) (a : Nat) (bs : List Byte) (x : Nat) :
    memGet (memStore m a bs) x = if a ≤ x ∧ x < a + bs.length then bs[x - a]? else memGet m x := by
  unfold memStore
  rw [memGet_append, memGet_append, memGet_cells]
  by_cases h1 : a ≤ x
  · rw [memGet_eq_none (m := m.filter fun c => decide (c.1 < a))
      (by intro c hc; simp at hc; omega)]
    by_cases h2 : x < a + bs.length
    · have hg : x - a < bs.length := by omega
      simp [h1, h2, hg]
    · have hn : bs[x - a]? = none := by simp; omega
      have hx : a + bs.length ≤ x := by omega
      simp only [h1, h2, hn]
      rw [memGet_filter _ _ _ (by intro b; simpa using hx)]
      simp
  · have hx : x < a := by omega
    rw [memGet_filter _ _ _ (by intro b; simpa using hx),
      memGet_eq_none (m := m.filter fun c => decide (a + bs.length ≤ c.1)) (by intro c hc; simp at hc; omega)]
    simp [h1]

/-! ### The canonical form -/

theorem memRising_iff (m : List Host.Cell) : memRising m = true ↔ m.Pairwise fun c d => c.1 < d.1 := by
  induction m with
  | nil => simp [memRising]
  | cons c m ih =>
    cases m with
    | nil => simp [memRising]
    | cons d m =>
      rw [memRising, Bool.and_eq_true, ih, List.pairwise_cons (a := c), decide_eq_true_eq]
      constructor
      · rintro ⟨h, hm⟩
        refine ⟨fun x hx => ?_, hm⟩
        rcases List.mem_cons.mp hx with rfl | hx
        · exact h
        · exact h.trans ((List.pairwise_cons.mp hm).1 x hx)
      · rintro ⟨h, hm⟩
        exact ⟨h d (by simp), hm⟩

theorem mem_cells {a : Nat} {bs : List Byte} {c : Host.Cell} (h : c ∈ cells a bs) : a ≤ c.1 ∧ c.1 < a + bs.length := by
  induction bs generalizing a with
  | nil => simp [cells] at h
  | cons b bs ih =>
    simp only [cells, List.mem_cons, List.length_cons] at h ⊢
    rcases h with rfl | h
    · simp
    · have := ih h; omega

theorem cells_rising (a : Nat) (bs : List Byte) : (cells a bs).Pairwise fun c d => c.1 < d.1 := by
  induction bs generalizing a with
  | nil => simp [cells]
  | cons b bs ih =>
    simp only [cells, List.pairwise_cons]
    exact ⟨fun c hc => by have := mem_cells hc; simp; omega, ih _⟩

/-- A store keeps the offsets rising. -/
theorem memRising_memStore {m : List Host.Cell} (h : memRising m = true) (a : Nat) (bs : List Byte) :
    memRising (memStore m a bs) = true := by
  rw [memRising_iff] at h ⊢
  unfold memStore
  rw [List.pairwise_append, List.pairwise_append]
  refine ⟨⟨h.filter _, cells_rising a bs, ?_⟩, h.filter _, ?_⟩
  · intro c hc d hd
    have hd := mem_cells hd
    simp at hc
    omega
  · intro c hc d hd
    simp only [List.mem_append, List.mem_filter, decide_eq_true_eq] at hc hd
    rcases hc with hc | hc
    · omega
    · have := mem_cells hc; omega

/-- A store inside DMEM keeps the memory's form. -/
theorem memWf_memStore {m : List Host.Cell} {size a : Nat} {bs : List Byte} (h : memWf m size = true)
    (hb : bs = [] ∨ a + bs.length ≤ size) : memWf (memStore m a bs) size = true := by
  simp only [memWf, Bool.and_eq_true, List.all_eq_true, decide_eq_true_eq] at h ⊢
  refine ⟨memRising_memStore h.1 a bs, fun c hc => ?_⟩
  simp only [memStore, List.mem_append, List.mem_filter] at hc
  rcases hc with (hc | hc) | hc
  · exact h.2 c hc.1
  · have := mem_cells hc
    rcases hb with rfl | hb
    · simp [cells] at hc
    · omega
  · exact h.2 c hc.1

theorem memWf_nil (size : Nat) : memWf [] size = true := rfl

/-! ### Bytes of a state -/

/-- A byte after a store. -/
theorem byteAt_storeBytes (s : State) (a : Nat) (bs : List Byte) (x : Nat) :
    (s.storeBytes a bs).byteAt x = if a ≤ x ∧ x < a + bs.length then bs.getD (x - a) 0 else s.byteAt x := by
  simp only [State.byteAt, State.storeBytes, memGet_memStore]
  by_cases h : a ≤ x ∧ x < a + bs.length
  · have hg : x - a < bs.length := by omega
    simp [h, List.getElem?_eq_getElem hg]
  · simp [h]

theorem byteAt_storeBytes_inside (s : State) (a : Nat) (bs : List Byte) (i : Nat) (h : i < bs.length) :
    (s.storeBytes a bs).byteAt (a + i) = bs.getD i 0 := by
  rw [byteAt_storeBytes, if_pos (by omega)]; congr 1; omega

theorem byteAt_storeBytes_outside (s : State) (a : Nat) (bs : List Byte) (x : Nat)
    (h : x < a ∨ a + bs.length ≤ x) : (s.storeBytes a bs).byteAt x = s.byteAt x := by
  rw [byteAt_storeBytes, if_neg (by omega)]

theorem length_freeBytes (k a n : Nat) : (freeBytes k a n).length = n := by simp [freeBytes]

/-- A region made free leaves every byte outside it. -/
theorem byteAt_smear_outside (s : State) (g : Region) (x : Nat) (h : g.has x = false) :
    (s.smear g).byteAt x = s.byteAt x := by
  have h2 : ¬(g.addr ≤ x ∧ x < g.addr + g.len) := by
    intro hx
    simp [Region.has, hx] at h
  have := byteAt_storeBytes_outside s g.addr (freeBytes s.draws g.addr (min g.len (s.dmemSize - g.addr))) x
    (by rw [length_freeBytes]; omega)
  simpa [State.smear, State.storeBytes, State.byteAt] using this

/-- Freeing a region keeps the memory's form. -/
theorem memOk_smear {s : State} (h : s.memOk = true) (g : Region) : (s.smear g).memOk = true := by
  refine memWf_memStore (size := s.dmemSize) h ?_
  by_cases hz : min g.len (s.dmemSize - g.addr) = 0
  · left; simp [hz, freeBytes]
  · right; rw [length_freeBytes]; omega

theorem foldl_memStore_get (f : Nat → Byte) (as : List Nat) (m : List Host.Cell) (x : Nat) (h : x ∉ as) :
    memGet (as.foldl (fun m a => memStore m a [f a]) m) x = memGet m x := by
  induction as generalizing m with
  | nil => rfl
  | cons a as ih =>
    simp only [List.mem_cons, not_or] at h
    rw [List.foldl_cons, ih _ h.2, memGet_memStore, if_neg (by simp; omega)]

theorem foldl_memStore_wf (f : Nat → Byte) (as : List Nat) (m : List Host.Cell) (size : Nat)
    (h : memWf m size = true) (ha : ∀ a ∈ as, a < size) :
    memWf (as.foldl (fun m a => memStore m a [f a]) m) size = true := by
  induction as generalizing m with
  | nil => exact h
  | cons a as ih =>
    refine ih _ (memWf_memStore h (.inr ?_)) fun b hb => ha b (by simp [hb])
    have := ha a (by simp); simp; omega

/-- The output bytes the host touched are the only ones made free. -/
theorem byteAt_smearTouched (s : State) (as : List Nat) (x : Nat) (h : x ∉ as) :
    (s.smearTouched as).byteAt x = s.byteAt x := by
  unfold State.smearTouched
  split
  · rfl
  · simp only [State.smearList, State.byteAt]
    rw [foldl_memStore_get (fun a => Config.freeByte s.draws a) as s.mem x h]

/-! ### Byte order -/

theorem length_leBytes (n v : Nat) : (leBytes n v).length = n := by
  induction n generalizing v with
  | zero => rfl
  | succ n ih => simp [leBytes, ih]

/-- Little-endian bytes read back as the value, cut to their number of bytes. -/
theorem leValue_leBytes (n v : Nat) : leValue (leBytes n v) = v % 256 ^ n := by
  induction n generalizing v with
  | zero => simp [leBytes, leValue, Nat.mod_one]
  | succ n ih =>
    have h1 : (v / 256) % 256 ^ n = v % (256 * 256 ^ n) / 256 := by
      rw [Nat.mod_mul_right_div_self]
    have h2 : v % (256 * 256 ^ n) % 256 = v % 256 := Nat.mod_mul_right_mod v 256 (256 ^ n)
    simp only [leBytes, leValue, ih, BitVec.toNat_ofNat, pow_succ]
    rw [Nat.mul_comm (256 ^ n) 256, h1]
    omega

theorem leBytes_getD (n v i : Nat) (h : i < n) : (leBytes n v).getD i 0 = BitVec.ofNat 8 (v / 256 ^ i) := by
  induction n generalizing v i with
  | zero => omega
  | succ n ih =>
    cases i with
    | zero => simp [leBytes]
    | succ i =>
      have h' : i < n := by omega
      simp only [leBytes, List.getD_cons_succ, ih (v / 256) i h', Nat.div_div_eq_div_mul, pow_succ,
        Nat.mul_comm (256 ^ i) 256]

end Sys2Proof.Machine
end

