-- ==== Sys2Proof/Laws/State.lean ====
section
/-! SUPPORT. What each shared update of State writes and leaves: one lemma per field and update, so that no later proof
unfolds a record update. -/

namespace Sys2Proof.Machine

@[simp] theorem State.complete_memLog (s : State) : (s.complete).memLog = s.memLog := rfl
@[simp] theorem State.complete_rstN (s : State) : (s.complete).rstN = s.rstN := rfl
@[simp] theorem State.complete_phase (s : State) : (s.complete).phase = .idle := rfl
@[simp] theorem State.complete_ie (s : State) : (s.complete).ie = s.ie := rfl
@[simp] theorem State.complete_intrDone (s : State) : (s.complete).intrDone = true := rfl
@[simp] theorem State.complete_intrDrop (s : State) : (s.complete).intrDrop = s.intrDrop := rfl
@[simp] theorem State.complete_errCode (s : State) : (s.complete).errCode = s.errCode := rfl
@[simp] theorem State.complete_errInfo0 (s : State) : (s.complete).errInfo0 = s.errInfo0 := rfl
@[simp] theorem State.complete_errInfo1 (s : State) : (s.complete).errInfo1 = s.errInfo1 := rfl
@[simp] theorem State.complete_args (s : State) : (s.complete).args = s.args := rfl
@[simp] theorem State.complete_results (s : State) : (s.complete).results = s.results := rfl
@[simp] theorem State.complete_ft (s : State) : (s.complete).ft = s.ft := rfl
@[simp] theorem State.complete_tree (s : State) : (s.complete).tree = s.tree := rfl
@[simp] theorem State.complete_ct (s : State) : (s.complete).ct = s.ct := rfl
@[simp] theorem State.complete_mem (s : State) : (s.complete).mem = s.mem := rfl
@[simp] theorem State.complete_memDraw (s : State) : (s.complete).memDraw = s.memDraw := rfl
@[simp] theorem State.complete_draws (s : State) : (s.complete).draws = s.draws := rfl
@[simp] theorem State.complete_hostQ (s : State) : (s.complete).hostQ = s.hostQ := rfl
@[simp] theorem State.complete_resp (s : State) : (s.complete).resp = s.resp := rfl

@[simp] theorem State.setError_memLog (s : State) (e : CmdError) : (s.setError e).memLog = s.memLog := rfl
@[simp] theorem State.setError_rstN (s : State) (e : CmdError) : (s.setError e).rstN = s.rstN := rfl
@[simp] theorem State.setError_phase (s : State) (e : CmdError) : (s.setError e).phase = s.phase := rfl
@[simp] theorem State.setError_ie (s : State) (e : CmdError) : (s.setError e).ie = s.ie := rfl
@[simp] theorem State.setError_intrDone (s : State) (e : CmdError) : (s.setError e).intrDone = s.intrDone := rfl
@[simp] theorem State.setError_intrDrop (s : State) (e : CmdError) : (s.setError e).intrDrop = s.intrDrop := rfl
@[simp] theorem State.setError_errCode (s : State) (e : CmdError) : (s.setError e).errCode = e.code := rfl
@[simp] theorem State.setError_errInfo0 (s : State) (e : CmdError) : (s.setError e).errInfo0 = e.info0 := rfl
@[simp] theorem State.setError_errInfo1 (s : State) (e : CmdError) : (s.setError e).errInfo1 = e.info1 := rfl
@[simp] theorem State.setError_args (s : State) (e : CmdError) : (s.setError e).args = s.args := rfl
@[simp] theorem State.setError_results (s : State) (e : CmdError) : (s.setError e).results = s.results := rfl
@[simp] theorem State.setError_ft (s : State) (e : CmdError) : (s.setError e).ft = s.ft := rfl
@[simp] theorem State.setError_tree (s : State) (e : CmdError) : (s.setError e).tree = s.tree := rfl
@[simp] theorem State.setError_ct (s : State) (e : CmdError) : (s.setError e).ct = s.ct := rfl
@[simp] theorem State.setError_mem (s : State) (e : CmdError) : (s.setError e).mem = s.mem := rfl
@[simp] theorem State.setError_memDraw (s : State) (e : CmdError) : (s.setError e).memDraw = s.memDraw := rfl
@[simp] theorem State.setError_draws (s : State) (e : CmdError) : (s.setError e).draws = s.draws := rfl
@[simp] theorem State.setError_hostQ (s : State) (e : CmdError) : (s.setError e).hostQ = s.hostQ := rfl
@[simp] theorem State.setError_resp (s : State) (e : CmdError) : (s.setError e).resp = s.resp := rfl

@[simp] theorem State.setResults_memLog (s : State) (vs : List (ResultReg × Word)) : (s.setResults vs).memLog = s.memLog := rfl
@[simp] theorem State.setResults_rstN (s : State) (vs : List (ResultReg × Word)) : (s.setResults vs).rstN = s.rstN := rfl
@[simp] theorem State.setResults_phase (s : State) (vs : List (ResultReg × Word)) : (s.setResults vs).phase = s.phase := rfl
@[simp] theorem State.setResults_ie (s : State) (vs : List (ResultReg × Word)) : (s.setResults vs).ie = s.ie := rfl
@[simp] theorem State.setResults_intrDone (s : State) (vs : List (ResultReg × Word)) : (s.setResults vs).intrDone = s.intrDone := rfl
@[simp] theorem State.setResults_intrDrop (s : State) (vs : List (ResultReg × Word)) : (s.setResults vs).intrDrop = s.intrDrop := rfl
@[simp] theorem State.setResults_errCode (s : State) (vs : List (ResultReg × Word)) : (s.setResults vs).errCode = s.errCode := rfl
@[simp] theorem State.setResults_errInfo0 (s : State) (vs : List (ResultReg × Word)) : (s.setResults vs).errInfo0 = s.errInfo0 := rfl
@[simp] theorem State.setResults_errInfo1 (s : State) (vs : List (ResultReg × Word)) : (s.setResults vs).errInfo1 = s.errInfo1 := rfl
@[simp] theorem State.setResults_args (s : State) (vs : List (ResultReg × Word)) : (s.setResults vs).args = s.args := rfl
@[simp] theorem State.setResults_results (s : State) (vs : List (ResultReg × Word)) : (s.setResults vs).results = vs.foldl (fun r v => r.write v.1 v.2) s.results := rfl
@[simp] theorem State.setResults_ft (s : State) (vs : List (ResultReg × Word)) : (s.setResults vs).ft = s.ft := rfl
@[simp] theorem State.setResults_tree (s : State) (vs : List (ResultReg × Word)) : (s.setResults vs).tree = s.tree := rfl
@[simp] theorem State.setResults_ct (s : State) (vs : List (ResultReg × Word)) : (s.setResults vs).ct = s.ct := rfl
@[simp] theorem State.setResults_mem (s : State) (vs : List (ResultReg × Word)) : (s.setResults vs).mem = s.mem := rfl
@[simp] theorem State.setResults_memDraw (s : State) (vs : List (ResultReg × Word)) : (s.setResults vs).memDraw = s.memDraw := rfl
@[simp] theorem State.setResults_draws (s : State) (vs : List (ResultReg × Word)) : (s.setResults vs).draws = s.draws := rfl
@[simp] theorem State.setResults_hostQ (s : State) (vs : List (ResultReg × Word)) : (s.setResults vs).hostQ = s.hostQ := rfl
@[simp] theorem State.setResults_resp (s : State) (vs : List (ResultReg × Word)) : (s.setResults vs).resp = s.resp := rfl

@[simp] theorem State.zeroResults_memLog (s : State) (rs : List ResultReg) : (s.zeroResults rs).memLog = s.memLog := rfl
@[simp] theorem State.zeroResults_rstN (s : State) (rs : List ResultReg) : (s.zeroResults rs).rstN = s.rstN := rfl
@[simp] theorem State.zeroResults_phase (s : State) (rs : List ResultReg) : (s.zeroResults rs).phase = s.phase := rfl
@[simp] theorem State.zeroResults_ie (s : State) (rs : List ResultReg) : (s.zeroResults rs).ie = s.ie := rfl
@[simp] theorem State.zeroResults_intrDone (s : State) (rs : List ResultReg) : (s.zeroResults rs).intrDone = s.intrDone := rfl
@[simp] theorem State.zeroResults_intrDrop (s : State) (rs : List ResultReg) : (s.zeroResults rs).intrDrop = s.intrDrop := rfl
@[simp] theorem State.zeroResults_errCode (s : State) (rs : List ResultReg) : (s.zeroResults rs).errCode = s.errCode := rfl
@[simp] theorem State.zeroResults_errInfo0 (s : State) (rs : List ResultReg) : (s.zeroResults rs).errInfo0 = s.errInfo0 := rfl
@[simp] theorem State.zeroResults_errInfo1 (s : State) (rs : List ResultReg) : (s.zeroResults rs).errInfo1 = s.errInfo1 := rfl
@[simp] theorem State.zeroResults_args (s : State) (rs : List ResultReg) : (s.zeroResults rs).args = s.args := rfl
@[simp] theorem State.zeroResults_results (s : State) (rs : List ResultReg) : (s.zeroResults rs).results = (rs.map fun r => (r, (0 : Word))).foldl (fun r v => r.write v.1 v.2) s.results := rfl
@[simp] theorem State.zeroResults_ft (s : State) (rs : List ResultReg) : (s.zeroResults rs).ft = s.ft := rfl
@[simp] theorem State.zeroResults_tree (s : State) (rs : List ResultReg) : (s.zeroResults rs).tree = s.tree := rfl
@[simp] theorem State.zeroResults_ct (s : State) (rs : List ResultReg) : (s.zeroResults rs).ct = s.ct := rfl
@[simp] theorem State.zeroResults_mem (s : State) (rs : List ResultReg) : (s.zeroResults rs).mem = s.mem := rfl
@[simp] theorem State.zeroResults_memDraw (s : State) (rs : List ResultReg) : (s.zeroResults rs).memDraw = s.memDraw := rfl
@[simp] theorem State.zeroResults_draws (s : State) (rs : List ResultReg) : (s.zeroResults rs).draws = s.draws := rfl
@[simp] theorem State.zeroResults_hostQ (s : State) (rs : List ResultReg) : (s.zeroResults rs).hostQ = s.hostQ := rfl
@[simp] theorem State.zeroResults_resp (s : State) (rs : List ResultReg) : (s.zeroResults rs).resp = s.resp := rfl

@[simp] theorem State.storeBytes_memLog (s : State) (a : Nat) (bs : List Byte) : (s.storeBytes a bs).memLog = s.memLog := rfl
@[simp] theorem State.storeBytes_rstN (s : State) (a : Nat) (bs : List Byte) : (s.storeBytes a bs).rstN = s.rstN := rfl
@[simp] theorem State.storeBytes_phase (s : State) (a : Nat) (bs : List Byte) : (s.storeBytes a bs).phase = s.phase := rfl
@[simp] theorem State.storeBytes_ie (s : State) (a : Nat) (bs : List Byte) : (s.storeBytes a bs).ie = s.ie := rfl
@[simp] theorem State.storeBytes_intrDone (s : State) (a : Nat) (bs : List Byte) : (s.storeBytes a bs).intrDone = s.intrDone := rfl
@[simp] theorem State.storeBytes_intrDrop (s : State) (a : Nat) (bs : List Byte) : (s.storeBytes a bs).intrDrop = s.intrDrop := rfl
@[simp] theorem State.storeBytes_errCode (s : State) (a : Nat) (bs : List Byte) : (s.storeBytes a bs).errCode = s.errCode := rfl
@[simp] theorem State.storeBytes_errInfo0 (s : State) (a : Nat) (bs : List Byte) : (s.storeBytes a bs).errInfo0 = s.errInfo0 := rfl
@[simp] theorem State.storeBytes_errInfo1 (s : State) (a : Nat) (bs : List Byte) : (s.storeBytes a bs).errInfo1 = s.errInfo1 := rfl
@[simp] theorem State.storeBytes_args (s : State) (a : Nat) (bs : List Byte) : (s.storeBytes a bs).args = s.args := rfl
@[simp] theorem State.storeBytes_results (s : State) (a : Nat) (bs : List Byte) : (s.storeBytes a bs).results = s.results := rfl
@[simp] theorem State.storeBytes_ft (s : State) (a : Nat) (bs : List Byte) : (s.storeBytes a bs).ft = s.ft := rfl
@[simp] theorem State.storeBytes_tree (s : State) (a : Nat) (bs : List Byte) : (s.storeBytes a bs).tree = s.tree := rfl
@[simp] theorem State.storeBytes_ct (s : State) (a : Nat) (bs : List Byte) : (s.storeBytes a bs).ct = s.ct := rfl
@[simp] theorem State.storeBytes_mem (s : State) (a : Nat) (bs : List Byte) : (s.storeBytes a bs).mem = memStore s.mem a bs := rfl
@[simp] theorem State.storeBytes_memDraw (s : State) (a : Nat) (bs : List Byte) : (s.storeBytes a bs).memDraw = s.memDraw := rfl
@[simp] theorem State.storeBytes_draws (s : State) (a : Nat) (bs : List Byte) : (s.storeBytes a bs).draws = s.draws := rfl
@[simp] theorem State.storeBytes_hostQ (s : State) (a : Nat) (bs : List Byte) : (s.storeBytes a bs).hostQ = s.hostQ := rfl
@[simp] theorem State.storeBytes_resp (s : State) (a : Nat) (bs : List Byte) : (s.storeBytes a bs).resp = s.resp := rfl

@[simp] theorem State.smear_memLog (s : State) (g : Region) : (s.smear g).memLog = s.memLog := rfl
@[simp] theorem State.smear_rstN (s : State) (g : Region) : (s.smear g).rstN = s.rstN := rfl
@[simp] theorem State.smear_phase (s : State) (g : Region) : (s.smear g).phase = s.phase := rfl
@[simp] theorem State.smear_ie (s : State) (g : Region) : (s.smear g).ie = s.ie := rfl
@[simp] theorem State.smear_intrDone (s : State) (g : Region) : (s.smear g).intrDone = s.intrDone := rfl
@[simp] theorem State.smear_intrDrop (s : State) (g : Region) : (s.smear g).intrDrop = s.intrDrop := rfl
@[simp] theorem State.smear_errCode (s : State) (g : Region) : (s.smear g).errCode = s.errCode := rfl
@[simp] theorem State.smear_errInfo0 (s : State) (g : Region) : (s.smear g).errInfo0 = s.errInfo0 := rfl
@[simp] theorem State.smear_errInfo1 (s : State) (g : Region) : (s.smear g).errInfo1 = s.errInfo1 := rfl
@[simp] theorem State.smear_args (s : State) (g : Region) : (s.smear g).args = s.args := rfl
@[simp] theorem State.smear_results (s : State) (g : Region) : (s.smear g).results = s.results := rfl
@[simp] theorem State.smear_ft (s : State) (g : Region) : (s.smear g).ft = s.ft := rfl
@[simp] theorem State.smear_tree (s : State) (g : Region) : (s.smear g).tree = s.tree := rfl
@[simp] theorem State.smear_ct (s : State) (g : Region) : (s.smear g).ct = s.ct := rfl
@[simp] theorem State.smear_memDraw (s : State) (g : Region) : (s.smear g).memDraw = s.memDraw := rfl
@[simp] theorem State.smear_draws (s : State) (g : Region) : (s.smear g).draws = s.draws + 1 := rfl
@[simp] theorem State.smear_hostQ (s : State) (g : Region) : (s.smear g).hostQ = s.hostQ := rfl
@[simp] theorem State.smear_resp (s : State) (g : Region) : (s.smear g).resp = s.resp := rfl

@[simp] theorem State.newFreqTable_memLog (s : State) (t : FreqTable) : (s.newFreqTable t).memLog = s.memLog := rfl
@[simp] theorem State.newFreqTable_rstN (s : State) (t : FreqTable) : (s.newFreqTable t).rstN = s.rstN := rfl
@[simp] theorem State.newFreqTable_phase (s : State) (t : FreqTable) : (s.newFreqTable t).phase = s.phase := rfl
@[simp] theorem State.newFreqTable_ie (s : State) (t : FreqTable) : (s.newFreqTable t).ie = s.ie := rfl
@[simp] theorem State.newFreqTable_intrDone (s : State) (t : FreqTable) : (s.newFreqTable t).intrDone = s.intrDone := rfl
@[simp] theorem State.newFreqTable_intrDrop (s : State) (t : FreqTable) : (s.newFreqTable t).intrDrop = s.intrDrop := rfl
@[simp] theorem State.newFreqTable_errCode (s : State) (t : FreqTable) : (s.newFreqTable t).errCode = s.errCode := rfl
@[simp] theorem State.newFreqTable_errInfo0 (s : State) (t : FreqTable) : (s.newFreqTable t).errInfo0 = s.errInfo0 := rfl
@[simp] theorem State.newFreqTable_errInfo1 (s : State) (t : FreqTable) : (s.newFreqTable t).errInfo1 = s.errInfo1 := rfl
@[simp] theorem State.newFreqTable_args (s : State) (t : FreqTable) : (s.newFreqTable t).args = s.args := rfl
@[simp] theorem State.newFreqTable_results (s : State) (t : FreqTable) : (s.newFreqTable t).results = s.results := rfl
@[simp] theorem State.newFreqTable_ft (s : State) (t : FreqTable) : (s.newFreqTable t).ft = some t := rfl
@[simp] theorem State.newFreqTable_tree (s : State) (t : FreqTable) : (s.newFreqTable t).tree = none := rfl
@[simp] theorem State.newFreqTable_ct (s : State) (t : FreqTable) : (s.newFreqTable t).ct = none := rfl
@[simp] theorem State.newFreqTable_mem (s : State) (t : FreqTable) : (s.newFreqTable t).mem = s.mem := rfl
@[simp] theorem State.newFreqTable_memDraw (s : State) (t : FreqTable) : (s.newFreqTable t).memDraw = s.memDraw := rfl
@[simp] theorem State.newFreqTable_draws (s : State) (t : FreqTable) : (s.newFreqTable t).draws = s.draws := rfl
@[simp] theorem State.newFreqTable_hostQ (s : State) (t : FreqTable) : (s.newFreqTable t).hostQ = s.hostQ := rfl
@[simp] theorem State.newFreqTable_resp (s : State) (t : FreqTable) : (s.newFreqTable t).resp = s.resp := rfl

@[simp] theorem State.newTree_memLog (s : State) (t : Option HTree) : (s.newTree t).memLog = s.memLog := rfl
@[simp] theorem State.newTree_rstN (s : State) (t : Option HTree) : (s.newTree t).rstN = s.rstN := rfl
@[simp] theorem State.newTree_phase (s : State) (t : Option HTree) : (s.newTree t).phase = s.phase := rfl
@[simp] theorem State.newTree_ie (s : State) (t : Option HTree) : (s.newTree t).ie = s.ie := rfl
@[simp] theorem State.newTree_intrDone (s : State) (t : Option HTree) : (s.newTree t).intrDone = s.intrDone := rfl
@[simp] theorem State.newTree_intrDrop (s : State) (t : Option HTree) : (s.newTree t).intrDrop = s.intrDrop := rfl
@[simp] theorem State.newTree_errCode (s : State) (t : Option HTree) : (s.newTree t).errCode = s.errCode := rfl
@[simp] theorem State.newTree_errInfo0 (s : State) (t : Option HTree) : (s.newTree t).errInfo0 = s.errInfo0 := rfl
@[simp] theorem State.newTree_errInfo1 (s : State) (t : Option HTree) : (s.newTree t).errInfo1 = s.errInfo1 := rfl
@[simp] theorem State.newTree_args (s : State) (t : Option HTree) : (s.newTree t).args = s.args := rfl
@[simp] theorem State.newTree_results (s : State) (t : Option HTree) : (s.newTree t).results = s.results := rfl
@[simp] theorem State.newTree_ft (s : State) (t : Option HTree) : (s.newTree t).ft = s.ft := rfl
@[simp] theorem State.newTree_tree (s : State) (t : Option HTree) : (s.newTree t).tree = t := rfl
@[simp] theorem State.newTree_ct (s : State) (t : Option HTree) : (s.newTree t).ct = none := rfl
@[simp] theorem State.newTree_mem (s : State) (t : Option HTree) : (s.newTree t).mem = s.mem := rfl
@[simp] theorem State.newTree_memDraw (s : State) (t : Option HTree) : (s.newTree t).memDraw = s.memDraw := rfl
@[simp] theorem State.newTree_draws (s : State) (t : Option HTree) : (s.newTree t).draws = s.draws := rfl
@[simp] theorem State.newTree_hostQ (s : State) (t : Option HTree) : (s.newTree t).hostQ = s.hostQ := rfl
@[simp] theorem State.newTree_resp (s : State) (t : Option HTree) : (s.newTree t).resp = s.resp := rfl

@[simp] theorem State.newCodeTable_memLog (s : State) (t : CodeTable) : (s.newCodeTable t).memLog = s.memLog := rfl
@[simp] theorem State.newCodeTable_rstN (s : State) (t : CodeTable) : (s.newCodeTable t).rstN = s.rstN := rfl
@[simp] theorem State.newCodeTable_phase (s : State) (t : CodeTable) : (s.newCodeTable t).phase = s.phase := rfl
@[simp] theorem State.newCodeTable_ie (s : State) (t : CodeTable) : (s.newCodeTable t).ie = s.ie := rfl
@[simp] theorem State.newCodeTable_intrDone (s : State) (t : CodeTable) : (s.newCodeTable t).intrDone = s.intrDone := rfl
@[simp] theorem State.newCodeTable_intrDrop (s : State) (t : CodeTable) : (s.newCodeTable t).intrDrop = s.intrDrop := rfl
@[simp] theorem State.newCodeTable_errCode (s : State) (t : CodeTable) : (s.newCodeTable t).errCode = s.errCode := rfl
@[simp] theorem State.newCodeTable_errInfo0 (s : State) (t : CodeTable) : (s.newCodeTable t).errInfo0 = s.errInfo0 := rfl
@[simp] theorem State.newCodeTable_errInfo1 (s : State) (t : CodeTable) : (s.newCodeTable t).errInfo1 = s.errInfo1 := rfl
@[simp] theorem State.newCodeTable_args (s : State) (t : CodeTable) : (s.newCodeTable t).args = s.args := rfl
@[simp] theorem State.newCodeTable_results (s : State) (t : CodeTable) : (s.newCodeTable t).results = s.results := rfl
@[simp] theorem State.newCodeTable_ft (s : State) (t : CodeTable) : (s.newCodeTable t).ft = s.ft := rfl
@[simp] theorem State.newCodeTable_tree (s : State) (t : CodeTable) : (s.newCodeTable t).tree = s.tree := rfl
@[simp] theorem State.newCodeTable_ct (s : State) (t : CodeTable) : (s.newCodeTable t).ct = some t := rfl
@[simp] theorem State.newCodeTable_mem (s : State) (t : CodeTable) : (s.newCodeTable t).mem = s.mem := rfl
@[simp] theorem State.newCodeTable_memDraw (s : State) (t : CodeTable) : (s.newCodeTable t).memDraw = s.memDraw := rfl
@[simp] theorem State.newCodeTable_draws (s : State) (t : CodeTable) : (s.newCodeTable t).draws = s.draws := rfl
@[simp] theorem State.newCodeTable_hostQ (s : State) (t : CodeTable) : (s.newCodeTable t).hostQ = s.hostQ := rfl
@[simp] theorem State.newCodeTable_resp (s : State) (t : CodeTable) : (s.newCodeTable t).resp = s.resp := rfl

@[simp] theorem State.clearStores_memLog (s : State) : (s.clearStores).memLog = s.memLog := rfl
@[simp] theorem State.clearStores_rstN (s : State) : (s.clearStores).rstN = s.rstN := rfl
@[simp] theorem State.clearStores_phase (s : State) : (s.clearStores).phase = s.phase := rfl
@[simp] theorem State.clearStores_ie (s : State) : (s.clearStores).ie = s.ie := rfl
@[simp] theorem State.clearStores_intrDone (s : State) : (s.clearStores).intrDone = s.intrDone := rfl
@[simp] theorem State.clearStores_intrDrop (s : State) : (s.clearStores).intrDrop = s.intrDrop := rfl
@[simp] theorem State.clearStores_errCode (s : State) : (s.clearStores).errCode = s.errCode := rfl
@[simp] theorem State.clearStores_errInfo0 (s : State) : (s.clearStores).errInfo0 = s.errInfo0 := rfl
@[simp] theorem State.clearStores_errInfo1 (s : State) : (s.clearStores).errInfo1 = s.errInfo1 := rfl
@[simp] theorem State.clearStores_args (s : State) : (s.clearStores).args = s.args := rfl
@[simp] theorem State.clearStores_results (s : State) : (s.clearStores).results = s.results := rfl
@[simp] theorem State.clearStores_ft (s : State) : (s.clearStores).ft = none := rfl
@[simp] theorem State.clearStores_tree (s : State) : (s.clearStores).tree = none := rfl
@[simp] theorem State.clearStores_ct (s : State) : (s.clearStores).ct = none := rfl
@[simp] theorem State.clearStores_mem (s : State) : (s.clearStores).mem = s.mem := rfl
@[simp] theorem State.clearStores_memDraw (s : State) : (s.clearStores).memDraw = s.memDraw := rfl
@[simp] theorem State.clearStores_draws (s : State) : (s.clearStores).draws = s.draws := rfl
@[simp] theorem State.clearStores_hostQ (s : State) : (s.clearStores).hostQ = s.hostQ := rfl
@[simp] theorem State.clearStores_resp (s : State) : (s.clearStores).resp = s.resp := rfl

@[simp] theorem State.accept_memLog (s : State) (w : Word) (d : Nat) : (s.accept w d).memLog = s.memLog := rfl
@[simp] theorem State.accept_rstN (s : State) (w : Word) (d : Nat) : (s.accept w d).rstN = s.rstN := rfl
@[simp] theorem State.accept_phase (s : State) (w : Word) (d : Nat) : (s.accept w d).phase = .busy { word := w, snap := s.args, delay := d, raced := false, touched := [] } := rfl
@[simp] theorem State.accept_ie (s : State) (w : Word) (d : Nat) : (s.accept w d).ie = s.ie := rfl
@[simp] theorem State.accept_intrDone (s : State) (w : Word) (d : Nat) : (s.accept w d).intrDone = s.intrDone := rfl
@[simp] theorem State.accept_intrDrop (s : State) (w : Word) (d : Nat) : (s.accept w d).intrDrop = s.intrDrop := rfl
@[simp] theorem State.accept_errCode (s : State) (w : Word) (d : Nat) : (s.accept w d).errCode = 0 := rfl
@[simp] theorem State.accept_errInfo0 (s : State) (w : Word) (d : Nat) : (s.accept w d).errInfo0 = 0 := rfl
@[simp] theorem State.accept_errInfo1 (s : State) (w : Word) (d : Nat) : (s.accept w d).errInfo1 = 0 := rfl
@[simp] theorem State.accept_args (s : State) (w : Word) (d : Nat) : (s.accept w d).args = s.args := rfl
@[simp] theorem State.accept_results (s : State) (w : Word) (d : Nat) : (s.accept w d).results = s.results := rfl
@[simp] theorem State.accept_ft (s : State) (w : Word) (d : Nat) : (s.accept w d).ft = s.ft := rfl
@[simp] theorem State.accept_tree (s : State) (w : Word) (d : Nat) : (s.accept w d).tree = s.tree := rfl
@[simp] theorem State.accept_ct (s : State) (w : Word) (d : Nat) : (s.accept w d).ct = s.ct := rfl
@[simp] theorem State.accept_mem (s : State) (w : Word) (d : Nat) : (s.accept w d).mem = s.mem := rfl
@[simp] theorem State.accept_memDraw (s : State) (w : Word) (d : Nat) : (s.accept w d).memDraw = s.memDraw := rfl
@[simp] theorem State.accept_draws (s : State) (w : Word) (d : Nat) : (s.accept w d).draws = s.draws := rfl
@[simp] theorem State.accept_hostQ (s : State) (w : Word) (d : Nat) : (s.accept w d).hostQ = s.hostQ := rfl
@[simp] theorem State.accept_resp (s : State) (w : Word) (d : Nat) : (s.accept w d).resp = s.resp := rfl

@[simp] theorem State.respond_memLog (s : State) (r : Response) : (s.respond r).memLog = s.memLog := rfl
@[simp] theorem State.respond_rstN (s : State) (r : Response) : (s.respond r).rstN = s.rstN := rfl
@[simp] theorem State.respond_phase (s : State) (r : Response) : (s.respond r).phase = s.phase := rfl
@[simp] theorem State.respond_ie (s : State) (r : Response) : (s.respond r).ie = s.ie := rfl
@[simp] theorem State.respond_intrDone (s : State) (r : Response) : (s.respond r).intrDone = s.intrDone := rfl
@[simp] theorem State.respond_intrDrop (s : State) (r : Response) : (s.respond r).intrDrop = s.intrDrop := rfl
@[simp] theorem State.respond_errCode (s : State) (r : Response) : (s.respond r).errCode = s.errCode := rfl
@[simp] theorem State.respond_errInfo0 (s : State) (r : Response) : (s.respond r).errInfo0 = s.errInfo0 := rfl
@[simp] theorem State.respond_errInfo1 (s : State) (r : Response) : (s.respond r).errInfo1 = s.errInfo1 := rfl
@[simp] theorem State.respond_args (s : State) (r : Response) : (s.respond r).args = s.args := rfl
@[simp] theorem State.respond_results (s : State) (r : Response) : (s.respond r).results = s.results := rfl
@[simp] theorem State.respond_ft (s : State) (r : Response) : (s.respond r).ft = s.ft := rfl
@[simp] theorem State.respond_tree (s : State) (r : Response) : (s.respond r).tree = s.tree := rfl
@[simp] theorem State.respond_ct (s : State) (r : Response) : (s.respond r).ct = s.ct := rfl
@[simp] theorem State.respond_mem (s : State) (r : Response) : (s.respond r).mem = s.mem := rfl
@[simp] theorem State.respond_memDraw (s : State) (r : Response) : (s.respond r).memDraw = s.memDraw := rfl
@[simp] theorem State.respond_draws (s : State) (r : Response) : (s.respond r).draws = s.draws := rfl
@[simp] theorem State.respond_hostQ (s : State) (r : Response) : (s.respond r).hostQ = s.hostQ := rfl
@[simp] theorem State.respond_resp (s : State) (r : Response) : (s.respond r).resp = some r := rfl

@[simp] theorem State.complete_dmemSize (s : State) : (s.complete).dmemSize = s.dmemSize := rfl
@[simp] theorem State.complete_byteAt (s : State) (x : Nat) : (s.complete).byteAt x = s.byteAt x := rfl
@[simp] theorem State.setError_dmemSize (s : State) (e : CmdError) : (s.setError e).dmemSize = s.dmemSize := rfl
@[simp] theorem State.setError_snap (s : State) (e : CmdError) : (s.setError e).snap = s.snap := rfl
@[simp] theorem State.setError_isBusy (s : State) (e : CmdError) : (s.setError e).isBusy = s.isBusy := rfl
@[simp] theorem State.setError_byteAt (s : State) (e : CmdError) (x : Nat) : (s.setError e).byteAt x = s.byteAt x := rfl
@[simp] theorem State.setResults_dmemSize (s : State) (vs : List (ResultReg × Word)) : (s.setResults vs).dmemSize = s.dmemSize := rfl
@[simp] theorem State.setResults_snap (s : State) (vs : List (ResultReg × Word)) : (s.setResults vs).snap = s.snap := rfl
@[simp] theorem State.setResults_isBusy (s : State) (vs : List (ResultReg × Word)) : (s.setResults vs).isBusy = s.isBusy := rfl
@[simp] theorem State.setResults_byteAt (s : State) (vs : List (ResultReg × Word)) (x : Nat) : (s.setResults vs).byteAt x = s.byteAt x := rfl
@[simp] theorem State.zeroResults_dmemSize (s : State) (rs : List ResultReg) : (s.zeroResults rs).dmemSize = s.dmemSize := rfl
@[simp] theorem State.zeroResults_snap (s : State) (rs : List ResultReg) : (s.zeroResults rs).snap = s.snap := rfl
@[simp] theorem State.zeroResults_isBusy (s : State) (rs : List ResultReg) : (s.zeroResults rs).isBusy = s.isBusy := rfl
@[simp] theorem State.zeroResults_byteAt (s : State) (rs : List ResultReg) (x : Nat) : (s.zeroResults rs).byteAt x = s.byteAt x := rfl
@[simp] theorem State.storeBytes_dmemSize (s : State) (a : Nat) (bs : List Byte) : (s.storeBytes a bs).dmemSize = s.dmemSize := rfl
@[simp] theorem State.storeBytes_snap (s : State) (a : Nat) (bs : List Byte) : (s.storeBytes a bs).snap = s.snap := rfl
@[simp] theorem State.storeBytes_isBusy (s : State) (a : Nat) (bs : List Byte) : (s.storeBytes a bs).isBusy = s.isBusy := rfl
@[simp] theorem State.smear_dmemSize (s : State) (g : Region) : (s.smear g).dmemSize = s.dmemSize := rfl
@[simp] theorem State.smear_snap (s : State) (g : Region) : (s.smear g).snap = s.snap := rfl
@[simp] theorem State.smear_isBusy (s : State) (g : Region) : (s.smear g).isBusy = s.isBusy := rfl
@[simp] theorem State.newFreqTable_dmemSize (s : State) (t : FreqTable) : (s.newFreqTable t).dmemSize = s.dmemSize := rfl
@[simp] theorem State.newFreqTable_snap (s : State) (t : FreqTable) : (s.newFreqTable t).snap = s.snap := rfl
@[simp] theorem State.newFreqTable_isBusy (s : State) (t : FreqTable) : (s.newFreqTable t).isBusy = s.isBusy := rfl
@[simp] theorem State.newFreqTable_byteAt (s : State) (t : FreqTable) (x : Nat) : (s.newFreqTable t).byteAt x = s.byteAt x := rfl
@[simp] theorem State.newTree_dmemSize (s : State) (t : Option HTree) : (s.newTree t).dmemSize = s.dmemSize := rfl
@[simp] theorem State.newTree_snap (s : State) (t : Option HTree) : (s.newTree t).snap = s.snap := rfl
@[simp] theorem State.newTree_isBusy (s : State) (t : Option HTree) : (s.newTree t).isBusy = s.isBusy := rfl
@[simp] theorem State.newTree_byteAt (s : State) (t : Option HTree) (x : Nat) : (s.newTree t).byteAt x = s.byteAt x := rfl
@[simp] theorem State.newCodeTable_dmemSize (s : State) (t : CodeTable) : (s.newCodeTable t).dmemSize = s.dmemSize := rfl
@[simp] theorem State.newCodeTable_snap (s : State) (t : CodeTable) : (s.newCodeTable t).snap = s.snap := rfl
@[simp] theorem State.newCodeTable_isBusy (s : State) (t : CodeTable) : (s.newCodeTable t).isBusy = s.isBusy := rfl
@[simp] theorem State.newCodeTable_byteAt (s : State) (t : CodeTable) (x : Nat) : (s.newCodeTable t).byteAt x = s.byteAt x := rfl
@[simp] theorem State.clearStores_dmemSize (s : State) : (s.clearStores).dmemSize = s.dmemSize := rfl
@[simp] theorem State.clearStores_snap (s : State) : (s.clearStores).snap = s.snap := rfl
@[simp] theorem State.clearStores_isBusy (s : State) : (s.clearStores).isBusy = s.isBusy := rfl
@[simp] theorem State.clearStores_byteAt (s : State) (x : Nat) : (s.clearStores).byteAt x = s.byteAt x := rfl
@[simp] theorem State.accept_dmemSize (s : State) (w : Word) (d : Nat) : (s.accept w d).dmemSize = s.dmemSize := rfl
@[simp] theorem State.accept_byteAt (s : State) (w : Word) (d : Nat) (x : Nat) : (s.accept w d).byteAt x = s.byteAt x := rfl
@[simp] theorem State.respond_dmemSize (s : State) (r : Response) : (s.respond r).dmemSize = s.dmemSize := rfl
@[simp] theorem State.respond_snap (s : State) (r : Response) : (s.respond r).snap = s.snap := rfl
@[simp] theorem State.respond_isBusy (s : State) (r : Response) : (s.respond r).isBusy = s.isBusy := rfl
@[simp] theorem State.respond_byteAt (s : State) (r : Response) (x : Nat) : (s.respond r).byteAt x = s.byteAt x := rfl

/-! ### Result registers -/

theorem Results.read_write (r : Results) (x y : ResultReg) (v : Word) :
    (r.write x v).read y = if x = y then v else r.read y := by
  cases x <;> cases y <;> rfl

theorem Results.ext_read {r q : Results} (h : ∀ x, r.read x = q.read x) : r = q := by
  cases r; cases q
  have h0 := h .inBits; have h1 := h .outBits; have h2 := h .outBytes; have h3 := h .runs
  have h4 := h .nsym; have h5 := h .maxlen; have h6 := h .resLo; have h7 := h .resHi
  simp_all [Results.read]

/-- A register not in the list keeps its value. -/
theorem Results.read_foldl_write (vs : List (ResultReg × Word)) (r : Results) (x : ResultReg)
    (h : ∀ v ∈ vs, v.1 ≠ x) : (vs.foldl (fun r v => r.write v.1 v.2) r).read x = r.read x := by
  induction vs generalizing r with
  | nil => rfl
  | cons v vs ih =>
    rw [List.foldl_cons, ih _ fun w hw => h w (by simp [hw]), Results.read_write, if_neg (h v (by simp))]

/-- Zeroing result registers: the named ones read 0 and the others keep their value (R920). -/
theorem Results.read_zero (rs : List ResultReg) (r : Results) (x : ResultReg) :
    ((rs.map fun y => (y, (0 : Word))).foldl (fun r v => r.write v.1 v.2) r).read x =
      if x ∈ rs then 0 else r.read x := by
  induction rs generalizing r with
  | nil => simp
  | cons y rs ih =>
    rw [List.map_cons, List.foldl_cons, ih, Results.read_write]
    by_cases h1 : x ∈ rs
    · simp [h1]
    · by_cases h2 : y = x
      · simp [h2]
      · have h3 : ¬x = y := fun h => h2 h.symm
        simp [h1, h2, h3]

end Sys2Proof.Machine
end

