-- ==== Sys2Proof/Laws/Commands.lean ====
section
/-! SUPPORT. The shared operations of the commands: what raising an error, the checks and the delivery of an encoder's output
can do. -/

namespace Sys2Proof.Machine

/-! ### Raising an error -/

/-- A check error (R920): only the error registers, the command's result registers and the end of the command. -/
theorem raise_check (s : State) (rs : List ResultReg) (e : CmdError) (h : e.isData = false) :
    s.raise rs e = { s with
      phase := .idle, intrDone := true, errCode := e.code, errInfo0 := e.info0, errInfo1 := e.info1
      results := (s.zeroResults rs).results } := by
  simp [State.raise, h, State.setError, State.zeroResults, State.setResults, State.complete]

/-- A data error (R920): besides, free values in the destination region. -/
theorem raise_data (s : State) (rs : List ResultReg) (e : CmdError) (h : e.isData = true) :
    s.raise rs e = { s with
      phase := .idle, intrDone := true, errCode := e.code, errInfo0 := e.info0, errInfo1 := e.info1
      results := (s.zeroResults rs).results, mem := (s.smear s.dstRegion).mem, draws := s.draws + 1 } := by
  simp [State.raise, h, State.setError, State.zeroResults, State.setResults, State.complete, State.smear]

theorem read_raise (s : State) (rs : List ResultReg) (e : CmdError) (x : ResultReg) :
    (s.raise rs e).results.read x = if x ∈ rs then 0 else s.results.read x := by
  cases h : e.isData
  · rw [raise_check _ _ _ h]; exact Results.read_zero rs s.results x
  · rw [raise_data _ _ _ h]; exact Results.read_zero rs s.results x

/-- No error changes a byte outside the destination region, and a check error changes none at all (R920). -/
theorem byteAt_raise (s : State) (rs : List ResultReg) (e : CmdError) (x : Nat)
    (h : e.isData = false ∨ s.dstRegion.has x = false) : (s.raise rs e).byteAt x = s.byteAt x := by
  cases hd : e.isData
  · rw [raise_check _ _ _ hd]; rfl
  · rw [raise_data _ _ _ hd]
    have := byteAt_smear_outside s s.dstRegion x (by simpa [hd] using h)
    simpa [State.byteAt] using this

@[simp] theorem raise_memLog (s : State) (rs : List ResultReg) (e : CmdError) : (s.raise rs e).memLog = s.memLog := by
  cases hd : e.isData <;> simp [raise_check, raise_data, hd]

@[simp] theorem raise_rstN (s : State) (rs : List ResultReg) (e : CmdError) : (s.raise rs e).rstN = s.rstN := by
  cases hd : e.isData <;> simp [raise_check, raise_data, hd]

@[simp] theorem raise_phase (s : State) (rs : List ResultReg) (e : CmdError) : (s.raise rs e).phase = .idle := by
  cases hd : e.isData <;> simp [raise_check, raise_data, hd]

@[simp] theorem raise_ie (s : State) (rs : List ResultReg) (e : CmdError) : (s.raise rs e).ie = s.ie := by
  cases hd : e.isData <;> simp [raise_check, raise_data, hd]

@[simp] theorem raise_intrDone (s : State) (rs : List ResultReg) (e : CmdError) : (s.raise rs e).intrDone = true := by
  cases hd : e.isData <;> simp [raise_check, raise_data, hd]

@[simp] theorem raise_intrDrop (s : State) (rs : List ResultReg) (e : CmdError) : (s.raise rs e).intrDrop = s.intrDrop := by
  cases hd : e.isData <;> simp [raise_check, raise_data, hd]

@[simp] theorem raise_errCode (s : State) (rs : List ResultReg) (e : CmdError) : (s.raise rs e).errCode = e.code := by
  cases hd : e.isData <;> simp [raise_check, raise_data, hd]

@[simp] theorem raise_errInfo0 (s : State) (rs : List ResultReg) (e : CmdError) : (s.raise rs e).errInfo0 = e.info0 := by
  cases hd : e.isData <;> simp [raise_check, raise_data, hd]

@[simp] theorem raise_errInfo1 (s : State) (rs : List ResultReg) (e : CmdError) : (s.raise rs e).errInfo1 = e.info1 := by
  cases hd : e.isData <;> simp [raise_check, raise_data, hd]

@[simp] theorem raise_args (s : State) (rs : List ResultReg) (e : CmdError) : (s.raise rs e).args = s.args := by
  cases hd : e.isData <;> simp [raise_check, raise_data, hd]

@[simp] theorem raise_ft (s : State) (rs : List ResultReg) (e : CmdError) : (s.raise rs e).ft = s.ft := by
  cases hd : e.isData <;> simp [raise_check, raise_data, hd]

@[simp] theorem raise_tree (s : State) (rs : List ResultReg) (e : CmdError) : (s.raise rs e).tree = s.tree := by
  cases hd : e.isData <;> simp [raise_check, raise_data, hd]

@[simp] theorem raise_ct (s : State) (rs : List ResultReg) (e : CmdError) : (s.raise rs e).ct = s.ct := by
  cases hd : e.isData <;> simp [raise_check, raise_data, hd]

@[simp] theorem raise_memDraw (s : State) (rs : List ResultReg) (e : CmdError) : (s.raise rs e).memDraw = s.memDraw := by
  cases hd : e.isData <;> simp [raise_check, raise_data, hd]

@[simp] theorem raise_hostQ (s : State) (rs : List ResultReg) (e : CmdError) : (s.raise rs e).hostQ = s.hostQ := by
  cases hd : e.isData <;> simp [raise_check, raise_data, hd]

@[simp] theorem raise_resp (s : State) (rs : List ResultReg) (e : CmdError) : (s.raise rs e).resp = s.resp := by
  cases hd : e.isData <;> simp [raise_check, raise_data, hd]

/-- An error keeps the memory's form. -/
theorem memOk_raise {s : State} (h : s.memOk = true) (rs : List ResultReg) (e : CmdError) : (s.raise rs e).memOk = true := by
  cases hd : e.isData
  · rw [raise_check _ _ _ hd]; exact h
  · rw [raise_data _ _ _ hd]; exact memOk_smear h s.dstRegion

theorem legalErrCode_code (e : CmdError) : legalErrCode e.code = true := by cases e <;> rfl

theorem code_ne_zero (e : CmdError) : e.code ≠ 0 := by cases e <;> simp [CmdError.code]

/-! ### Checks -/

@[simp] theorem require_true (e : CmdError) : require true e = none := rfl

@[simp] theorem require_false (e : CmdError) : require false e = some e := rfl

theorem require_eq_none {b : Bool} {e : CmdError} : require b e = none ↔ b = true := by cases b <;> simp

/-- The checks pass exactly when each of them passes. -/
theorem firstError_eq_none {cs : List (Option CmdError)} : firstError cs = none ↔ ∀ c ∈ cs, c = none := by
  induction cs with
  | nil => simp [firstError]
  | cons c cs ih => cases c <;> simp [firstError, ih]

theorem firstError_mem {cs : List (Option CmdError)} {e : CmdError} (h : firstError cs = some e) : some e ∈ cs := by
  induction cs with
  | nil => simp [firstError] at h
  | cons c cs ih =>
    cases c with
    | none => exact List.mem_cons_of_mem _ (ih h)
    | some d => simp [firstError] at h; simp [h]

/-- A checked command raises its first error or runs its body. -/
theorem checked_cases (s : State) (rs : List ResultReg) (cs : List (Option CmdError)) (body : State) :
    (∃ e, firstError cs = some e ∧ s.checked rs cs body = s.raise rs e) ∨
      firstError cs = none ∧ s.checked rs cs body = body := by
  unfold State.checked
  cases firstError cs <;> simp

theorem checked_pass {s : State} {rs : List ResultReg} {cs : List (Option CmdError)} {body : State}
    (h : ∀ c ∈ cs, c = none) : s.checked rs cs body = body := by
  simp [State.checked, firstError_eq_none.mpr h]

theorem checked_fail {s : State} {rs : List ResultReg} {cs : List (Option CmdError)} {body : State} {e : CmdError}
    (h : firstError cs = some e) : s.checked rs cs body = s.raise rs e := by
  simp [State.checked, h]

/-- No check is a data error. -/
theorem require_isData {b : Bool} {e d : CmdError} (h : require b e = some d) : d = e := by
  cases b <;> simp_all

/-! ### Delivering an encoder's output -/

/-- The output fits: the bytes are stored at DST_ADDR and the results written. -/
theorem deliver_fits {s : State} {rs : List ResultReg} {bs : List Byte} {vs : List (ResultReg × Word)}
    (h : bs.length ≤ s.snap.dstCap.toNat) :
    s.deliver rs bs vs = { s with
      phase := .idle, intrDone := true, mem := memStore s.mem s.snap.dstAddr.toNat bs
      results := (s.setResults vs).results } := by
  rw [State.deliver, if_neg (by omega)]
  rfl

/-- The output does not fit: OutputOverflow. -/
theorem deliver_overflow {s : State} {rs : List ResultReg} {bs : List Byte} {vs : List (ResultReg × Word)}
    (h : s.snap.dstCap.toNat < bs.length) :
    s.deliver rs bs vs = s.raise rs (.outputOverflow bs.length s.snap.dstCap) := by
  rw [State.deliver, if_pos h]

/-- The bytes an encoder stores, and those it leaves. -/
theorem byteAt_deliver_inside {s : State} {rs : List ResultReg} {bs : List Byte} {vs : List (ResultReg × Word)}
    (h : bs.length ≤ s.snap.dstCap.toNat) (i : Nat) (hi : i < bs.length) :
    (s.deliver rs bs vs).byteAt (s.snap.dstAddr.toNat + i) = bs.getD i 0 := by
  rw [deliver_fits h]
  exact byteAt_storeBytes_inside s s.snap.dstAddr.toNat bs i hi

theorem byteAt_deliver_outside {s : State} {rs : List ResultReg} {bs : List Byte} {vs : List (ResultReg × Word)}
    (h : bs.length ≤ s.snap.dstCap.toNat) (x : Nat)
    (hx : x < s.snap.dstAddr.toNat ∨ s.snap.dstAddr.toNat + bs.length ≤ x) :
    (s.deliver rs bs vs).byteAt x = s.byteAt x := by
  rw [deliver_fits h]
  exact byteAt_storeBytes_outside s s.snap.dstAddr.toNat bs x hx

/-- The destination region, as the commands and the errors name it. -/
theorem dstRegion_has (s : State) (x : Nat) :
    s.dstRegion.has x = false ↔ x < s.snap.dstAddr.toNat ∨ s.snap.dstAddr.toNat + s.snap.dstCap.toNat ≤ x := by
  unfold Region.has State.dstRegion
  rw [Bool.and_eq_false_iff, decide_eq_false_iff_not, decide_eq_false_iff_not]
  simp only
  omega

/-- Nothing outside the destination region changes, whether the output fits or not. -/
theorem byteAt_deliver {s : State} {rs : List ResultReg} {bs : List Byte} {vs : List (ResultReg × Word)} (x : Nat)
    (hx : s.dstRegion.has x = false) : (s.deliver rs bs vs).byteAt x = s.byteAt x := by
  by_cases h : bs.length ≤ s.snap.dstCap.toNat
  · have := (dstRegion_has s x).mp hx
    exact byteAt_deliver_outside h x (by omega)
  · rw [deliver_overflow (by omega)]
    exact byteAt_raise _ _ _ _ (.inr hx)

end Sys2Proof.Machine
end

