-- ==== Sys2Proof/Laws/Encoders.lean ====
section
/-! SUPPORT. The encoders: the source bytes, counts, code streams and their layouts in DMEM, runs, expanded bytes and ratios. -/

namespace Sys2Proof.Machine

/-! ### The source -/

theorem source_eq (s : State) : s.source = (List.range s.srcCount).map s.srcByte := rfl

@[simp] theorem length_source (s : State) : s.source.length = s.srcCount := by simp [source_eq]

theorem dmemSize_le (s : State) : s.dmemSize ≤ 2 ^ 24 := by
  have : s.memLog.val ≤ 12 := by omega
  exact Nat.pow_le_pow_right (by omega) (by omega)

theorem length_filter_eq_count (bs : List Byte) (b : Byte) : (bs.filter fun c => decide (c = b)).length = bs.count b := by
  rw [List.count_eq_countP, List.countP_eq_length_filter]
  rfl

/-- FREQ's table counts the source (R401); no count can overflow (R131). -/
theorem freqOf_counts {s : State} (h : s.srcOk) : s.countsSource (freqOf s.source) := by
  intro b
  have h1 : ((List.range s.srcCount).filter fun i => decide (s.srcByte i = b)).length = s.source.count b := by
    rw [← length_filter_eq_count, source_eq, List.filter_map, List.length_map]
    rfl
  have h2 : s.source.count b ≤ s.srcCount := by
    have := List.count_le_length (a := b) (l := s.source)
    simpa using this
  have h3 := dmemSize_le s
  simp only [freqOf, Table.entry_tab, BitVec.toNat_ofNat, h1]
  simp only [State.srcOk] at h
  omega

theorem sum_count (bs : List Byte) : (allSymbols.map fun b => bs.count b).sum = bs.length := by
  induction bs with
  | nil => simp
  | cons c bs ih =>
    have h1 : ∀ l : List Byte, l.Nodup → c ∈ l →
        (l.map fun b => (c :: bs).count b).sum = (l.map fun b => bs.count b).sum + 1 := by
      intro l hl hc
      induction l with
      | nil => simp at hc
      | cons d l ihl =>
        rw [List.nodup_cons] at hl
        by_cases hd : d = c
        · subst hd
          have h2 : (l.map fun b => (d :: bs).count b) = l.map fun b => bs.count b := by
            apply List.map_congr_left
            intro b hb
            rw [List.count_cons_of_ne]
            rintro rfl; exact hl.1 hb
          simp only [List.map_cons, List.sum_cons, h2, List.count_cons_self]
          omega
        · have hc' : c ∈ l := (List.mem_cons.mp hc).resolve_left fun e => hd e.symm
          rw [List.map_cons, List.map_cons, List.sum_cons, List.sum_cons, ihl hl.2 hc',
            List.count_cons_of_ne (Ne.symm hd)]
          omega
    rw [h1 _ allSymbols_nodup (mem_allSymbols c), ih, List.length_cons]

/-- A sum over a sequence, taken symbol by symbol. -/
theorem sum_by_symbol (bs : List Byte) (f : Byte → Nat) :
    (bs.map f).sum = (allSymbols.map fun b => bs.count b * f b).sum := by
  induction bs with
  | nil => simp
  | cons c bs ih =>
    have h1 : ∀ l : List Byte, l.Nodup → c ∈ l →
        (l.map fun b => (c :: bs).count b * f b).sum = (l.map fun b => bs.count b * f b).sum + f c := by
      intro l hl hc
      induction l with
      | nil => simp at hc
      | cons d l ihl =>
        rw [List.nodup_cons] at hl
        by_cases hd : d = c
        · subst hd
          have h2 : (l.map fun b => (d :: bs).count b * f b) = l.map fun b => bs.count b * f b := by
            apply List.map_congr_left
            intro b hb
            rw [List.count_cons_of_ne]
            rintro rfl; exact hl.1 hb
          simp only [List.map_cons, List.sum_cons, h2, List.count_cons_self, Nat.add_mul, Nat.one_mul]
          omega
        · have hc' : c ∈ l := (List.mem_cons.mp hc).resolve_left fun e => hd e.symm
          rw [List.map_cons, List.map_cons, List.sum_cons, List.sum_cons, ihl hl.2 hc',
            List.count_cons_of_ne (Ne.symm hd)]
          omega
    rw [h1 _ allSymbols_nodup (mem_allSymbols c), ← ih, List.map_cons, List.sum_cons]
    omega

/-- A source symbol has a count above 0, and only such a symbol has. -/
theorem freqOf_ne_zero {bs : List Byte} (h : bs.length < 2 ^ 32) (b : Byte) : (freqOf bs).entry b ≠ 0 ↔ b ∈ bs := by
  have h2 := List.count_le_length (a := b) (l := bs)
  rw [← List.count_pos_iff, freqOf, Table.entry_tab, ne_eq, ← BitVec.toNat_inj, BitVec.toNat_ofNat]
  simp only [BitVec.ofNat_eq_ofNat, BitVec.toNat_ofNat]
  omega

theorem freqOf_distinct {bs : List Byte} (h : bs.length < 2 ^ 32) (hn : bs ≠ []) : distinct (freqOf bs) ≠ 0 := by
  obtain ⟨b, hb⟩ := List.exists_mem_of_ne_nil bs hn
  intro h0
  rw [distinct, List.countP_eq_zero] at h0
  have := (freqOf_ne_zero h b).mpr hb
  exact h0 b (mem_allSymbols b) (bne_iff_ne.mpr this)

/-! ### Code streams -/

theorem codeStream_source (s : State) (ct : CodeTable) : codeStream ct s.source = s.sourceCodes ct := by
  rw [codeStream, source_eq, List.flatMap_map]
  rfl

theorem length_codeStream (ct : CodeTable) (bs : List Byte) :
    (codeStream ct bs).length = (bs.map fun b => (ct.entry b).length).sum := by
  simp [codeStream, List.length_flatMap]

/-- The scan for an unknown symbol finds the first one, by index (R530). -/
theorem firstUnknown_eq_none (ct : CodeTable) (i : Nat) (bs : List Byte) :
    firstUnknown ct i bs = none ↔ ∀ b ∈ bs, ct.entry b ≠ [] := by
  induction bs generalizing i with
  | nil => simp [firstUnknown]
  | cons b bs ih => by_cases h : (ct.entry b).length = 0 <;> simp_all [firstUnknown]

theorem firstUnknown_eq_some (ct : CodeTable) (i j : Nat) (b : Byte) (bs : List Byte)
    (hb : bs[j]? = some b) (hu : ct.entry b = []) (hk : ∀ k < j, ∀ c, bs[k]? = some c → ct.entry c ≠ []) :
    firstUnknown ct i bs = some (i + j, b) := by
  induction bs generalizing i j with
  | nil => simp at hb
  | cons c bs ih =>
    cases j with
    | zero => simp at hb; subst hb; simp [firstUnknown, hu]
    | succ j =>
      have hc := hk 0 (by omega) c (by simp)
      rw [firstUnknown, if_neg (by simpa using hc), ih (i + 1) j (by simpa using hb)
        fun k hkj d hd => hk (k + 1) (by omega) d (by simpa using hd)]
      congr 2; omega

theorem firstUnknown_some_mem {ct : CodeTable} {i : Nat} {bs : List Byte} {u : Nat × Byte}
    (h : firstUnknown ct i bs = some u) : u.2 ∈ bs ∧ ct.entry u.2 = [] := by
  induction bs generalizing i with
  | nil => simp [firstUnknown] at h
  | cons b bs ih =>
    rw [firstUnknown] at h
    split at h
    · rename_i hb
      cases h
      exact ⟨by simp, List.length_eq_zero_iff.mp hb⟩
    · exact ⟨List.mem_cons_of_mem _ (ih h).1, (ih h).2⟩

/-- The number of bytes of a layout, as the rules compute it. -/
theorem layoutSize_eq (a : Layout) (n : Nat) : layoutSize a n = bytesNeeded a n := by cases a <;> rfl

/-- Bytes that stand in DMEM as a layout gives them hold the stream (R240, R241). -/
theorem holdsStream_of_bytes {t : State} {a : Layout} {d : Nat} {b : BitSeq}
    (h : ∀ i < (layoutBytes a b).length, t.byteAt (d + i) = (layoutBytes a b).getD i 0) : t.holdsStream a d b := by
  cases a with
  | packed =>
    intro k hk
    have hlen : (layoutBytes .packed b).length = (b.length + 7) / 8 := length_packBits b
    rw [h (k / 8) (by omega)]
    exact getLsbD_packBits b k hk
  | ascii =>
    intro k hk
    have hlen : (layoutBytes .ascii b).length = b.length := length_asciiBits b
    rw [h k (by omega)]
    exact getD_asciiBits b k hk

theorem expandBytes_source (s : State) : expandBytes s.source = s.sourceBits := by
  rw [expandBytes, source_eq, List.flatMap_map]
  rfl

theorem length_expandBytes (bs : List Byte) : (expandBytes bs).length = 8 * bs.length := by
  induction bs with
  | nil => rfl
  | cons b bs ih =>
    have : expandBytes (b :: bs) = expandByte b ++ expandBytes bs := rfl
    rw [this, List.length_append, ih, length_expandByte, List.length_cons]; omega

/-- Byte `j` of the expanded bits, packed again, is source byte `j` (R702). -/
theorem packBits_expandBytes (bs : List Byte) : packBits (expandBytes bs) = bs := by
  have hl : (packBits (expandBytes bs)).length = bs.length := by
    rw [length_packBits, length_expandBytes]; omega
  have hbit : ∀ (bs : List Byte) (j i : Nat), j < bs.length → i < 8 →
      (expandBytes bs).getD (8 * j + i) false = (expandByte (bs.getD j 0)).getD i false := by
    intro bs
    induction bs with
    | nil => intro j i hj; simp at hj
    | cons b bs ih =>
      intro j i hj hi
      have he : expandBytes (b :: bs) = expandByte b ++ expandBytes bs := rfl
      rw [he]
      cases j with
      | zero =>
        rw [List.getD_append _ _ _ _ (by rw [length_expandByte]; omega)]
        simp
      | succ j =>
        rw [List.getD_append_right _ _ _ _ (by rw [length_expandByte]; omega), length_expandByte,
          show 8 * (j + 1) + i - 8 = 8 * j + i by omega, ih j i (by simpa using hj) hi]
        simp
  apply List.ext_getElem hl
  intro j h1 h2
  have h3 := getD_packBits (expandBytes bs) j (by rw [length_packBits] at h1; exact h1)
  rw [List.getD_eq_getElem _ _ h1] at h3
  rw [h3, ← packByte_expandByte bs[j]]
  apply packByte_eq
  intro i hi
  rw [bitAt, hbit bs j i h2 hi, List.getD_eq_getElem _ _ h2]

/-! ### Runs -/

theorem expandRuns_cons (r : Byte × Nat) (rs : List (Byte × Nat)) :
    expandRuns (r :: rs) = List.replicate r.2 r.1 ++ expandRuns rs := rfl

/-- The scan gives runs that expand to what was scanned, each at least 1 long, neighbours different (R603). -/
theorem runsFrom_spec (cur : Byte) (cnt : Nat) (bs : List Byte) (hc : 1 ≤ cnt) :
    expandRuns (runsFrom cur cnt bs) = List.replicate cnt cur ++ bs ∧ (∀ r ∈ runsFrom cur cnt bs, 1 ≤ r.2) ∧
      List.IsChain (fun r q : Byte × Nat => r.1 ≠ q.1) (runsFrom cur cnt bs) ∧
      ∃ n rs, runsFrom cur cnt bs = (cur, n) :: rs := by
  induction bs generalizing cur cnt with
  | nil => simp [runsFrom, expandRuns, hc]
  | cons b bs ih =>
    rw [runsFrom]
    split
    · rename_i h
      subst h
      obtain ⟨h1, h2, h3, h4⟩ := ih b (cnt + 1) (by omega)
      refine ⟨?_, h2, h3, h4⟩
      rw [h1, List.replicate_succ', List.append_assoc]; rfl
    · rename_i h
      obtain ⟨h1, h2, h3, n, rs, h4⟩ := ih b 1 (by omega)
      refine ⟨?_, ?_, ?_, cnt, _, rfl⟩
      · rw [expandRuns_cons, h1]; rfl
      · intro r hr
        rcases List.mem_cons.mp hr with rfl | hr
        · exact hc
        · exact h2 r hr
      · rw [h4] at h3 ⊢
        exact List.isChain_cons_cons.mpr ⟨Ne.symm h, h3⟩

/-- The runs of the source are its maximal runs (R600, R603). -/
theorem runsOf_areRuns {s : State} (h : 0 < s.srcCount) : s.areRuns (runsOf s.source) := by
  have hl := length_source s
  have hs := source_eq s
  generalize s.source = bs at hl hs
  cases bs with
  | nil => simp at hl; omega
  | cons b bs =>
    obtain ⟨h1, h2, h3, -⟩ := runsFrom_spec b 1 bs (by omega)
    exact ⟨by rw [← hs]; simpa [runsOf] using h1, h2, h3⟩

theorem runsFrom_replicate (cur : Byte) (cnt n : Nat) (bs : List Byte) :
    runsFrom cur cnt (List.replicate n cur ++ bs) = runsFrom cur (cnt + n) bs := by
  induction n generalizing cnt with
  | zero => simp
  | succ n ih =>
    rw [List.replicate_succ, List.cons_append, runsFrom, if_pos rfl, ih]
    congr 1; omega

/-- Maximal runs are found again by the scan: they are the only ones (R600). -/
theorem runsOf_expandRuns (rs : List (Byte × Nat)) (h1 : ∀ r ∈ rs, 1 ≤ r.2)
    (h2 : List.IsChain (fun r q : Byte × Nat => r.1 ≠ q.1) rs) : runsOf (expandRuns rs) = rs := by
  induction rs with
  | nil => rfl
  | cons r rs ih =>
    obtain ⟨v, n⟩ := r
    have hn := h1 (v, n) (by simp)
    obtain ⟨m, rfl⟩ : ∃ m, n = m + 1 := ⟨n - 1, by simp at hn; omega⟩
    have key : runsOf (expandRuns ((v, m + 1) :: rs)) = runsFrom v (1 + m) (expandRuns rs) := by
      rw [expandRuns_cons, List.replicate_succ, List.cons_append, runsOf, runsFrom_replicate]
    rw [key]
    have h2' : List.IsChain (fun r q : Byte × Nat => r.1 ≠ q.1) rs := h2.tail
    have ih' := ih (fun r hr => h1 r (by simp [hr])) h2'
    cases rs with
    | nil => simp [expandRuns, runsFrom, Nat.add_comm]
    | cons q rs =>
      obtain ⟨w, k⟩ := q
      have hk := h1 (w, k) (by simp)
      obtain ⟨j, rfl⟩ : ∃ j, k = j + 1 := ⟨k - 1, by simp at hk; omega⟩
      have hne : v ≠ w := (List.isChain_cons_cons.mp h2).1
      rw [expandRuns_cons, List.replicate_succ, List.cons_append, runsOf] at ih'
      rw [expandRuns_cons, List.replicate_succ, List.cons_append, runsFrom, if_neg (Ne.symm hne), ih', Nat.add_comm 1 m]

theorem areRuns_unique {s : State} {rs : List (Byte × Nat)} (h : s.areRuns rs) : rs = runsOf s.source := by
  rw [source_eq, ← h.1, runsOf_expandRuns rs h.2.1 h.2.2]

theorem length_runRecords (rs : List (Byte × Nat)) : (rs.flatMap runRecord).length = 5 * rs.length := by
  induction rs with
  | nil => rfl
  | cons r rs ih =>
    simp only [List.flatMap_cons, List.length_append, ih, List.length_cons, runRecord, length_leBytes]
    omega

/-- Byte `i` of record `j` (R601). -/
theorem getD_runRecords (rs : List (Byte × Nat)) (j i : Nat) (hj : j < rs.length) (hi : i < 5) :
    (rs.flatMap runRecord).getD (5 * j + i) 0 = (runRecord (rs.getD j (0, 0))).getD i 0 := by
  induction rs generalizing j with
  | nil => simp at hj
  | cons r rs ih =>
    have hr : (runRecord r).length = 5 := by simp [runRecord, length_leBytes]
    rw [List.flatMap_cons]
    cases j with
    | zero => rw [List.getD_append _ _ _ _ (by omega)]; simp
    | succ j =>
      rw [List.getD_append_right _ _ _ _ (by omega), hr, show 5 * (j + 1) + i - 5 = 5 * j + i by omega,
        ih j (by simpa using hj)]
      simp

/-- A source has at most as many runs as bytes. -/
theorem length_runsOf (bs : List Byte) : (runsOf bs).length ≤ bs.length := by
  have h : ∀ (bs : List Byte) (cur : Byte) (cnt : Nat), (runsFrom cur cnt bs).length ≤ bs.length + 1 := by
    intro bs
    induction bs with
    | nil => simp [runsFrom]
    | cons b bs ih =>
      intro cur cnt
      rw [runsFrom]
      split
      · have := ih cur (cnt + 1); simp only [List.length_cons]; omega
      · have := ih b 1; simp only [List.length_cons]; omega
  cases bs with
  | nil => simp [runsOf]
  | cons b bs => exact h bs b 1

/-! ### Table images -/

theorem length_flatMap_const {f : Byte → List Byte} {k : Nat} (hf : ∀ b, (f b).length = k) (l : List Byte) :
    (l.flatMap f).length = k * l.length := by
  induction l with
  | nil => simp
  | cons b l ih => rw [List.flatMap_cons, List.length_append, hf, ih, List.length_cons, Nat.mul_add]; omega

/-- Byte `i` of entry `b` of an image whose entries are `k` bytes long. -/
theorem getD_image {f : Byte → List Byte} {k : Nat} (hf : ∀ b, (f b).length = k) (b : Byte) (i : Nat) (hi : i < k) :
    (allSymbols.flatMap f).getD (k * b.toNat + i) 0 = (f b).getD i 0 := by
  have h : ∀ (l : List Byte) (j : Nat), j < l.length →
      (l.flatMap f).getD (k * j + i) 0 = (f (l.getD j 0)).getD i 0 := by
    intro l
    induction l with
    | nil => intro j hj; simp at hj
    | cons c l ih =>
      intro j hj
      rw [List.flatMap_cons]
      cases j with
      | zero => rw [List.getD_append _ _ _ _ (by rw [hf]; omega)]; simp
      | succ j =>
        rw [List.getD_append_right _ _ _ _ (by rw [hf, Nat.mul_add]; omega), hf,
          show k * (j + 1) + i - k = k * j + i by rw [Nat.mul_add]; omega, ih j (by simpa using hj)]
        simp
  have hb : b.toNat < allSymbols.length := by
    have := b.isLt
    simpa [allSymbols] using this
  rw [h allSymbols b.toNat hb]
  congr 2
  have := b.isLt
  rw [allSymbols, getD_map_range _ _ _ _ (by omega)]
  simp

theorem length_ftImage (t : FreqTable) : (ftImage t).length = 1024 := by
  rw [ftImage, length_flatMap_const (k := 4) fun b => length_leBytes 4 _]
  simp [allSymbols]

theorem length_codeImage (c : BitSeq) : (codeImage c).length = 36 := by simp [codeImage]

theorem length_ctImage (t : CodeTable) : (ctImage t).length = 9216 := by
  rw [ctImage, length_flatMap_const (k := 36) fun b => length_codeImage _]
  simp [allSymbols]

/-! ### Ratios -/

/-- RATIO's quotient lies between the bounds of R802. -/
theorem ratioOf_bounds (a b : Nat) (ha : 0 < a) (hb : b < 2 ^ 32) :
    -28147497657958400 ≤ ratioOf a b ∧ ratioOf a b ≤ 6553600 := by
  have ha' : (0 : Int) < (a : Int) := by omega
  rw [ratioOf]
  rcases le_or_gt ((b : Int)) (a : Int) with h | h
  · have h1 : 0 ≤ 6553600 * ((a : Int) - (b : Int)) := by omega
    have h2 : 6553600 * ((a : Int) - (b : Int)) ≤ 6553600 * (a : Int) := by omega
    rw [Int.tdiv_eq_ediv_of_nonneg h1]
    constructor
    · have := Int.ediv_nonneg h1 ha'.le; omega
    · exact Int.ediv_le_of_le_mul ha' h2
  · have h1 : 0 ≤ 6553600 * ((b : Int) - (a : Int)) := by omega
    have h2 : 6553600 * ((a : Int) - (b : Int)) = -(6553600 * ((b : Int) - (a : Int))) := by ring
    have h3 : (0 : Int) ≤ 6553600 * ((b : Int) - (a : Int)) / (a : Int) := Int.ediv_nonneg h1 ha'.le
    have h4 : 6553600 * ((b : Int) - (a : Int)) / (a : Int) ≤ 28147497657958400 := by
      apply Int.ediv_le_of_le_mul ha'
      nlinarith
    rw [h2, Int.neg_tdiv, Int.tdiv_eq_ediv_of_nonneg h1]
    omega

theorem toInt_ratioWord {q : Int} (h1 : -28147497657958400 ≤ q) (h2 : q ≤ 6553600) : (BitVec.ofInt 64 q).toInt = q := by
  rw [BitVec.toInt_ofInt, Int.bmod_eq_of_le (by omega) (by omega)]

theorem append_halves (w : BitVec 64) : (w.extractLsb' 32 32 ++ w.extractLsb' 0 32 : BitVec 64) = w := by
  apply BitVec.eq_of_getLsbD_eq
  intro i hi
  rw [BitVec.getLsbD_append]
  by_cases h : i < 32
  · simp [h]
  · simp only [h, BitVec.getLsbD_extractLsb', if_false]
    rw [show 32 + (i - 32) = i by omega]
    simp; omega

end Sys2Proof.Machine
end

