-- ==== Sys2Proof/Laws/HostPort.lean ====
section
/-! SUPPORT. The host port: where an access goes, and what an event can change. -/

namespace Sys2Proof.Machine

/-! ### Flag words -/

/-- A bit of a one-bit word. -/
theorem getLsbD_bitWord (b : Bool) (i j : Nat) (hi : i < 32) : (bitWord b i).getLsbD j = (decide (i = j) && b) := by
  unfold bitWord
  cases b
  · by_cases h : i = j <;> simp
  · by_cases h : i = j
    · subst h; simp [hi]
    · by_cases h2 : j < i
      · simp [h, h2]
      · simp [h, h2]; omega

/-- The bits of STATUS (R122). -/
theorem getLsbD_statusOf (busy err ftv treev ctv : Bool) (j : Nat) : (statusOf busy err ftv treev ctv).getLsbD j =
    ((decide (0 = j) && busy) || (decide (1 = j) && err) || (decide (2 = j) && ftv) || (decide (3 = j) && treev) ||
      (decide (4 = j) && ctv)) := by
  simp only [statusOf, BitVec.getLsbD_or, getLsbD_bitWord _ _ _ (show 0 < 32 by omega),
    getLsbD_bitWord _ _ _ (show 1 < 32 by omega), getLsbD_bitWord _ _ _ (show 2 < 32 by omega),
    getLsbD_bitWord _ _ _ (show 3 < 32 by omega), getLsbD_bitWord _ _ _ (show 4 < 32 by omega)]

/-- The bits of INTR (R123). -/
theorem getLsbD_intr (s : State) (j : Nat) :
    s.intr.getLsbD j = ((decide (0 = j) && s.intrDone) || (decide (1 = j) && s.intrDrop)) := by
  simp only [State.intr, BitVec.getLsbD_or, getLsbD_bitWord _ _ _ (show 0 < 32 by omega),
    getLsbD_bitWord _ _ _ (show 1 < 32 by omega)]

/-! ### Targets -/

/-- A 4-byte aligned access of the register window reaches the register window (R200). -/
theorem target_register {s : State} {q : Access} (h1 : q.addr.toNat < 0x1000) (h2 : q.addr.toNat % 4 = 0)
    (h3 : q.size = 4) : s.target q = .register q.addr.toNat := by
  simp [State.target, h1, h2, h3]

/-- An aligned access of 1, 2 or 4 bytes inside the DMEM window reaches DMEM (R200). -/
theorem target_dmem {s : State} {q : Access} {a n : Nat} (ha : q.addr.toNat = 0x01000000 + a) (hn : q.size.toNat = n)
    (h1 : n = 1 ∨ n = 2 ∨ n = 4) (h2 : a % n = 0) (h3 : a + n ≤ s.dmemSize) : s.target q = .dmem a n := by
  have h4 : ¬q.addr.toNat < 0x1000 := by omega
  have h5 : ¬q.addr.toNat < Config.dmemBase := by simp only [Config.dmemBase]; omega
  have h6 : q.addr.toNat - Config.dmemBase = a := by simp only [Config.dmemBase]; omega
  have h7 : q.addr.toNat % n = 0 := by rcases h1 with rfl | rfl | rfl <;> omega
  unfold State.target
  simp only [hn]
  rw [if_neg h4, if_neg h5, h6, if_pos ⟨h1, h7, h3⟩]

/-- The bus-error cases are the accesses that reach nothing (R202). -/
theorem target_busError (s : State) (q : Access) : s.target q = .busError ↔ s.busErrorCase q := by
  unfold State.target State.busErrorCase Config.dmemBase
  generalize q.addr.toNat = off
  generalize q.size.toNat = n
  by_cases h1 : off < 0x1000
  · rw [if_pos h1]
    by_cases h2 : n = 4 ∧ off % 4 = 0
    · rw [if_pos h2]; simp; omega
    · rw [if_neg h2]; simp; omega
  · rw [if_neg h1]
    by_cases h2 : off < 0x01000000
    · rw [if_pos h2]; simp; omega
    · rw [if_neg h2]
      by_cases h3 : (n = 1 ∨ n = 2 ∨ n = 4) ∧ off % n = 0 ∧ off - 0x01000000 + n ≤ s.dmemSize
      · rw [if_pos h3]
        obtain ⟨h3, h4, h5⟩ := h3
        simp only [reduceCtorEq, false_iff]
        rintro (h | h | h | h)
        · omega
        · omega
        · omega
        · obtain ⟨-, h | h⟩ := h
          · omega
          · exact h h4
      · rw [if_neg h3]
        simp only [true_iff]
        by_cases h4 : n = 1 ∨ n = 2 ∨ n = 4
        · by_cases h5 : off % n = 0
          · exact .inr (.inl ⟨by omega, by
              have : ¬(off - 0x01000000 + n ≤ s.dmemSize) := fun h => h3 ⟨h4, h5, h⟩
              omega⟩)
          · exact .inr (.inr (.inr ⟨by omega, .inr h5⟩))
        · exact .inr (.inr (.inr ⟨by omega, .inl (by omega)⟩))

/-- A 4-byte write of a register offset. -/
theorem access_write {s : State} {off v : Word} (h1 : off.toNat < 0x1000) (h2 : off.toNat % 4 = 0) :
    s.access ⟨off, true, 4, v⟩ = s.writeRegAt off.toNat v := by
  simp only [State.access]
  rw [target_register h1 h2 rfl]
  simp

/-- A 4-byte read of a register offset. -/
theorem access_read {s : State} {off : Word} (h1 : off.toNat < 0x1000) (h2 : off.toNat % 4 = 0) :
    s.access ⟨off, false, 4, 0⟩ = s.readRegAt off.toNat := by
  simp only [State.access]
  rw [target_register h1 h2 rfl]
  simp

/-- An aligned write of 1, 2 or 4 bytes inside the DMEM window (R203). -/
theorem access_dmem_write {s : State} {a : Nat} {n : BitVec 3} {v : Word} (hn : n = 1 ∨ n = 2 ∨ n = 4) (ha : a % n.toNat = 0)
    (hs : a + n.toNat ≤ s.dmemSize) (hm : s.dmemSize ≤ 2 ^ 24) :
    s.access ⟨BitVec.ofNat 32 (0x01000000 + a), true, n, v⟩ = (s.dmemWrite a n.toNat v).respond .writeOk := by
  rw [State.access, target_dmem (a := a) (n := n.toNat) (by simp; omega) rfl
    (by rcases hn with rfl | rfl | rfl <;> simp) ha hs]
  rfl

/-- An aligned read of 1, 2 or 4 bytes inside the DMEM window (R203). -/
theorem access_dmem_read {s : State} {a : Nat} {n : BitVec 3} {v : Word} (hn : n = 1 ∨ n = 2 ∨ n = 4) (ha : a % n.toNat = 0)
    (hs : a + n.toNat ≤ s.dmemSize) (hm : s.dmemSize ≤ 2 ^ 24) :
    s.access ⟨BitVec.ofNat 32 (0x01000000 + a), false, n, v⟩ =
      (s.drawIf (s.dmemReadDraws a n.toNat)).respond (.readOk (s.dmemRead a n.toNat)) := by
  rw [State.access, target_dmem (a := a) (n := n.toNat) (by simp; omega) rfl
    (by rcases hn with rfl | rfl | rfl <;> simp) ha hs]
  rfl

/-- The answer to a register read (R120). -/
theorem resp_readRegAt (s : State) (off : Nat) :
    (s.readRegAt off).resp = some (.readOk (match regAt off with | some x => s.regRead x | none => 0)) := by
  unfold State.readRegAt
  cases regAt off <;> rfl

/-- Every register but STATUS and the result registers reads exactly in both phases (R1022). -/
theorem regRead_exact (s : State) (x : Reg) (h1 : x ≠ .status) (h2 : ∀ r, x ≠ .result r) : s.regRead x = s.regValue x := by
  unfold State.regRead
  split
  · cases x <;> first | rfl | exact absurd rfl h1 | exact absurd rfl (h2 _)
  · rfl

/-- Offsets are named by `Reg.offset`. -/
theorem regAt_offset (x : Reg) : regAt x.offset = some x := by
  cases x with
  | result r => cases r <;> rfl
  | _ => rfl

theorem offset_of_regAt {off : Nat} {x : Reg} (h : regAt off = some x) : off = x.offset := by
  unfold regAt at h
  split at h <;> first | (cases h; rfl) | cases h

/-! ### What an event leaves -/

/-- A read changes nothing but the answer and the free draws. -/
theorem readRegAt_eq (s : State) (off : Nat) :
    ∃ n r, s.readRegAt off = { s with draws := n, resp := some r } := by
  unfold State.readRegAt
  cases regAt off with
  | none => exact ⟨s.draws, _, rfl⟩
  | some x =>
    refine ⟨(s.drawIf (s.regReadDraws x)).draws, .readOk (s.regRead x), ?_⟩
    simp only
    cases s.regReadDraws x <;> rfl

/-- A read of an exactly read register changes nothing but the answer (R120). -/
theorem readRegAt_exact {s : State} {off : Nat} {x : Reg} (h : regAt off = some x) (h1 : x ≠ .status)
    (h2 : ∀ r, x ≠ .result r) : s.readRegAt off = { s with resp := some (.readOk (s.regValue x)) } := by
  have hd : s.regReadDraws x = false := by
    unfold State.regReadDraws
    cases x <;> first | exact absurd rfl h1 | exact absurd rfl (h2 _) | exact Bool.and_false _
  unfold State.readRegAt
  rw [h]
  simp only [hd, regRead_exact s x h1 h2]
  rfl

/-- A write of the DMEM window never reaches a register: it changes memory and the running command's record. -/
theorem dmemWrite_eq (s : State) (a n : Nat) (v : Word) :
    s.dmemWrite a n v = { s with phase := (s.noteWrite a n).phase, mem := memStore s.mem a (leBytes n v.toNat) } := by
  unfold State.dmemWrite State.memWrite State.storeBytes State.noteWrite
  cases s.phase <;> rfl

end Sys2Proof.Machine
end

