-- ==== Sys2Proof/Laws/Decode.lean ====
section
/-! SUPPORT. The fields of a command word (R301) and the illegal words (R310). -/

namespace Sys2Proof.Machine

/-- A bit of a word with given fields (R301). -/
theorem getLsbD_word (f : Fields) (i : Nat) : f.word.getLsbD i =
    if i < 8 then f.op.getLsbD i else if i = 8 then f.a else f.rsv.getLsbD (i - 9) := by
  unfold Fields.word
  rw [BitVec.getLsbD_append]
  split
  · rw [BitVec.getLsbD_append]
    split
    · rfl
    · rename_i h h'
      obtain rfl : i = 8 := by omega
      simp
  · rename_i h
    rw [if_neg (by omega), if_neg (by omega)]

/-- The fields make up the word again: no bit is outside them (R301). -/
theorem word_fieldsOf (w : Word) : (fieldsOf w).word = w := by
  apply BitVec.eq_of_getLsbD_eq
  intro i hi
  rw [getLsbD_word]
  split
  · simp [fieldsOf]; omega
  · split
    · rename_i h; subst h; rfl
    · simp only [fieldsOf, BitVec.getLsbD_extractLsb']
      rw [show 9 + (i - 9) = i by omega]
      simp; omega

/-- The fields of a word are those it was made from (R301). -/
theorem fieldsOf_word (f : Fields) : fieldsOf f.word = f := by
  obtain ⟨r, a, o⟩ := f
  simp only [fieldsOf, Fields.mk.injEq]
  refine ⟨?_, ?_, ?_⟩
  · apply BitVec.eq_of_getLsbD_eq
    intro i hi
    rw [BitVec.getLsbD_extractLsb', getLsbD_word, if_neg (by omega), if_neg (by omega), Nat.add_sub_cancel_left]
    simp [hi]
  · rw [getLsbD_word, if_neg (by omega), if_pos rfl]
  · apply BitVec.eq_of_getLsbD_eq
    intro i hi
    rw [BitVec.getLsbD_extractLsb', Nat.zero_add, getLsbD_word, if_pos hi]
    simp [hi]

/-- The fields as numbers. -/
theorem fieldsOf_toNat (w : Word) : (fieldsOf w).rsv.toNat = w.toNat / 2 ^ 9 ∧ (fieldsOf w).op.toNat = w.toNat % 256 := by
  have := w.isLt
  constructor
  · simp only [fieldsOf, BitVec.extractLsb'_toNat, Nat.shiftRight_eq_div_pow]
    omega
  · simp [fieldsOf]

/-- Decoding refuses exactly the illegal words (R310, R320). -/
theorem decode_isOk (w : Word) : (∃ i, decode w = .ok i) ↔ ¬isIllegal w := by
  obtain ⟨h1, h2⟩ := fieldsOf_toNat w
  rw [isIllegal, ← h1, ← h2, show w.getLsbD 8 = (fieldsOf w).a from rfl, decode]
  generalize fieldsOf w = f
  obtain ⟨r, a, o⟩ := f
  simp only
  by_cases hr : r = 0
  · subst hr
    by_cases ho : o.toNat ≤ 13
    · generalize o.toNat = n at *
      interval_cases n <;> cases a <;> simp [mnemonicOf, flagOpcode]
    · have : o.toNat > 13 := by omega
      simp [this]; omega
  · have : r.toNat ≠ 0 := fun h => hr (BitVec.eq_of_toNat_eq (by simpa using h))
    rw [if_pos hr]
    simp [this]

theorem decode_illegal {w : Word} (h : isIllegal w) : ∃ e, decode w = .error e := by
  cases hd : decode w with
  | error e => exact ⟨e, rfl⟩
  | ok i => exact absurd h ((decode_isOk w).mp ⟨i, hd⟩)

end Sys2Proof.Machine
end

