-- ==== Sys2Proof/Laws/Step.lean ====
section
/-! SUPPORT. What a step can do: complete the running command, or serve one event of the host. -/

namespace Sys2Proof.Machine

theorem exec_next (i : Instr) (s : State) : ∃ t, exec i s = .next t := by
  cases i <;> exact ⟨_, rfl⟩

/-- The engine's turn, as the claims name it (R112, R1040). -/
theorem engineTurn_eq_some {s : State} {r : Run} : s.engineTurn = some r ↔ s.completing r := by
  simp only [State.engineTurn, State.completing]
  cases hp : s.phase with
  | idle => simp
  | busy q =>
    have hw : (s.hostWaits || q.delay == 0) = true ↔ s.hostQ = [] ∨ (∃ es, s.hostQ = .wait :: es) ∨ q.delay = 0 := by
      cases hq : s.hostQ with
      | nil => simp [State.hostWaits, hq]
      | cons e es => cases e <;> simp [State.hostWaits, hq]
    simp only [Phase.busy.injEq]
    constructor
    · intro h
      split at h
      · rename_i hc
        rw [Bool.and_eq_true] at hc
        obtain rfl : q = r := by simpa using h
        exact ⟨rfl, hc.1, hw.mp hc.2⟩
      · simp at h
    · rintro ⟨rfl, h1, h2⟩
      rw [if_pos (by rw [h1, hw.mpr h2]; rfl)]

theorem step_completing {s : State} {r : Run} (h : s.completing r) : step s = s.completion r := by
  rw [step, engineTurn_eq_some.mpr h]

/-- The completion of an illegal word (R310). -/
theorem completion_illegal {s : State} {r : Run} (h : isIllegal r.word) :
    s.completion r = .next (s.raise [] (.illegalCommand r.word)) := by
  obtain ⟨e, he⟩ := decode_illegal h
  simp [State.completion, he]

/-- The completion of a command whose input the host left alone. -/
theorem completion_exec {s : State} {r : Run} {i : Instr} {t : State} (hd : decode r.word = .ok i)
    (hr : r.raced = false) (ht : exec i s = .next t) : s.completion r = .next (t.smearTouched r.touched) := by
  simp [State.completion, hd, hr, ht]

/-- The completion of a command whose input the host wrote (R1020). -/
theorem completion_raced {s : State} {r : Run} {i : Instr} (hd : decode r.word = .ok i) (hr : r.raced = true) :
    s.completion r = .next (s.raceCompletion i r.snap) := by
  simp [State.completion, hd, hr]

/-- Everything a step can be: an illegal word, a command, a raced command, or the host's turn. -/
theorem step_cases (s : State) :
    (∃ r, s.completing r ∧ isIllegal r.word ∧ step s = .next (s.raise [] (.illegalCommand r.word))) ∨
    (∃ r i t, s.completing r ∧ decode r.word = .ok i ∧ r.raced = false ∧ exec i s = .next t ∧
      step s = .next (t.smearTouched r.touched)) ∨
    (∃ r i, s.completing r ∧ decode r.word = .ok i ∧ r.raced = true ∧ step s = .next (s.raceCompletion i r.snap)) ∨
    ((∀ r, ¬s.completing r) ∧ step s = .next s.hostTurn) := by
  cases he : s.engineTurn with
  | none =>
    refine .inr (.inr (.inr ⟨fun r hr => ?_, by rw [step, he]⟩))
    rw [engineTurn_eq_some.mpr hr] at he
    cases he
  | some r =>
    have hc := engineTurn_eq_some.mp he
    by_cases hi : isIllegal r.word
    · exact .inl ⟨r, hc, hi, by rw [step_completing hc, completion_illegal hi]⟩
    · obtain ⟨i, hd⟩ := (decode_isOk _).mpr hi
      obtain ⟨t, ht⟩ := exec_next i s
      cases hr : r.raced
      · exact .inr (.inl ⟨r, i, t, hc, hd, hr, ht, by rw [step_completing hc, completion_exec hd hr ht]⟩)
      · exact .inr (.inr (.inl ⟨r, i, hc, hd, hr, by rw [step_completing hc, completion_raced hd hr]⟩))

end Sys2Proof.Machine
end

