-- ==== Sys2Proof/Laws/Claims.lean ====
section
/-! SUPPORT. The words of the claims (Safety.lean, from the rules' tables) and the functions of the model say the same. -/

namespace Sys2Proof.Machine

/-- The last column of R125, command by command. -/
theorem mem_resultRegs (i : Instr) (x : ResultReg) : x ∈ resultRegs i ↔ writesResult x i = true := by
  cases i <;> cases x <;> simp [resultRegs, writesResult]

theorem Region.has_iff (g : Region) (x : Nat) : g.has x = true ↔ g.addr ≤ x ∧ x < g.addr + g.len := by
  simp [Region.has]

/-- The region a command may write (R232). -/
theorem mayWriteByte_iff (i : Instr) (a : Args) (x : Nat) :
    mayWriteByte i a x ↔ regionHas (writtenRegion i a) x = true := by
  cases i <;> simp [mayWriteByte, regionHas, writtenRegion, Region.has, Args.dstRegion, Args.tblRegion, ftImageSize,
    ctImageSize]

/-- The region a command may read (R232). -/
theorem mayReadByte_iff (i : Instr) (a : Args) (x : Nat) :
    mayReadByte i a x ↔ regionHas (readRegion i a) x = true := by
  cases i <;> simp [mayReadByte, regionHas, readRegion, Region.has, Args.srcRegion, Args.tblRegion, ftImageSize,
    ctImageSize]

/-- The input of the running command (R1020). -/
theorem isInput_iff (s : State) (x : Nat) : s.isInput x ↔ regionHas s.runningInput x = true := by
  unfold State.isInput State.runningInput
  cases s.phase with
  | idle => simp [regionHas]
  | busy r => cases h : decode r.word <;> simp [regionHas, mayReadByte_iff, h]

/-- The output of the running command (R1021). -/
theorem isOutput_iff (s : State) (x : Nat) : s.isOutput x ↔ regionHas s.runningOutput x = true := by
  unfold State.isOutput State.runningOutput
  cases s.phase with
  | idle => simp [regionHas]
  | busy r => cases h : decode r.word <;> simp [regionHas, mayWriteByte_iff, h]

/-- A host write apart from the running command's regions leaves its record alone (R1020, R1021). -/
theorem noteWrite_apart {s : State} {a n : Nat} (h : ∀ x, a ≤ x → x < a + n → ¬s.isInput x ∧ ¬s.isOutput x) :
    s.noteWrite a n = s := by
  have hin : ((List.range n).map (a + ·)).any (regionHas s.runningInput) = false := by
    simp only [List.any_eq_false, List.mem_map, List.mem_range, Bool.not_eq_true, forall_exists_index, and_imp]
    rintro x j hj rfl
    simpa [isInput_iff] using (h (a + j) (by omega) (by omega)).1
  have hout : ((List.range n).map (a + ·)).filter (regionHas s.runningOutput) = [] := by
    simp only [List.filter_eq_nil_iff, List.mem_map, List.mem_range, forall_exists_index, and_imp]
    rintro x j hj rfl
    exact fun hx => (h (a + j) (by omega) (by omega)).2 ((isOutput_iff _ _).mpr hx)
  unfold State.noteWrite
  split
  · rfl
  · rename_i r hp
    simp only [hin, hout, Bool.or_false, List.append_nil]
    rw [← hp]

/-- A host read apart from the running command's output sees the bytes themselves (R1021). -/
theorem dmemRead_apart {s : State} {a n : Nat} (h : ∀ x, a ≤ x → x < a + n → ¬s.isOutput x) :
    s.dmemRead a n = BitVec.ofNat 32 (s.memRead a n) ∧ s.dmemReadDraws a n = false := by
  have hout : ∀ j < n, regionHas s.runningOutput (a + j) = false := fun j hj => by
    simpa [isOutput_iff] using h (a + j) (by omega) (by omega)
  constructor
  · unfold State.dmemRead State.memRead State.bytesAt
    refine congrArg (fun l => BitVec.ofNat 32 (leValue l)) (List.map_congr_left fun j hj => ?_)
    simp [State.hostByte, hout j (List.mem_range.mp hj)]
  · simpa [State.dmemReadDraws] using hout

/-! ### When the checks pass -/

theorem overlaps_iff (s : State) : s.snap.srcRegion.overlaps s.snap.dstRegion = true ↔ s.regionsOverlap := by
  unfold Region.overlaps Args.srcRegion Args.dstRegion
  simp only [Bool.and_eq_true, decide_eq_true_eq, and_assoc]

theorem srcCheck_eq_none (s : State) : s.srcCheck = none ↔ s.srcOk :=
  require_eq_none.trans decide_eq_true_iff

theorem dstCheck_eq_none (s : State) : s.dstCheck = none ↔ s.dstOk :=
  require_eq_none.trans decide_eq_true_iff

theorem tblCheck_eq_none (s : State) (n : Nat) : s.tblCheck n = none ↔ s.tblOk n :=
  require_eq_none.trans decide_eq_true_iff

theorem overlapCheck_eq_none (s : State) : s.overlapCheck = none ↔ ¬s.regionsOverlap := by
  rw [← overlaps_iff, State.overlapCheck, require_eq_none, Bool.not_eq_true', Bool.not_eq_true]

theorem nonEmptyCheck_eq_none (s : State) : s.nonEmptyCheck = none ↔ 0 < s.srcCount := by
  rw [State.nonEmptyCheck, require_eq_none, bne_iff_ne, State.srcCount, Nat.pos_iff_ne_zero, ne_eq, ne_eq,
    ← BitVec.toNat_inj]
  rfl

theorem ftCheck_eq_none (s : State) : s.ftCheck = none ↔ ∃ t, s.ft = some t := by
  rw [State.ftCheck, require_eq_none, State.ftValid, Option.isSome_iff_exists]

theorem treeCheck_eq_none (s : State) : s.treeCheck = none ↔ ∃ t, s.tree = some t := by
  rw [State.treeCheck, require_eq_none, State.treeValid, Option.isSome_iff_exists]

theorem ctCheck_eq_none (s : State) : s.ctCheck = none ↔ ∃ t, s.ct = some t := by
  rw [State.ctCheck, require_eq_none, State.ctValid, Option.isSome_iff_exists]

theorem ratioCheck_eq_none (s : State) : s.ratioCheck = none ↔ s.snap.arg0 ≠ 0 := by
  rw [State.ratioCheck, require_eq_none, bne_iff_ne]

theorem ftNonEmptyCheck_eq_none (s : State) : s.ftNonEmptyCheck = none ↔ s.ftHeld ≠ Vector.replicate 256 0 := by
  rw [State.ftNonEmptyCheck, require_eq_none, bne_iff_ne, ne_eq, distinct_eq_zero]

/-! ### Free values and raced commands -/

/-- Outside the region a command may write, freeing that region changes no byte. -/
theorem byteAt_smearOpt (s : State) (g : Option Region) (x : Nat) (h : regionHas g x = false) :
    (s.smearOpt g).byteAt x = s.byteAt x := by
  cases g with
  | none => rfl
  | some g => exact byteAt_smear_outside s g x h

theorem memOk_smearOpt {s : State} (h : s.memOk = true) (g : Option Region) : (s.smearOpt g).memOk = true := by
  cases g with
  | none => exact h
  | some g => exact memOk_smear h g

/-- Freeing bytes the host touched keeps the memory's form. -/
theorem memOk_smearTouched {s : State} (h : s.memOk = true) {as : List Nat} (ha : ∀ a ∈ as, a < s.dmemSize) :
    (s.smearTouched as).memOk = true := by
  unfold State.smearTouched
  split
  · exact h
  · exact foldl_memStore_wf (fun a => Config.freeByte s.draws a) as s.mem s.dmemSize h ha

/-- What freeing the touched bytes leaves. -/
theorem smearTouched_eq (s : State) (as : List Nat) :
    s.smearTouched as = { s with mem := (s.smearTouched as).mem, draws := (s.smearTouched as).draws } := by
  unfold State.smearTouched
  split <;> rfl

/-- What freeing a region leaves. -/
theorem smearOpt_eq (s : State) (g : Option Region) :
    s.smearOpt g = { s with mem := (s.smearOpt g).mem, draws := (s.smearOpt g).draws } := by
  cases g <;> rfl

/-- Writing some result registers leaves the others. -/
theorem read_writes (rs : List ResultReg) (g : ResultReg → Word) (q : Results) (x : ResultReg) (h : x ∉ rs) :
    ((rs.map fun r => (r, g r)).foldl (fun r v => r.write v.1 v.2) q).read x = q.read x := by
  induction rs generalizing q with
  | nil => rfl
  | cons r rs ih =>
    simp only [List.mem_cons, not_or] at h
    rw [List.map_cons, List.foldl_cons, ih _ h.2]
    have := h.1
    cases r <;> cases x <;> first | rfl | simp at this

/-- Only the seven codes of R901 are left by a raced command. -/
theorem legalErrCode_errCodeNo (k : Fin 7) : legalErrCode (errCodeNo k) = true := by revert k; decide

/-- Everything the completion of a raced command can change (R1020). -/
theorem raceCompletion_spec (s : State) (i : Instr) (a : Args) : ∃ f t c q m d,
    s.raceCompletion i a = { s with
      phase := .idle, intrDone := true, errCode := errCodeNo (Config.freeErrPick s.draws)
      errInfo0 := Config.freeWord s.draws 8, errInfo1 := Config.freeWord s.draws 9
      ft := f, tree := t, ct := c, results := q, mem := m, draws := d } ∧
    (f = s.ft ∨ writesFt i = true ∧ f = freeFt s.draws) ∧
    (t = s.tree ∨ writesTree i = true ∧ t = freeHTree s.draws) ∧
    (c = s.ct ∨ writesCt i = true ∧ c = freeCt s.draws) ∧
    (∀ x, writesResult x i = false → q.read x = s.results.read x) ∧
    ∀ x, ¬mayWriteByte i a x → (s.raceCompletion i a).byteAt x = s.byteAt x := by
  have hstores : ∃ f t c, s.raceError.raceStores i = { s.raceError with ft := f, tree := t, ct := c } ∧
      (f = s.ft ∨ writesFt i = true ∧ f = freeFt s.draws) ∧
      (t = s.tree ∨ writesTree i = true ∧ t = freeHTree s.draws) ∧
      (c = s.ct ∨ writesCt i = true ∧ c = freeCt s.draws) := by
    cases i <;> refine ⟨_, _, _, rfl, ?_, ?_, ?_⟩ <;> first | exact .inl rfl | exact .inr ⟨rfl, rfl⟩
  obtain ⟨f, t, c, hs, h1, h2, h3⟩ := hstores
  refine ⟨f, t, c, (s.raceCompletion i a).results, (s.raceCompletion i a).mem, (s.raceCompletion i a).draws, ?_, h1, h2,
    h3, ?_, ?_⟩
  · unfold State.raceCompletion
    rw [hs]
    simp only
    rw [smearOpt_eq]
    rfl
  · intro x hx
    have hr : (s.raceCompletion i a).results =
        ((resultRegs i).map fun r => (r, Config.freeWord s.draws r.index)).foldl (fun r v => r.write v.1 v.2)
          s.results := by
      unfold State.raceCompletion
      rw [hs]
      simp only
      rw [smearOpt_eq]
      rfl
    rw [hr]
    refine read_writes (resultRegs i) (fun r => Config.freeWord s.draws r.index) s.results x fun h => ?_
    rw [(mem_resultRegs i x).mp h] at hx
    cases hx
  · intro x hx
    rw [mayWriteByte_iff, Bool.not_eq_true] at hx
    unfold State.raceCompletion
    rw [hs]
    exact byteAt_smearOpt _ _ x hx

end Sys2Proof.Machine
end

