-- ==== Sys2Proof/Laws/Meanings.lean ====
section
/-! SUPPORT. What each command answers when its checks pass, so that no later proof unfolds a meaning. -/

namespace Sys2Proof.Machine

/-- The address checks of an encoder pass. -/
theorem regions_checks {s : State} (h : s.regionsOk) :
    s.srcCheck = none ∧ s.dstCheck = none ∧ s.overlapCheck = none :=
  ⟨(srcCheck_eq_none s).mpr h.1, (dstCheck_eq_none s).mpr h.2.1, (overlapCheck_eq_none s).mpr h.2.2⟩

theorem exec_freq {s : State} (h : s.srcOk) :
    exec .freq s = .next ((s.newFreqTable (freqOf s.source)).setResults [(.inBits, s.inBits)]).complete := by
  show Host.Outcome.next _ = _
  rw [checked_pass (by simp [(srcCheck_eq_none s).mpr h])]

theorem exec_tree {s : State} {ft : FreqTable} (h : s.ft = some ft) (hn : ft ≠ Vector.replicate 256 0) :
    exec .tree s =
      .next ((s.newTree (buildTree ft)).setResults [(.nsym, BitVec.ofNat 32 (distinct ft))]).complete := by
  have hh : s.ftHeld = ft := by simp [State.ftHeld, h]
  have h1 := (ftCheck_eq_none s).mpr ⟨_, h⟩
  have h2 := (ftNonEmptyCheck_eq_none s).mpr (hh ▸ hn)
  show Host.Outcome.next _ = _
  rw [checked_pass, hh]
  intro c hc
  simp only [List.mem_cons, List.not_mem_nil, or_false] at hc
  rcases hc with rfl | rfl <;> assumption

theorem exec_codes {s : State} {h : HTree} (ht : s.tree = some h) :
    exec .codes s = .next ((s.newCodeTable (assignCodes h)).setResults (assignCodes h).results).complete := by
  have hh : s.treeHeld = h := by simp [State.treeHeld, ht]
  show Host.Outcome.next _ = _
  rw [checked_pass (by simp [(treeCheck_eq_none s).mpr ⟨_, ht⟩]), hh]

theorem exec_emit {s : State} {a : Layout} {ct : CodeTable} (h : s.regionsOk) (hc : s.ct = some ct) :
    exec (.emit a) s = .next (s.emitWith a ct) := by
  obtain ⟨h1, h2, h3⟩ := regions_checks h
  have h4 := (ctCheck_eq_none s).mpr ⟨ct, hc⟩
  show Host.Outcome.next _ = _
  rw [checked_pass (by simp [h1, h2, h3, h4]), State.ctHeld, hc]
  rfl

theorem exec_huff {s : State} {a : Layout} (h : s.regionsOk) (hc : 0 < s.srcCount) :
    exec (.huff a) s = .next (s.huffBody a) := by
  obtain ⟨h1, h2, h3⟩ := regions_checks h
  have h4 := (nonEmptyCheck_eq_none s).mpr hc
  show Host.Outcome.next _ = _
  rw [checked_pass (by simp [h1, h2, h3, h4])]

theorem exec_rle {s : State} (h : s.regionsOk) (hc : 0 < s.srcCount) : exec .rle s = .next s.rleBody := by
  obtain ⟨h1, h2, h3⟩ := regions_checks h
  have h4 := (nonEmptyCheck_eq_none s).mpr hc
  show Host.Outcome.next _ = _
  rw [checked_pass (by simp [h1, h2, h3, h4])]

theorem exec_binx {s : State} {a : Layout} (h : s.regionsOk) : exec (.binx a) s = .next (s.binxBody a) := by
  obtain ⟨h1, h2, h3⟩ := regions_checks h
  show Host.Outcome.next _ = _
  rw [checked_pass (by simp [h1, h2, h3])]

theorem exec_ratio {s : State} (h : s.snap.arg0 ≠ 0) :
    exec .ratio s = .next (s.setResults
      [(.resLo, s.ratioWord.extractLsb' 0 32), (.resHi, s.ratioWord.extractLsb' 32 32)]).complete := by
  show Host.Outcome.next _ = _
  rw [checked_pass (by simp [(ratioCheck_eq_none s).mpr h])]

theorem exec_ftload {s : State} (h : s.tblOk 1024) :
    exec .ftload s = .next (s.newFreqTable (Table.tab fun b => s.loadCount s.snap.tblAddr.toNat b)).complete := by
  have h1 := (tblCheck_eq_none s ftImageSize).mpr h
  show Host.Outcome.next _ = _
  rw [checked_pass (by simp [h1])]

theorem exec_ftstore {s : State} {ft : FreqTable} (h : s.tblOk 1024) (hf : s.ft = some ft) :
    exec .ftstore s = .next (s.storeBytes s.snap.tblAddr.toNat (ftImage ft)).complete := by
  have h1 := (tblCheck_eq_none s ftImageSize).mpr h
  have h2 := (ftCheck_eq_none s).mpr ⟨_, hf⟩
  have hh : s.ftHeld = ft := by simp [State.ftHeld, hf]
  show Host.Outcome.next _ = _
  rw [checked_pass (by simp [h1, h2]), hh]

theorem exec_ctload {s : State} (h : s.tblOk 9216) :
    exec .ctload s = .next (s.newCodeTable (Table.tab fun b => s.loadCode s.snap.tblAddr.toNat b)).complete := by
  have h1 := (tblCheck_eq_none s ctImageSize).mpr h
  show Host.Outcome.next _ = _
  rw [checked_pass (by simp [h1])]

theorem exec_ctstore {s : State} {ct : CodeTable} (h : s.tblOk 9216) (hf : s.ct = some ct) :
    exec .ctstore s = .next (s.storeBytes s.snap.tblAddr.toNat (ctImage ct)).complete := by
  have h1 := (tblCheck_eq_none s ctImageSize).mpr h
  have h2 := (ctCheck_eq_none s).mpr ⟨_, hf⟩
  have hh : s.ctHeld = ct := by simp [State.ctHeld, hf]
  show Host.Outcome.next _ = _
  rw [checked_pass (by simp [h1, h2]), hh]

/-- A sum over the symbols, as the claims write it. -/
theorem sum_range_symbols (f : Byte → Nat) :
    ((List.range 256).map fun n => f (BitVec.ofNat 8 n)).sum = (allSymbols.map f).sum := by
  rw [allSymbols, List.map_map]
  rfl

/-- EMIT's body when every source byte has a code (R530). -/
theorem emitWith_known {s : State} {ct : CodeTable} {a : Layout}
    (hk : ∀ i < s.srcCount, ct.entry (s.srcByte i) ≠ []) : s.emitWith a ct =
      s.deliver (resultRegs (.emit a)) (layoutBytes a (s.sourceCodes ct))
        (s.streamResults a (s.sourceCodes ct).length) := by
  have h : firstUnknown ct 0 s.source = none := by
    rw [firstUnknown_eq_none]
    intro b hb
    rw [source_eq, List.mem_map] at hb
    obtain ⟨i, hi, rfl⟩ := hb
    exact hk i (List.mem_range.mp hi)
  unfold State.emitWith
  rw [h, codeStream_source]

/-- Every byte of the source has a code in the code table that HUFF builds (R540). -/
theorem huff_known {bs : List Byte} (hl : bs.length < 2 ^ 32) (hn : bs ≠ []) :
    ∃ h, buildTree (freqOf bs) = some h ∧ Huffman 0 (leavesOf (freqOf bs)) h ∧ h.wf = true ∧
      IsCodeTable h (assignCodes h) ∧ ∀ b ∈ bs, (assignCodes h).entry b ≠ [] := by
  obtain ⟨h, hb, hh⟩ := buildTree_huffman (freqOf_distinct hl hn)
  obtain ⟨hw, hp⟩ := hh.of_leaves
  have hc := assignCodes_isCodeTable h
  refine ⟨h, hb, hh, hw, hc, fun b hbs => ?_⟩
  rw [ne_eq, hc.entry_eq_nil, not_not, hp.mem_iff, List.mem_filter]
  exact ⟨mem_allSymbols b, bne_iff_ne.mpr ((freqOf_ne_zero hl b).mpr hbs)⟩

end Sys2Proof.Machine
end

