-- ==== Sys2Proof/Laws/Cost.lean ====
section
/-! SUPPORT. The cost of a tree, the sum of its leaves' weights times their depths, and its bound over every outcome of the loop
of R422. -/

namespace Sys2Proof.Machine

/-- The sum of the weights of a tree's inner nodes, each taken from its children. -/
def HTree.cost : HTree → Nat
  | .leaf _ _ _ => 0
  | .node _ _ l r => l.cost + r.cost + (l.weight + r.weight)

/-- Each leaf of the tree has the weight that `f` gives its symbol. -/
def HTree.weighs (f : Byte → Nat) : HTree → Prop
  | .leaf b w _ => w = f b
  | .node _ _ l r => l.weighs f ∧ r.weighs f

/-- Weight times depth, summed over the leaves, is the cost. -/
theorem HTree.walk_cost {h : HTree} {f : Byte → Nat} (hs : h.sumsOk = true) (hw : h.weighs f) (p : BitSeq) :
    ((h.walk p).map fun e => f e.1 * e.2.length).sum = h.cost + p.length * h.weight := by
  induction h generalizing p with
  | leaf b w q =>
    have : w = f b := hw
    simp [HTree.walk, HTree.cost, HTree.weight, this, Nat.mul_comm]
  | node w q l r ihl ihr =>
    simp only [HTree.sumsOk, Bool.and_eq_true, beq_iff_eq] at hs
    obtain ⟨⟨h1, h2⟩, h3⟩ := hs
    rw [HTree.walk, List.map_append, List.sum_append, ihl h2 hw.1, ihr h3 hw.2, h1]
    simp only [List.length_append, List.length_cons, List.length_nil, HTree.cost, HTree.weight]
    ring

/-- The weights of the leaves stay those of the symbols (R422). -/
theorem Huffman.weighs {f : Byte → Nat} {k : Nat} {live : List HTree} {h : HTree} (hh : Huffman k live h)
    (hl : ∀ t ∈ live, t.weighs f) : h.weighs f := by
  induction hh with
  | root k t => exact hl t (by simp)
  | round k live x y rest t hperm _ _ _ ih =>
    have hl' : ∀ t ∈ x :: y :: rest, t.weighs f := fun t ht => hl t (hperm.symm.subset ht)
    refine ih fun t ht => ?_
    rcases List.mem_cons.mp ht with rfl | ht
    · exact ⟨hl' y (by simp), hl' x (by simp)⟩
    · exact hl' t (by simp [ht])

/-- Taking the two least elements costs no more than what any set of at least two elements loses. -/
theorem two_least {x y : HTree} {rest B : List HTree} {q : Nat} (hB : B.Subperm (x :: y :: rest))
    (hl : B.length = 2 * (q + 1)) (hxy : x.weight ≤ y.weight) (hy : ∀ z ∈ rest, y.weight ≤ z.weight) :
    ∃ B' : List HTree, B'.Subperm rest ∧ B'.length = 2 * q ∧
      (B'.map HTree.weight).sum + (x.weight + y.weight) ≤ (B.map HTree.weight).sum := by
  have hC : ((B.erase x).erase y).Subperm rest := by
    have := (hB.erase x).erase y
    simpa using this
  have hsub : ∀ n, (((B.erase x).erase y).drop n).Subperm rest := fun n =>
    (List.drop_sublist _ _).subperm.trans hC
  have hw : ∀ n ≤ ((B.erase x).erase y).length, n * y.weight + ((((B.erase x).erase y).drop n).map HTree.weight).sum ≤
      (((B.erase x).erase y).map HTree.weight).sum := by
    intro n hn
    have h1 : ∀ l : List HTree, (∀ z ∈ l, y.weight ≤ z.weight) → l.length * y.weight ≤ (l.map HTree.weight).sum := by
      intro l hl
      induction l with
      | nil => simp
      | cons z l ih =>
        have a := ih fun w hw => hl w (by simp [hw])
        have b := hl z (by simp)
        simp only [List.length_cons, List.map_cons, List.sum_cons, Nat.add_mul]
        omega
    have h2 := h1 (((B.erase x).erase y).take n) fun z hz => hy z (hC.subset (List.take_subset _ _ hz))
    have h3 := congrArg (fun l => (l.map HTree.weight).sum) (List.take_append_drop n ((B.erase x).erase y))
    simp only [List.map_append, List.sum_append] at h3
    rw [List.length_take, Nat.min_eq_left hn] at h2
    omega
  have e1 : ∀ (l : List HTree) (z : HTree), z ∈ l →
      (l.map HTree.weight).sum = z.weight + ((l.erase z).map HTree.weight).sum ∧ l.length = (l.erase z).length + 1 := by
    intro l z hz
    have hp := List.perm_cons_erase hz
    exact ⟨by rw [(hp.map HTree.weight).sum_eq, List.map_cons, List.sum_cons], hp.length_eq⟩
  by_cases hx : x ∈ B
  · obtain ⟨a1, a2⟩ := e1 B x hx
    by_cases hy' : y ∈ B.erase x
    · obtain ⟨b1, b2⟩ := e1 _ y hy'
      exact ⟨_, hC, by omega, by omega⟩
    · rw [List.erase_of_not_mem hy'] at hw hsub
      have := hw 1 (by omega)
      exact ⟨_, hsub 1, by rw [List.length_drop]; omega, by omega⟩
  · rw [List.erase_of_not_mem hx] at hw hsub
    by_cases hy' : y ∈ B
    · obtain ⟨b1, b2⟩ := e1 _ y hy'
      have := hw 1 (by omega)
      exact ⟨_, hsub 1, by rw [List.length_drop]; omega, by omega⟩
    · rw [List.erase_of_not_mem hy'] at hw hsub
      have := hw 2 (by omega)
      exact ⟨_, hsub 2, by rw [List.length_drop]; omega, by omega⟩

/-- A number of rounds of the loop costs at most the weight of any set with two elements for each round. -/
theorem Huffman.rounds {q k : Nat} {live B : List HTree} {h : HTree} (hh : Huffman k live h) (hB : B.Subperm live)
    (hl : B.length = 2 * q) : ∃ (k' : Nat) (live' : List HTree), Huffman k' live' h ∧ live'.length + q = live.length ∧
      (live'.map HTree.cost).sum ≤ (live.map HTree.cost).sum + (B.map HTree.weight).sum ∧
      (live'.map HTree.weight).sum = (live.map HTree.weight).sum := by
  induction q generalizing k live B with
  | zero => exact ⟨k, live, hh, rfl, by omega, rfl⟩
  | succ q ih =>
    cases hh with
    | root => have := hB.length_le; simp at this; omega
    | round _ _ x y rest _ hperm hfirst hsecond hgo =>
      have hxy : x.weight ≤ y.weight := by
        have := hfirst y (by simp)
        simp only [KeyLt] at this
        omega
      have hy : ∀ z ∈ rest, y.weight ≤ z.weight := by
        intro z hz
        have := hsecond z hz
        simp only [KeyLt] at this
        omega
      obtain ⟨B', h1, h2, h3⟩ := two_least (hB.trans hperm.subperm) hl hxy hy
      obtain ⟨k', live', g1, g2, g3, g4⟩ := ih hgo (h1.trans (List.sublist_cons_self _ _).subperm) h2
      have hlen := hperm.length_eq
      have hcost := (hperm.map HTree.cost).sum_eq
      have hweight := (hperm.map HTree.weight).sum_eq
      simp only [List.map_cons, List.sum_cons, List.length_cons, HTree.cost, HTree.weight] at *
      exact ⟨k', live', g1, by omega, by omega, by omega⟩

/-- The tree of at most 2^n leaves costs at most n times their weight. -/
theorem Huffman.cost_le {n k : Nat} {live : List HTree} {h : HTree} (hh : Huffman k live h) (hl : live.length ≤ 2 ^ n) :
    h.cost ≤ (live.map HTree.cost).sum + n * (live.map HTree.weight).sum := by
  induction n generalizing k live with
  | zero =>
    cases hh with
    | root => simp
    | round _ _ x y rest _ hperm => have := hperm.length_eq; simp at this hl; omega
  | succ n ih =>
    by_cases h0 : live.length ≤ 2 ^ n
    · have := ih hh h0
      rw [Nat.add_mul]
      omega
    · obtain ⟨q, hq⟩ : ∃ q, live.length = 2 ^ n + q := ⟨live.length - 2 ^ n, by omega⟩
      rw [pow_succ] at hl
      obtain ⟨k', live', h1, h2, h3, h4⟩ := hh.rounds (q := q) (B := live.take (2 * q))
        (List.take_sublist _ _).subperm (by rw [List.length_take]; omega)
      have h5 := ih h1 (by omega)
      have h6 : ((live.take (2 * q)).map HTree.weight).sum ≤ (live.map HTree.weight).sum := by
        have := congrArg (fun l => (l.map HTree.weight).sum) (List.take_append_drop (2 * q) live)
        simp only [List.map_append, List.sum_append] at this
        omega
      rw [h4] at h5
      rw [Nat.add_mul]
      omega

/-- The codes that HUFF assigns to a source take at most 8 bits a byte on average (R541). -/
theorem length_huffStream {bs : List Byte} (hl : bs.length < 2 ^ 32) {h : HTree}
    (hh : Huffman 0 (leavesOf (freqOf bs)) h) : (codeStream (assignCodes h) bs).length ≤ 8 * bs.length := by
  obtain ⟨hw, -⟩ := hh.of_leaves
  have hcount : ∀ b : Byte, ((freqOf bs).entry b).toNat = bs.count b := by
    intro b
    have := List.count_le_length (a := b) (l := bs)
    simp only [freqOf, Table.entry_tab, BitVec.toNat_ofNat]
    omega
  have hsum : ((leavesOf (freqOf bs)).map HTree.weight).sum = bs.length := by
    rw [leavesOf_weight, ← sum_count]
    exact congrArg List.sum (List.map_congr_left fun b _ => hcount b)
  have hweigh : h.weighs fun b => bs.count b := by
    refine hh.weighs fun t ht => ?_
    obtain ⟨b, -, rfl⟩ := (mem_leavesOf _ t).mp ht
    exact hcount b
  have hstream : (codeStream (assignCodes h) bs).length = (h.codes.map fun e => bs.count e.1 * e.2.length).sum := by
    rw [length_codeStream, sum_by_symbol,
      (assignCodes_isCodeTable _).sum_eq (HTree.wf_nodup hw) (fun b c => bs.count b * c.length) (by simp)]
  rw [hstream]
  cases h with
  | leaf b w q =>
    have h1 : bs.count b ≤ bs.length := List.count_le_length
    simp only [HTree.codes, List.map_cons, List.map_nil, List.sum_cons, List.sum_nil, List.length_cons, List.length_nil]
    omega
  | node w q l r =>
    have hs : (HTree.node w q l r).sumsOk = true := by
      simp only [HTree.wf, Bool.and_eq_true] at hw
      exact hw.1
    have h1 := HTree.walk_cost hs hweigh []
    have h2 := hh.cost_le (n := 8) (by rw [length_leavesOf]; exact distinct_le _)
    have h3 : ((leavesOf (freqOf bs)).map HTree.cost).sum = 0 := by
      rw [leavesOf_eq, List.map_map]
      induction allSymbols.filter fun b => (freqOf bs).entry b != 0 with
      | nil => rfl
      | cons b l ih => simpa [HTree.cost] using ih
    simp only [List.length_nil, Nat.zero_mul, Nat.add_zero] at h1
    rw [hsum, h3] at h2
    rw [HTree.codes, h1]
    omega

end Sys2Proof.Machine
end

