-- ==== Sys2Proof/Laws/MemoryForm.lean ====
section
/-! SUPPORT. Every operation that writes DMEM keeps its form: canonical, and inside DMEM_SIZE (R14). -/

namespace Sys2Proof.Machine

theorem memOk_reset (k : Fin 13) : (State.resetOf k).memOk = true := memWf_nil _

/-- A store of bytes inside DMEM keeps the form. -/
theorem memOk_storeBytes {s : State} (h : s.memOk = true) {a : Nat} {bs : List Byte} (hb : a + bs.length ≤ s.dmemSize) :
    (s.storeBytes a bs).memOk = true :=
  memWf_memStore h (.inr hb)

theorem memOk_dmemWrite {s : State} (h : s.memOk = true) {a n : Nat} (v : Word) (hb : a + n ≤ s.dmemSize) :
    (s.dmemWrite a n v).memOk = true := by
  rw [dmemWrite_eq]
  exact memWf_memStore h (.inr (by rw [length_leBytes]; exact hb))

theorem memOk_hardReset (s : State) : s.hardReset.memOk = true := memWf_nil _

theorem memOk_softReset {s : State} (h : s.memOk = true) : s.softReset.memOk = true := by
  have h1 := memOk_smearOpt h s.runningOutput
  have h2 : (s.smearOpt s.runningOutput).memLog = s.memLog := by rw [smearOpt_eq]
  unfold State.memOk State.dmemSize at h1 ⊢
  rw [h2] at h1
  exact h1

theorem memOk_raceCompletion {s : State} (h : s.memOk = true) (i : Instr) (a : Args) :
    (s.raceCompletion i a).memOk = true := by
  have hm : ∀ q : State, q.mem = s.mem → q.memLog = s.memLog → q.memOk = true := by
    intro q h1 h2
    unfold State.memOk State.dmemSize at h ⊢
    rw [h1, h2]
    exact h
  unfold State.raceCompletion
  exact memOk_smearOpt (hm _ (by cases i <;> rfl) (by cases i <;> rfl)) _

/-- An encoder's delivery keeps the form, its destination region being valid. -/
theorem memOk_deliver {s : State} (h : s.memOk = true) (hd : s.dstOk) (rs : List ResultReg) (bs : List Byte)
    (vs : List (ResultReg × Word)) : (s.deliver rs bs vs).memOk = true := by
  by_cases hb : bs.length ≤ s.snap.dstCap.toNat
  · rw [deliver_fits hb]
    refine memWf_memStore h (.inr ?_)
    simp only [State.dstOk, State.dstAt, State.dstRoom] at hd
    show _ ≤ s.dmemSize
    omega
  · rw [deliver_overflow (by omega)]
    exact memOk_raise h _ _

/-- A checked command keeps the form when its body does after the checks. -/
theorem memOk_checked {s b : State} (h : s.memOk = true) {rs : List ResultReg} {cs : List (Option CmdError)}
    (hb : (∀ c ∈ cs, c = none) → b.memOk = true) : (s.checked rs cs b).memOk = true := by
  rcases checked_cases s rs cs b with ⟨e, -, h'⟩ | ⟨hc, h'⟩ <;> rw [h']
  · exact memOk_raise h _ _
  · exact hb (firstError_eq_none.mp hc)

/-- Every command keeps the form. -/
theorem memOk_exec {i : Instr} {s t : State} (h : s.memOk = true) (ht : exec i s = .next t) : t.memOk = true := by
  have hd : ∀ cs : List (Option CmdError), (∀ c ∈ cs, c = none) → s.dstCheck ∈ cs → s.dstOk :=
    fun cs hc hm => (dstCheck_eq_none s).mp (hc _ hm)
  have htbl : ∀ (cs : List (Option CmdError)) (n : Nat), (∀ c ∈ cs, c = none) → s.tblCheck n ∈ cs → s.tblOk n :=
    fun cs n hc hm => (tblCheck_eq_none s n).mp (hc _ hm)
  cases i <;> cases ht
  case nop => exact h
  case clear => exact h
  case ftstore =>
    refine memOk_checked h fun hc => memWf_memStore h (.inr ?_)
    rw [length_ftImage]
    exact htbl _ _ hc (List.mem_cons_self ..)
  case ctstore =>
    refine memOk_checked h fun hc => memWf_memStore h (.inr ?_)
    rw [length_ctImage]
    exact htbl _ _ hc (List.mem_cons_self ..)
  case emit a =>
    refine memOk_checked h fun hc => ?_
    unfold State.emitWith
    split
    · exact memOk_raise h _ _
    · exact memOk_deliver h (hd _ hc (by simp)) _ _ _
  case huff a =>
    refine memOk_checked h fun hc => ?_
    have h' : ∀ F H C, (s.buildStores F H C).memOk = true := fun _ _ _ => h
    exact memOk_deliver (h' _ _ _) (hd _ hc (by simp)) _ _ _
  case rle => exact memOk_checked h fun hc => memOk_deliver h (hd _ hc (by simp)) _ _ _
  case binx => exact memOk_checked h fun hc => memOk_deliver h (hd _ hc (by simp)) _ _ _
  all_goals exact memOk_checked h fun _ => h

end Sys2Proof.Machine
end

