-- ==== Sys2Proof/Laws/PerInstr.lean ====
section
/-! SUPPORT. Facts stated of each command as syntax, one lemma per constructor. -/

namespace Sys2Proof.Laws.EncodingFitsTable

/-- The encoding of a command lies in its row of the opcode map: its fields are well formed (R310), and outside the A flag,
bit 8, its word is the opcode alone (R301, R302). -/
def Statement (i : Instr) : Prop :=
  i.fields.wellFormed = true ∧ encode i &&& 0xFFFFFEFF#32 = i.opcode.setWidth 32

theorem nop : Statement .nop := by unfold Statement; decide
theorem freq : Statement .freq := by unfold Statement; decide
theorem tree : Statement .tree := by unfold Statement; decide
theorem codes : Statement .codes := by unfold Statement; decide
theorem emit (a : Layout) : Statement (.emit a) := by unfold Statement; cases a <;> decide
theorem huff (a : Layout) : Statement (.huff a) := by unfold Statement; cases a <;> decide
theorem rle : Statement .rle := by unfold Statement; decide
theorem binx (a : Layout) : Statement (.binx a) := by unfold Statement; cases a <;> decide
theorem ratio : Statement .ratio := by unfold Statement; decide
theorem ftload : Statement .ftload := by unfold Statement; decide
theorem ftstore : Statement .ftstore := by unfold Statement; decide
theorem ctload : Statement .ctload := by unfold Statement; decide
theorem ctstore : Statement .ctstore := by unfold Statement; decide
theorem clear : Statement .clear := by unfold Statement; decide

end Sys2Proof.Laws.EncodingFitsTable
end

