-- ==== Sys2Proof/Tests/Slice0.lean ====
section
/-! SUPPORT. Tests of the model, with expected results taken from the spec's vectors (95_test_vectors.md, by their ids) and
worked by hand from its rules; and for each statement a witness of its hypotheses. -/

-- One evaluation at a time, so that the file needs one thread.
set_option Elab.async false

namespace Sys2Proof.Tests

open Sys2Proof.Machine

/-! ### Small states -/

/-- Source at 0 with `n` bytes, destination at 0x100 with capacity `c`, table at 0x1000, ARG0 = 32 and ARG1 = 4. -/
def args (n c : Word) : Args := ⟨0, n, 0x100, c, 0x1000, 32, 4⟩

/-- The running record of a command word with a snapshot. -/
def run (w : Word) (a : Args) : Run := ⟨w, a, 0, false, []⟩

/-- The reset block with bytes `bs` at 0, running the command `i` with the arguments `a`. -/
def running (i : Instr) (a : Args) (bs : List Byte) : State :=
  { State.reset.storeBytes 0 bs with args := a, phase := .busy (run (encode i) a) }

/-- The state an outcome ends in. -/
def after (o : Host.Outcome State Fault Refusal) : State :=
  match o with
  | .next t => t
  | .fault _ => State.reset
  | .refused _ => State.reset

/-- "aaab" -/
def aaab : List Byte := [0x61, 0x61, 0x61, 0x62]

/-- "abracadabra" -/
def abra : List Byte := [0x61, 0x62, 0x72, 0x61, 0x63, 0x61, 0x64, 0x61, 0x62, 0x72, 0x61]

/-- A frequency table with the given counts and 0 elsewhere. -/
def ftWith (l : List (Byte × Word)) : FreqTable := Table.tab fun b => (l.lookup b).getD 0

/-- A code table with the given codes, written as digits, and no other entry. -/
def ctWith (l : List (Byte × List Nat)) : CodeTable := Table.tab fun b => ((l.lookup b).getD []).map (· == 1)

/-- The counts a state holds for some symbols. -/
def counts (s : State) (bs : List Byte) : Option (List Word) := s.ft.map fun t => bs.map t.entry

/-- The codes a state holds for some symbols, as digits. -/
def codesOf (s : State) (bs : List Byte) : Option (List (List Nat)) :=
  s.ct.map fun t => bs.map fun b => (t.entry b).map Bool.toNat

/-- The counts of "aaab" (V-FQ-1). -/
def ftAaab : FreqTable := ftWith [(0x61, 3), (0x62, 1)]

/-- The tree of "aaab" (V-TR-1). -/
def treeAaab : HTree := .node 4 256 (.leaf 0x61 3 0x61) (.leaf 0x62 1 0x62)

/-- The codes of "aaab" (V-CD-1). -/
def ctAaab : CodeTable := ctWith [(0x61, [0]), (0x62, [1])]

/-- The tree of "abracadabra" (V-TR-6): `(((r | b) | (d | c)) | a)`. -/
def treeAbra : HTree :=
  .node 11 259
    (.node 6 258 (.node 4 257 (.leaf 0x72 2 0x72) (.leaf 0x62 2 0x62)) (.node 2 256 (.leaf 0x64 1 0x64) (.leaf 0x63 1 0x63)))
    (.leaf 0x61 5 0x61)

/-- The codes of "abracadabra" (V-CD-6). -/
def ctAbra : CodeTable :=
  ctWith [(0x61, [1]), (0x62, [0, 0, 1]), (0x63, [0, 1, 1]), (0x64, [0, 1, 0]), (0x72, [0, 0, 0])]

/-- A block that holds the stores of "aaab". -/
def State.withAaab (s : State) : State := { s with ft := some ftAaab, tree := some treeAaab, ct := some ctAaab }

/-! ### Well-formedness: one ill-formed term for each check (R310) -/

theorem test_reserved_bits_refused : (Fields.mk 1 false 0x05).wellFormed = false ∧ (Fields.mk 1 false 0x05).rsvZero = false ∧
    decode (Fields.mk 1 false 0x05).word = .error .reservedBits := by decide

theorem test_reserved_opcode_refused : (Fields.mk 0 false 0x0E).wellFormed = false ∧
    (Fields.mk 0 false 0x0E).opKnown = false ∧ decode (Fields.mk 0 false 0x0E).word = .error .reservedOpcode := by decide

theorem test_layout_flag_refused : (Fields.mk 0 true 0x06).wellFormed = false ∧
    (Fields.mk 0 true 0x06).flagAllowed = false ∧ decode (Fields.mk 0 true 0x06).word = .error .layoutFlag := by decide

/-! ### Words, field by field: RSV, A, OP (R301, R302) -/

theorem test_decode_system : decode (0#23 ++ 0b0#1 ++ 0b00000000#8) = .ok .nop ∧
    decode (0#23 ++ 0b0#1 ++ 0b00001000#8) = .ok .ratio ∧ decode (0#23 ++ 0b0#1 ++ 0b00001101#8) = .ok .clear := by decide

theorem test_decode_frequency : decode (0#23 ++ 0b0#1 ++ 0b00000001#8) = .ok .freq ∧
    decode (0#23 ++ 0b0#1 ++ 0b00001001#8) = .ok .ftload ∧ decode (0#23 ++ 0b0#1 ++ 0b00001010#8) = .ok .ftstore := by
  decide

theorem test_decode_tree_codes : decode (0#23 ++ 0b0#1 ++ 0b00000010#8) = .ok .tree ∧
    decode (0#23 ++ 0b0#1 ++ 0b00000011#8) = .ok .codes ∧ decode (0#23 ++ 0b0#1 ++ 0b00001011#8) = .ok .ctload ∧
    decode (0#23 ++ 0b0#1 ++ 0b00001100#8) = .ok .ctstore := by decide

theorem test_decode_encoders : decode (0#23 ++ 0b0#1 ++ 0b00000100#8) = .ok (.emit .packed) ∧
    decode (0#23 ++ 0b1#1 ++ 0b00000100#8) = .ok (.emit .ascii) ∧
    decode (0#23 ++ 0b0#1 ++ 0b00000101#8) = .ok (.huff .packed) ∧
    decode (0#23 ++ 0b1#1 ++ 0b00000101#8) = .ok (.huff .ascii) ∧ decode (0#23 ++ 0b0#1 ++ 0b00000110#8) = .ok .rle ∧
    decode (0#23 ++ 0b0#1 ++ 0b00000111#8) = .ok (.binx .packed) ∧
    decode (0#23 ++ 0b1#1 ++ 0b00000111#8) = .ok (.binx .ascii) := by decide

/-- V-IL-1 to V-IL-6. -/
theorem test_decode_illegal : decode 0x0000000E = .error .reservedOpcode ∧ decode 0x000000FF = .error .reservedOpcode ∧
    decode 0x00000100 = .error .layoutFlag ∧ decode 0x00000108 = .error .layoutFlag ∧
    decode 0x00000205 = .error .reservedBits ∧ decode 0x80000001 = .error .reservedBits := by decide

/-- The word of HUFF.A runs as the first command after reset (R302, R540; V-HF-20 gives the outcome). -/
theorem test_first_step_runs_the_word : decodeTableWord 32 0x105 = some (.huff .ascii) ∧
    (after (step (State.reset.withFetchWord 32 0x105))).errCode = 1 ∧
    (after (step (State.reset.withFetchWord 32 0x105))).errInfo0 = 1 ∧
    (after (step (State.reset.withFetchWord 32 0x105))).status = 0x02 := by decide +kernel

/-! ### Commands -/

/-- V-NP-1. -/
theorem test_nop : let t := after (exec .nop { running .nop (args 0 0) [] with ie := true })
    t.errCode = 0 ∧ t.intr = 1 ∧ t.irq = true ∧ t.isBusy = false := by decide +kernel

/-- V-FQ-1, over a block whose tree and codes were valid (V-FQ-8). -/
theorem test_freq_counts : let t := after (exec .freq (State.withAaab (running .freq (args 4 0) aaab)))
    counts t [0x61, 0x62, 0x63, 0x00] = some [3, 1, 0, 0] ∧ t.results.inBits = 32 ∧ t.status = 0x04 := by decide +kernel

/-- V-FQ-6: the sum 2^32 is not wrapped. -/
theorem test_freq_address_not_wrapped :
    let t := after (exec .freq (running .freq { args 1 0 with srcAddr := 0xFFFFFFFF } []))
    t.errCode = 6 ∧ t.errInfo0 = 1 ∧ t.errInfo1 = 0xFFFFFFFF ∧ t.ft = none := by decide +kernel

/-- V-TR-6, whose merges meet ties between leaves and internal nodes. -/
theorem test_tree_abracadabra :
    let s := running .tree (args 0 0) []
    let t := after (exec .tree { s with ft := some (ftWith [(0x61, 5), (0x62, 2), (0x63, 1), (0x64, 1), (0x72, 2)]) })
    t.tree = some treeAbra ∧ t.results.nsym = 5 ∧ t.status = 0x0C := by decide +kernel

/-- V-TR-10. -/
theorem test_tree_of_no_counts :
    let t := after (exec .tree { running .tree (args 0 0) [] with ft := some (ftWith []) })
    t.errCode = 1 ∧ t.errInfo0 = 3 ∧ t.tree = none ∧ t.results.nsym = 0 ∧ t.status = 0x06 := by decide +kernel

/-- V-CD-6. -/
theorem test_codes_abracadabra : let t := after (exec .codes { running .codes (args 0 0) [] with tree := some treeAbra })
    codesOf t [0x61, 0x62, 0x63, 0x64, 0x72, 0x65] =
        some [[1], [0, 0, 1], [0, 1, 1], [0, 1, 0], [0, 0, 0], []] ∧
      t.results.nsym = 5 ∧ t.results.maxlen = 3 := by decide +kernel

/-- R500, its walk by hand: the leaf walked last gives the code of a symbol that stands at two leaves (R1020). -/
theorem test_codes_last_leaf_wins :
    let t := after (exec .codes
      { running .codes (args 0 0) [] with tree := some (.node 0 7 (.leaf 0x61 1 0) (.node 9 7 (.leaf 0x61 2 0) (.leaf 0x62 3 0))) })
    codesOf t [0x61, 0x62] = some [[1, 0], [1, 1]] ∧ t.results.nsym = 2 ∧ t.results.maxlen = 2 := by decide +kernel

/-- V-CD-10. -/
theorem test_codes_without_tree : let t := after (exec .codes (running .codes (args 0 0) []))
    t.errCode = 2 ∧ t.errInfo0 = 0 ∧ t.errInfo1 = 0 ∧ t.ct = none := by decide +kernel

/-- V-EM-7, and V-EM-16: a byte past the output keeps its value. -/
theorem test_emit_packed :
    let s := { running (.emit .packed) (args 11 16) abra with ct := some ctAbra }
    let t := after (exec (.emit .packed) (s.storeBytes 0x103 [0xEE]))
    t.bytesAt 0x100 4 = [0x91, 0x75, 0x22, 0xEE] ∧ t.results.outBits = 23 ∧ t.results.outBytes = 3 ∧ t.results.inBits = 88 := by
  decide +kernel

/-- V-EM-6: "abc" with no room is UnknownSymbol(2, 0x63), not OutputOverflow. -/
theorem test_emit_unknown_before_overflow :
    let s := running (.emit .packed) (args 3 0) [0x61, 0x62, 0x63]
    let t := after (exec (.emit .packed) { s with ct := some ctAaab })
    t.errCode = 3 ∧ t.errInfo0 = 2 ∧ t.errInfo1 = 0x63 ∧ t.ctValid = true := by decide +kernel

/-- V-HF-9: "aabbcc". -/
theorem test_huff_aabbcc :
    let t := after (exec (.huff .packed) (running (.huff .packed) (args 6 2) [0x61, 0x61, 0x62, 0x62, 0x63, 0x63]))
    t.bytesAt 0x100 2 = [0x50, 0xC0] ∧ t.results = ⟨48, 10, 2, 0, 3, 2, 0, 0⟩ ∧ t.errCode = 0 := by decide +kernel

/-- V-HF-19: the stores are built although the output does not fit. -/
theorem test_huff_overflow_keeps_the_stores :
    let t := after (exec (.huff .ascii) (running (.huff .ascii) (args 4 3) aaab))
    t.errCode = 7 ∧ t.errInfo0 = 4 ∧ t.errInfo1 = 3 ∧ t.status = 0x1E ∧ counts t [0x61, 0x62] = some [3, 1] ∧
      t.tree = some treeAaab ∧ codesOf t [0x61, 0x62] = some [[0], [1]] ∧ t.results = Results.zero := by decide +kernel

/-- L1-2, V-RL-1. -/
theorem test_rle_source_example : let t := after (exec .rle (running .rle (args 6 15) [5, 5, 5, 2, 2, 9]))
    t.bytesAt 0x100 15 = [5, 3, 0, 0, 0, 2, 2, 0, 0, 0, 9, 1, 0, 0, 0] ∧ t.results = ⟨48, 120, 15, 3, 0, 0, 0, 0⟩ := by
  decide +kernel

/-- V-RL-7. -/
theorem test_rle_overflow : let t := after (exec .rle (running .rle (args 6 14) [5, 5, 5, 2, 2, 9]))
    t.errCode = 7 ∧ t.errInfo0 = 15 ∧ t.errInfo1 = 14 ∧ t.results = Results.zero := by decide +kernel

/-- L1-3, V-BX-2. -/
theorem test_binx_ascii : let t := after (exec (.binx .ascii) (running (.binx .ascii) (args 1 8) [0x41]))
    t.bytesAt 0x100 8 = [0x30, 0x31, 0x30, 0x30, 0x30, 0x30, 0x30, 0x31] ∧ t.results = ⟨8, 8, 8, 0, 0, 0, 0, 0⟩ := by
  decide +kernel

/-- V-BX-10: the overlap is found before the need. -/
theorem test_binx_overlap :
    let t := after (exec (.binx .ascii) (running (.binx .ascii) { args 1 8 with srcAddr := 0x100 } []))
    t.errCode = 6 ∧ t.errInfo0 = 4 ∧ t.errInfo1 = 0x100 := by decide +kernel

/-- V-RA-4: truncated toward zero. -/
theorem test_ratio_truncates :
    let t := after (exec .ratio (running .ratio { args 0 0 with arg0 := 3, arg1 := 5 } []))
    t.results.resHi = 0xFFFFFFFF ∧ t.results.resLo = 0xFFBD5556 := by decide +kernel

/-- V-RA-10: the minimum. -/
theorem test_ratio_minimum :
    let t := after (exec .ratio (running .ratio { args 0 0 with arg0 := 1, arg1 := 0xFFFFFFFF } []))
    t.results.resHi = 0xFF9C0000 ∧ t.results.resLo = 0x00C80000 := by decide +kernel

/-- The entries of V-FL-1 for 'a' and 'b', and a count with four different bytes. -/
theorem test_ftload :
    let s := (running .ftload (args 0 0) []).storeBytes 0x1184 [3, 0, 0, 0, 1, 0, 0, 0, 4, 3, 2, 1]
    let t := after (exec .ftload s)
    counts t [0x61, 0x62, 0x63] = some [3, 1, 0x01020304] ∧ t.status = 0x04 ∧ t.results = Results.zero := by decide +kernel

/-- V-FL-3. -/
theorem test_ftload_past_the_end :
    let t := after (exec .ftload (running .ftload { args 0 0 with tblAddr := 0xFC01 } []))
    t.errCode = 6 ∧ t.errInfo0 = 3 ∧ t.errInfo1 = 0xFC01 := by decide +kernel

/-- V-FS-1: a count is stored with its least significant byte first. -/
theorem test_ftstore :
    let t := after (exec .ftstore { running .ftstore (args 0 0) [] with ft := some (ftWith [(0x61, 3), (0x62, 0x01020304)]) })
    t.bytesAt 0x1184 8 = [3, 0, 0, 0, 4, 3, 2, 1] ∧ t.bytesAt 0x13FC 4 = [0, 0, 0, 0] ∧ t.mem.length = 1024 := by
  decide +kernel

/-- V-FS-3: the region is checked before the table. -/
theorem test_ftstore_region_first :
    let t := after (exec .ftstore (running .ftstore { args 0 0 with tblAddr := 0xFC01 } []))
    t.errCode = 6 ∧ t.errInfo0 = 3 ∧ t.errInfo1 = 0xFC01 ∧ t.mem = [] := by decide +kernel

/-- The entries of V-CL-3: reserved bytes and the bits past LEN are ignored. -/
theorem test_ctload :
    let s := (running .ctload (args 0 0) []).storeBytes 0x1DA4 [2, 0xFF, 0xFF, 0xFF, 0x80, 0xFF]
    let t := after (exec .ctload (s.storeBytes 0x1DC8 [1, 0xFF, 0xFF, 0xFF, 0x80]))
    codesOf t [0x61, 0x62] = some [[1, 0], [1]] ∧ t.status = 0x10 := by decide +kernel

/-- V-CS-2. -/
theorem test_ctstore :
    let t := after (exec .ctstore { running .ctstore (args 0 0) [] with ct := some ctAbra })
    t.bytesAt 0x1DC8 5 = [3, 0, 0, 0, 0x20] ∧ t.bytesAt 0x1DEC 5 = [3, 0, 0, 0, 0x60] := by decide +kernel

/-- V-CS-4. -/
theorem test_ctstore_past_the_end :
    let t := after (exec .ctstore (running .ctstore { args 0 0 with tblAddr := 0xDC01 } []))
    t.errCode = 6 ∧ t.errInfo0 = 3 ∧ t.errInfo1 = 0xDC01 := by decide +kernel

/-- V-CL-5. -/
theorem test_clear :
    let s := State.withAaab (running .clear (args 0 0) [])
    let t := after (exec .clear { s with results := ⟨32, 4, 1, 0, 2, 1, 0, 0⟩ })
    t.status = 0 ∧ t.results = ⟨32, 4, 1, 0, 2, 1, 0, 0⟩ := by decide +kernel

/-- V-IL-8: an illegal word adds ERR and touches nothing else. -/
theorem test_illegal_word :
    let s := State.withAaab { State.reset with phase := .busy (run 0x205 (args 0 0)), results := ⟨0, 0, 0, 3, 0, 0, 0, 0⟩ }
    let t := after (step s)
    t.status = 0x1E ∧ t.errCode = 5 ∧ t.errInfo0 = 0x205 ∧ t.errInfo1 = 0 ∧ t.results.runs = 3 := by decide +kernel

/-! ### The host port -/

/-- V-RG-1. -/
theorem test_reset_reads : State.reset.regRead .id = 0x43584531 ∧ State.reset.regRead .version = 1 ∧
    State.reset.regRead .memsize = 0x10000 ∧ State.reset.regRead .ctrl = 0 ∧ State.reset.regRead .status = 0 ∧
    State.reset.regRead .intr = 0 := by decide +kernel

/-- V-RG-12. -/
theorem test_window_is_little_endian :
    let s := State.reset.access ⟨0x01000040, true, 4, 0x11223344⟩
    (s.access ⟨0x01000040, false, 1, 0⟩).resp = some (.readOk 0x44) ∧
      (s.access ⟨0x01000043, false, 1, 0⟩).resp = some (.readOk 0x11) ∧
      (s.access ⟨0x01000042, false, 2, 0⟩).resp = some (.readOk 0x1122) := by decide +kernel

/-- V-RG-10, V-RG-11, V-RG-13, V-RG-14, V-RG-15. -/
theorem test_bus_errors : (State.reset.access ⟨0x010, false, 2, 0⟩).resp = some .readErr ∧
    (State.reset.access ⟨0x012, false, 4, 0⟩).resp = some .readErr ∧
    (State.reset.access ⟨0x01000042, true, 4, 0⟩).resp = some .writeErr ∧
    (State.reset.access ⟨0x01000042, true, 4, 0⟩).mem = [] ∧
    (State.reset.access ⟨0x01010000, false, 1, 0⟩).resp = some .readErr ∧
    (State.reset.access ⟨0x00001000, true, 4, 0⟩).resp = some .writeErr := by decide +kernel

/-- V-RG-5, V-RG-7: CTRL ignores its reserved bits, and INTR is write-1-to-clear. -/
theorem test_ctrl_and_intr : (State.reset.access ⟨0x00C, true, 4, 0xFFFFFFFE⟩).regRead .ctrl = 2 ∧
    ({ State.reset with intrDone := true, intrDrop := true }.access ⟨0x014, true, 4, 1⟩).regRead .intr = 2 := by
  decide +kernel

/-- A host read of each result register of R125, and of STATUS with two of its three validity flags (R122), with distinct
values. -/
theorem test_reads_while_idle :
    let s := { State.reset with
      results := ⟨1, 2, 3, 4, 5, 6, 7, 8⟩, errCode := 7, errInfo0 := 9, errInfo1 := 10
      ft := some ftAaab, ct := some ctAaab }
    ([0x080, 0x084, 0x088, 0x08C, 0x090, 0x094, 0x098, 0x09C, 0x01C, 0x020, 0x024, 0x010] : List Word).map
        (fun off => (s.access ⟨off, false, 4, 0⟩).resp) =
      ([1, 2, 3, 4, 5, 6, 7, 8, 7, 9, 10, 0x16] : List Word).map (fun v => some (.readOk v)) := by decide +kernel

/-- V-RG-16, V-RG-18: a CMD write while BUSY is dropped; ERRCODE reads 0. -/
theorem test_cmd_dropped_while_busy :
    let s := running .rle (args 6 15) []
    let t := s.access ⟨0x018, true, 4, 5⟩
    t.intr = 2 ∧ t.phase = s.phase ∧ (s.access ⟨0x01C, false, 4, 0⟩).resp = some (.readOk 0) := by decide +kernel

/-- The host events of P4's steps 1 and 6: `W CTRL, 0x2` and `RUN BINX.A`. -/
theorem test_host_program : hostProgram [.write .ctrl 0x2, .run (.binx .ascii)] =
    [.access ⟨0x00C, true, 4, 2⟩, .access ⟨0x018, true, 4, 0x107⟩, .wait] := by decide +kernel

/-! ### Witnesses: for each statement with hypotheses, a state and operands that meet them together -/

/-- An outcome of a command is the state `after` takes from it. -/
theorem exec_after (i : Instr) (s : State) : exec i s = .next (after (exec i s)) := by
  obtain ⟨t, h⟩ := exec_next i s
  rw [h]; rfl

/-- The same of a step. -/
theorem step_after (s : State) : step s = .next (after (step s)) := by
  rcases step_cases s with ⟨_, _, _, h⟩ | ⟨_, _, _, _, _, _, _, h⟩ | ⟨_, _, _, _, _, h⟩ | ⟨_, h⟩ <;> rw [h] <;> rfl

/-- The same block, busy, with one more event of the host allowed before the completion. -/
def slow (i : Instr) (q : List HostEvent) : State :=
  { State.reset with phase := .busy { run (encode i) (args 4 16) with delay := 1 }, hostQ := q }

/-- A block that runs EMIT in the packed layout with the codes of "aaab". -/
def emitting (n c : Word) (bs : List Byte) : State :=
  { running (.emit .packed) (args n c) bs with ct := some ctAaab }

theorem completing_running (i : Instr) (a : Args) (bs : List Byte) : (running i a bs).completing (run (encode i) a) :=
  ⟨rfl, rfl, Or.inl rfl⟩

theorem witness_IllegalWordsRaiseIllegalCommand : State.reset.phase = .idle ∧ isIllegal 0x0000000E ∧ isIllegal 0x000000FF ∧
    isIllegal 0x00000106 ∧ isIllegal 0x00000205 ∧ isIllegal 0x80000001 ∧ ¬isIllegal 0x0000000D ∧ ¬isIllegal 0x00000107 ∧
    { State.reset with phase := .busy (run 0x0000000E (args 0 0)) }.completing (run 0x0000000E (args 0 0)) :=
  ⟨rfl, by unfold isIllegal; decide, by unfold isIllegal; decide, by unfold isIllegal; decide, by unfold isIllegal; decide,
    by unfold isIllegal; decide, by unfold isIllegal; decide, by unfold isIllegal; decide, rfl, rfl, Or.inl rfl⟩

theorem witness_StepRunsTheDecodedCommand : (running .rle (args 6 15) []).completing (run (encode .rle) (args 6 15)) ∧
    decode (run (encode .rle) (args 6 15)).word = .ok .rle ∧ (run (encode .rle) (args 6 15)).raced = false ∧
    (run (encode .rle) (args 6 15)).touched = [] :=
  ⟨completing_running _ _ _, by decide, rfl, rfl⟩

theorem witness_HostEventsAreServedInOrder :
    { State.reset with hostQ := [.wait] }.phase = .idle ∧ { State.reset with hostQ := [.wait] }.hostQ = [.wait] ∧
    (slow .rle [.rstN false, .wait]).phase = .busy { run (encode .rle) (args 4 16) with delay := 1 } ∧
    (slow .rle [.rstN false, .wait]).hostQ = [.rstN false, .wait] ∧ HostEvent.rstN false ≠ .wait ∧
    State.reset.phase = .idle ∧ State.reset.hostQ = [] := by decide +kernel

theorem witness_AcceptedCommandsComplete :
    (slow .rle [.rstN false]).phase = .busy { run (encode .rle) (args 4 16) with delay := 1 } ∧
    (slow .rle [.rstN false]).rstN = true := by decide +kernel

theorem witness_CmdWriteIsAcceptedOrDropped :
    { State.reset with hostQ := [.access ⟨0x018, true, 4, 5⟩] }.phase = .idle ∧ State.reset.rstN = true ∧
    (slow .rle [.access ⟨0x018, true, 4, 5⟩]).phase = .busy { run (encode .rle) (args 4 16) with delay := 1 } ∧
    (slow .rle [.access ⟨0x018, true, 4, 5⟩]).rstN = true := by decide +kernel

theorem witness_RunningCommandReadsOnlyTheSnapshot : State.reset.phase = .idle ∧
    (running .nop (args 0 0) []).phase = .busy (run (encode .nop) (args 0 0)) ∧
    exec .nop (running .nop (args 0 0) []) = .next (running .nop (args 0 0) []).complete :=
  ⟨rfl, rfl, rfl⟩

theorem witness_CompletionRaisesTheInterrupt :
    exec .nop (running .nop (args 0 0) []) = .next (running .nop (args 0 0) []).complete ∧
    (0xFFFFFFFE : Word).getLsbD 0 = false := ⟨rfl, by decide⟩

/-- Each case of R202 at the edges of its range, and the last accesses that are served. -/
theorem witness_BusErrorsChangeNothing : State.reset.busErrorCase ⟨0x1000, false, 4, 0⟩ ∧
    State.reset.busErrorCase ⟨0x00FFFFFF, true, 1, 0⟩ ∧ State.reset.busErrorCase ⟨0x01010000, false, 1, 0⟩ ∧
    State.reset.busErrorCase ⟨0x010, false, 2, 0⟩ ∧ State.reset.busErrorCase ⟨0xFFE, true, 4, 0⟩ ∧
    State.reset.busErrorCase ⟨0x01000040, false, 3, 0⟩ ∧ State.reset.busErrorCase ⟨0x01000001, false, 2, 0⟩ ∧
    ¬State.reset.busErrorCase ⟨0xFFC, false, 4, 0⟩ ∧ ¬State.reset.busErrorCase ⟨0x0100FFFF, true, 1, 0⟩ ∧
    ¬State.reset.busErrorCase ⟨0x01000000, true, 4, 0⟩ := by
  dsimp only [State.busErrorCase]
  refine ⟨?_, ?_, ?_, ?_, ?_, ?_, ?_, ?_, ?_, ?_⟩ <;> decide +kernel

/-- The first and the last word of DMEM. -/
theorem witness_DmemWindowIsLittleEndian : 0 + 4 ≤ State.reset.dmemSize ∧
    0xFFFC % (4 : BitVec 3).toNat = 0 ∧ 0xFFFC + (4 : BitVec 3).toNat ≤ State.reset.dmemSize ∧
    0xFFFF % (1 : BitVec 3).toNat = 0 ∧ 0xFFFF + (1 : BitVec 3).toNat ≤ State.reset.dmemSize ∧
    2 % (2 : BitVec 3).toNat = 0 ∧ 2 + (2 : BitVec 3).toNat ≤ 4 ∧
    (∀ x, ¬State.reset.isInput x ∧ ¬State.reset.isOutput x) := by
  refine ⟨by decide +kernel, by decide +kernel, by decide +kernel, by decide +kernel, by decide +kernel, by decide +kernel,
    by decide +kernel, fun x => ⟨?_, ?_⟩⟩
  · rintro ⟨r, i, h, -⟩; cases h
  · rintro ⟨r, i, h, -⟩; cases h

/-- The regions of a running RLE with a source of 6 bytes and a room of 15 bytes. -/
theorem regions_of_rle (x : Nat) : ((running .rle (args 6 15) []).isInput x ↔ x < 6) ∧
    ((running .rle (args 6 15) []).isOutput x ↔ 0x100 ≤ x ∧ x < 0x10F) := by
  rw [isInput_iff, isOutput_iff, show (running .rle (args 6 15) []).runningInput = some ⟨0, 6⟩ by decide +kernel,
    show (running .rle (args 6 15) []).runningOutput = some ⟨0x100, 15⟩ by decide +kernel]
  simp [regionHas, Region.has]

/-- While a command runs: a write just past its source and one just before its destination; a read of its source. -/
theorem witness_DmemWindowIsLittleEndian_busy :
    let s := running .rle (args 6 15) []
    6 % (2 : BitVec 3).toNat = 0 ∧ 6 + (2 : BitVec 3).toNat ≤ s.dmemSize ∧
    (∀ x, 6 ≤ x → x < 6 + (2 : BitVec 3).toNat → ¬s.isInput x ∧ ¬s.isOutput x) ∧
    0xFC % 4 = 0 ∧ 0xFC + 4 ≤ s.dmemSize ∧ (∀ x, 0xFC ≤ x → x < 0xFC + 4 → ¬s.isInput x ∧ ¬s.isOutput x) ∧
    0 + (4 : BitVec 3).toNat ≤ s.dmemSize ∧ (∀ x, 0 ≤ x → x < 0 + (4 : BitVec 3).toNat → ¬s.isOutput x) := by
  refine ⟨by decide, by decide +kernel, fun x h1 h2 => ?_, by decide, by decide +kernel, fun x h1 h2 => ?_, by decide +kernel,
    fun x h1 h2 => ?_⟩ <;> simp only [regions_of_rle] at * <;> omega

theorem witness_ArgumentRegistersReadBack : ((0x058 : Word) = 0x040 ∨ (0x058 : Word) = 0x058) ∧ (0xFFC : Word) ≠ 0x058 ∧
    (0xFFC : Word).toNat % 4 = 0 ∧ (0xFFC : Word).toNat < 0x1000 := by decide

/-- One offset for each clause: the ends of the reserved ranges, CMD and the constants. -/
theorem witness_ReadOnlyAndReservedRegisters :
    (∀ off ∈ ([0x000, 0x004, 0x008, 0x018, 0x028, 0x03C, 0x05C, 0x07C, 0x0A0, 0xFFC] : List Word),
      off.toNat < 0x1000 ∧ off.toNat % 4 = 0) ∧
    (∀ off ∈ ([0x000, 0x010, 0x01C, 0x03C, 0x05C, 0x080, 0x09C, 0xFFC] : List Word),
      off ≠ 0x00C ∧ off ≠ 0x014 ∧ off ≠ 0x018 ∧ ¬(0x040 ≤ off.toNat ∧ off.toNat ≤ 0x058)) := by simp

theorem witness_IntrAndCtrlFollowTheirBits : (0xFFFFFFFE : Word).getLsbD 0 = false := by decide

/-- The invariant holds at reset, so it can hold. -/
theorem inv_reset : State.reset.Inv := by
  refine ⟨rfl, ?_, ?_, rfl, ?_, ?_, ?_⟩ <;> simp [State.reset, State.resetOf, State.isBusy]

theorem witness_ReadsWhileBusy : (slow .rle []).Inv ∧ (slow .rle []).isBusy = true := by
  refine ⟨⟨rfl, ?_, ?_, rfl, ?_, ?_, ?_⟩, rfl⟩ <;> simp [slow, run, State.reset, State.resetOf, State.isBusy]

theorem witness_RacedCompletionKeepsTheRest :
    let r := { run (encode .rle) (args 6 15) with raced := true }
    { State.reset with phase := .busy r }.completing r ∧ decode r.word = .ok .rle ∧ r.raced = true ∧
      writesResult .nsym .rle = false ∧ writesFt .rle = false ∧ ¬mayWriteByte .rle r.snap 0xFF ∧
      ¬mayWriteByte .rle r.snap 0x10F :=
  ⟨⟨rfl, rfl, Or.inl rfl⟩, by decide, rfl, rfl, rfl, by unfold mayWriteByte; decide, by unfold mayWriteByte; decide⟩

/-- A 4-byte write at 4 has two bytes in the source and two past it; a 2-byte write at 0x10E has one byte in the destination
and one past it. -/
theorem witness_HostWritesWhileBusy : (running .rle (args 6 15) []).phase = .busy (run (encode .rle) (args 6 15)) ∧
    decode (run (encode .rle) (args 6 15)).word = .ok .rle ∧
    (running .rle (args 6 15) []).completing (run (encode .rle) (args 6 15)) ∧
    (run (encode .rle) (args 6 15)).raced = false ∧
    (∃ t u, exec .rle (running .rle (args 6 15) []) = .next t ∧ step (running .rle (args 6 15) []) = .next u) ∧
    4 % (4 : BitVec 3).toNat = 0 ∧ mayReadByte .rle (args 6 15) 5 ∧ ¬mayReadByte .rle (args 6 15) 6 ∧
    0x10E % (2 : BitVec 3).toNat = 0 ∧ mayWriteByte .rle (args 6 15) 0x10E ∧ ¬mayWriteByte .rle (args 6 15) 0x10F ∧
    0x10E + (2 : BitVec 3).toNat ≤ (running .rle (args 6 15) []).dmemSize := by
  have h := completion_exec (s := running .rle (args 6 15) []) (r := run (encode .rle) (args 6 15)) (i := .rle) (by decide)
    rfl (exec_after _ _)
  rw [← step_completing (completing_running _ _ _)] at h
  refine ⟨rfl, by decide, completing_running _ _ _, rfl, ⟨_, _, exec_after _ _, h⟩, by decide, ?_, ?_, by decide, ?_, ?_,
    by decide +kernel⟩
  · unfold mayReadByte; decide
  · unfold mayReadByte; decide
  · unfold mayWriteByte; decide
  · unfold mayWriteByte; decide

theorem witness_ResetValues : State.resetOf 0 = State.resetOf 0 ∧ State.reset = State.resetOf 4 := ⟨rfl, rfl⟩

theorem witness_SoftResetRestoresTheRegisters : (1 : Word).getLsbD 0 = true ∧ (0xFFFFFFFF : Word).getLsbD 0 = true ∧
    State.reset.phase = .idle ∧ (running .rle (args 6 15) []).phase = .busy (run (encode .rle) (args 6 15)) ∧
    decode (run (encode .rle) (args 6 15)).word = .ok .rle ∧ ¬mayWriteByte .rle (args 6 15) 0x10F :=
  ⟨by decide, by decide, rfl, rfl, by decide, by unfold mayWriteByte; decide⟩

theorem witness_HardwareResetHoldsTheBlock : State.reset.hardReset.rstN = false ∧ State.reset.hardReset.registersReset :=
  ⟨rfl, rfl, rfl, rfl, rfl, rfl, rfl, rfl, rfl, rfl, rfl, rfl, rfl⟩

/-- Every check of R905 can fail, the address checks one byte past the end of DMEM. -/
theorem witness_CheckErrorsAreReported :
    (running .freq { args 1 0 with srcAddr := 0x10000 } []).checkErrorOf .freq = some (6, 1, 0x10000) ∧
    (running .tree (args 0 0) []).checkErrorOf .tree = some (1, 2, 0) ∧
    { running .tree (args 0 0) [] with ft := some (Vector.replicate 256 0) }.checkErrorOf .tree = some (1, 3, 0) ∧
    (running .codes (args 0 0) []).checkErrorOf .codes = some (2, 0, 0) ∧
    (running (.emit .ascii) { args 4 2 with dstAddr := 0xFFFF } []).checkErrorOf (.emit .ascii) = some (6, 2, 0xFFFF) ∧
    (running (.emit .packed) { args 4 4 with dstAddr := 3 } []).checkErrorOf (.emit .packed) = some (6, 4, 3) ∧
    (running (.emit .packed) { args 4 4 with dstAddr := 4 } []).checkErrorOf (.emit .packed) = some (1, 4, 0) ∧
    (running (.huff .packed) (args 0 16) []).checkErrorOf (.huff .packed) = some (1, 1, 0) ∧
    (running .rle (args 0 16) []).checkErrorOf .rle = some (1, 1, 0) ∧
    (running (.binx .ascii) { args 1 8 with srcAddr := 0x100 } []).checkErrorOf (.binx .ascii) = some (6, 4, 0x100) ∧
    (running .ratio { args 0 0 with arg0 := 0 } []).checkErrorOf .ratio = some (1, 5, 0) ∧
    (running .ftload { args 0 0 with tblAddr := 0xFC01 } []).checkErrorOf .ftload = some (6, 3, 0xFC01) ∧
    (running .ftstore { args 0 0 with tblAddr := 0xFC00 } []).checkErrorOf .ftstore = some (1, 2, 0) ∧
    (running .ctload { args 0 0 with tblAddr := 0xDC01 } []).checkErrorOf .ctload = some (6, 3, 0xDC01) ∧
    (running .ctstore { args 0 0 with tblAddr := 0xDC00 } []).checkErrorOf .ctstore = some (1, 4, 0) := by
  refine ⟨?_, ?_, ?_, ?_, ?_, ?_, ?_, ?_, ?_, ?_, ?_, ?_, ?_, ?_, ?_⟩ <;> decide +kernel

theorem witness_EmitReportsTheFirstUnknownSymbol :
    let s := emitting 4 0 [0x61, 0x62, 0x63, 0x61]
    s.regionsOk ∧ s.ct = some ctAaab ∧ 2 < s.srcCount ∧ (∀ j < 2, ctAaab.entry (s.srcByte j) ≠ []) ∧
      ctAaab.entry (s.srcByte 2) = [] := ⟨by decide +kernel, rfl, by decide +kernel, by decide +kernel, by decide +kernel⟩

/-- Each need is one byte more than the room. -/
theorem witness_OverflowLeavesTheRest :
    (let s := emitting 4 0 aaab
     s.regionsOk ∧ s.ct = some ctAaab ∧ (∀ i < s.srcCount, ctAaab.entry (s.srcByte i) ≠ []) ∧
       s.dstRoom < bytesNeeded .packed (s.sourceCodes ctAaab).length) ∧
    (let s := running .rle (args 6 14) [5, 5, 5, 2, 2, 9]
     s.regionsOk ∧ 0 < s.srcCount ∧ s.areRuns (runsOf s.source) ∧ s.dstRoom < 5 * (runsOf s.source).length) ∧
    (let s := running (.binx .ascii) (args 1 7) [0x41]
     s.regionsOk ∧ s.dstRoom < bytesNeeded .ascii (8 * s.srcCount)) :=
  ⟨⟨by decide +kernel, rfl, by decide +kernel, by decide +kernel⟩,
    ⟨by decide +kernel, by decide +kernel, runsOf_areRuns (by decide +kernel), by decide +kernel⟩, by decide +kernel⟩

/-- The source ends at the last byte of DMEM (V-FQ-4), and where it is empty it may begin past it (V-FQ-3). -/
theorem witness_FreqCountsTheSource : (running .freq { args 1 0 with srcAddr := 0xFFFF } []).srcOk ∧
    (running .freq { args 0 0 with srcAddr := 0x10000 } []).srcOk := by decide +kernel

theorem witness_FrequenciesSumToTheLength :
    let s := running .freq (args 4 0) aaab
    s.srcOk ∧ exec .freq s = .next (after (exec .freq s)) ∧ (after (exec .freq s)).ft = some (freqOf s.source) := by
  have h : (running .freq (args 4 0) aaab).srcOk := by decide +kernel
  refine ⟨h, exec_after _ _, ?_⟩
  rw [exec_freq h]; rfl

/-- The images that end at the last byte of DMEM (V-FL-2, V-CS-5). -/
theorem witness_table_images : (running .ftload { args 0 0 with tblAddr := 0xFC00 } []).tblOk 1024 ∧
    (running .ctload { args 0 0 with tblAddr := 0xDC00 } []).tblOk 9216 := by decide +kernel

/-- For FtstoreWritesTheImage and FtstoreThenFtloadKeepsTheTable. -/
theorem witness_FtstoreThenFtloadKeepsTheTable :
    let s := State.withAaab (running .ftstore { args 0 0 with tblAddr := 0xFC00 } [])
    s.tblOk 1024 ∧ s.ft = some ftAaab ∧ exec .ftstore s = .next (after (exec .ftstore s)) :=
  ⟨by decide +kernel, rfl, exec_after _ _⟩

theorem ftAaab_ne_zero : ftAaab ≠ Vector.replicate 256 0 := by
  intro h
  have := congrArg (fun t => Table.entry t 0x61) h
  simp only [replicate_entry] at this
  exact absurd this (by decide +kernel)

/-- For TreeRunsTheMergeLoop and TreePropertiesHold. -/
theorem witness_TreePropertiesHold :
    let s := State.withAaab (running .tree (args 0 0) [])
    s.ft = some ftAaab ∧ ftAaab ≠ Vector.replicate 256 0 ∧ exec .tree s = .next (after (exec .tree s)) ∧
      (after (exec .tree s)).tree = some treeAaab :=
  ⟨rfl, ftAaab_ne_zero, exec_after _ _, by decide +kernel⟩

theorem witness_MergeLoopOutcomesAreTheTree : (State.withAaab (running .tree (args 0 0) [])).ft = some ftAaab ∧
    ∃ live, IsLeafSet ftAaab live ∧ Huffman 0 live treeAaab :=
  ⟨rfl, leavesOf ftAaab, leavesOf_isLeafSet _, by
    have h : leavesOf ftAaab = [.leaf 0x61 3 0x61, .leaf 0x62 1 0x62] := by decide +kernel
    rw [h]
    refine .round 0 _ (.leaf 0x62 1 0x62) (.leaf 0x61 3 0x61) [] _ (.swap _ _ _) ?_ (by simp) (.root _ _)
    simp [KeyLt, HTree.weight, HTree.seq]⟩

theorem codes_of_aaab : (after (exec .codes (State.withAaab (running .codes (args 0 0) [])))).ct =
    some (assignCodes treeAaab) := by
  rw [exec_codes (h := treeAaab) rfl]; rfl

/-- For CodesArePathsToLeaves: a tree whose leaves differ, and one that has a symbol at two leaves, the first before the
second. -/
theorem witness_CodesArePathsToLeaves :
    (State.withAaab (running .codes (args 0 0) [])).tree = some treeAaab ∧ treeAaab.symbols.Nodup ∧
    (let h := HTree.node 3 7 (.leaf 0x61 1 0) (.leaf 0x61 2 0)
     { running .codes (args 0 0) [] with tree := some h }.tree = some h ∧ ¬h.symbols.Nodup ∧ h.hasCode 0x61 [false] ∧
       h.hasCode 0x61 [true] ∧ PathBefore [false] [true]) :=
  ⟨rfl, by decide, rfl, by decide, rfl, rfl, [], [], [], rfl, rfl⟩

/-- For CodesArePathsToLeaves and CodesArePrefixFree: two leaves; a single leaf is `HTree.leaf 0x61 4 0x61` (V-CD-5). -/
theorem witness_CodesArePrefixFree :
    let s := State.withAaab (running .codes (args 0 0) [])
    s.tree = some treeAaab ∧ treeAaab.symbols.Nodup ∧ 2 ≤ treeAaab.symbols.length ∧
      exec .codes s = .next (after (exec .codes s)) ∧ (after (exec .codes s)).ct = some (assignCodes treeAaab) ∧
      (HTree.leaf 0x61 4 0x61).wf = true :=
  ⟨rfl, by decide, by decide, exec_after _ _, codes_of_aaab, by decide⟩

/-- The same for HUFF, whose output does not fit. -/
theorem witness_CodesArePrefixFree_huff :
    let s := running (.huff .ascii) (args 4 3) aaab
    s.regionsOk ∧ 0 < s.srcCount ∧ s.errCode = 0 ∧ exec (.huff .ascii) s = .next (after (exec (.huff .ascii) s)) ∧
      (after (exec (.huff .ascii) s)).tree = some treeAaab ∧ (∃ ct, (after (exec (.huff .ascii) s)).ct = some ct) ∧
      2 ≤ treeAaab.symbols.length := by
  obtain ⟨-, -, -, -, -, ht, hc, -⟩ := test_huff_overflow_keeps_the_stores
  obtain ⟨ct, hct, -⟩ := Option.map_eq_some_iff.mp hc
  exact ⟨by decide +kernel, by decide +kernel, rfl, exec_after _ _, ht, ⟨ct, hct⟩, by decide⟩

/-- With the stores as CLEAR leaves them, a block that runs EMIT and one that runs CTSTORE can have valid regions. -/
theorem witness_ClearDiscardsTheStores :
    let t := after (exec .clear (State.withAaab (running .clear (args 4 16) aaab)))
    let u := running (.emit .packed) (args 4 16) aaab
    let v := running .ctstore { args 4 16 with tblAddr := 0xDC00 } aaab
    u.ft = t.ft ∧ u.tree = t.tree ∧ u.ct = t.ct ∧ u.regionsOk ∧
      v.ft = t.ft ∧ v.tree = t.tree ∧ v.ct = t.ct ∧ v.tblOk 9216 ∧ v.tblOk 1024 := by decide +kernel

/-- For CtstoreWritesTheImage and CtstoreThenCtloadKeepsTheTable. -/
theorem witness_CtstoreThenCtloadKeepsTheTable :
    let s := State.withAaab (running .ctstore { args 0 0 with tblAddr := 0xDC00 } [])
    s.tblOk 9216 ∧ s.ct = some ctAaab ∧ (∀ b : Byte, (ctAaab.entry b).length ≤ 255) ∧
      exec .ctstore s = .next (after (exec .ctstore s)) := by
  refine ⟨by decide +kernel, rfl, ?_, exec_after _ _⟩
  intro b
  have h : ∀ b : Fin 256, (ctAaab.entry (BitVec.ofFin b)).length ≤ 255 := by decide +kernel
  exact h b.toFin

/-- The output fills the room exactly (V-EM-3). -/
theorem witness_EmitWritesTheCodes :
    let s := emitting 4 1 [0x61, 0x62, 0x62, 0x61]
    s.regionsOk ∧ s.ct = some ctAaab ∧ (∀ i < s.srcCount, ctAaab.entry (s.srcByte i) ≠ []) ∧
      bytesNeeded .packed (s.sourceCodes ctAaab).length ≤ s.dstRoom :=
  ⟨by decide +kernel, rfl, by decide +kernel, by decide +kernel⟩

/-- Two blocks with the same codes, source bytes and room, that differ in their other stores. -/
theorem witness_EmitIsPure :
    let s := emitting 4 1 aaab
    let s' := State.withAaab (running (.emit .packed) (args 4 1) aaab)
    s.regionsOk ∧ s'.regionsOk ∧ s.ct.isSome = true ∧ s.ct = s'.ct ∧ s.srcCount = s'.srcCount ∧
      (∀ i < s.srcCount, s.srcByte i = s'.srcByte i) ∧ s.dstRoom = s'.dstRoom ∧ s.errCode = 0 ∧ s'.errCode = 0 ∧
      exec (.emit .packed) s = .next (after (exec (.emit .packed) s)) ∧ (after (exec (.emit .packed) s)).errCode = 0 ∧
      exec (.emit .packed) s' = .next (after (exec (.emit .packed) s')) :=
  ⟨by decide +kernel, by decide +kernel, rfl, rfl, rfl, fun _ _ => rfl, rfl, rfl, rfl, exec_after _ _, by decide +kernel,
    exec_after _ _⟩

/-- For HuffBuildsAndEmits, HuffIsThePipeline, HuffKnowsItsSymbols and HuffNeverExpands: an output that fills the room
exactly (V-HF-9), and a need of one byte more than the room (V-HF-19). -/
theorem witness_HuffIsThePipeline :
    (let s := running (.huff .packed) (args 6 2) [0x61, 0x61, 0x62, 0x62, 0x63, 0x63]
     s.regionsOk ∧ 0 < s.srcCount ∧ s.errCode = 0 ∧ exec (.huff .packed) s = .next (after (exec (.huff .packed) s)) ∧
       (after (exec (.huff .packed) s)).errCode = 0) ∧
    (let s := running (.huff .ascii) (args 4 3) aaab
     s.regionsOk ∧ 0 < s.srcCount ∧ s.errCode = 0 ∧ s.dstRoom < bytesNeeded .ascii (s.sourceCodes ctAaab).length) :=
  ⟨⟨by decide +kernel, by decide +kernel, rfl, exec_after _ _, test_huff_aabbcc.2.2⟩, by decide +kernel, by decide +kernel,
    rfl, by decide +kernel⟩

/-- Two blocks with the same source bytes and room; one of them holds stores. -/
theorem witness_HuffDependsOnlyOnItsSource :
    let s := running (.huff .packed) (args 1 1) [0x61]
    let s' := State.withAaab (running (.huff .packed) (args 1 1) [0x61])
    s.regionsOk ∧ s'.regionsOk ∧ s.srcCount = s'.srcCount ∧ 0 < s.srcCount ∧
      (∀ i < s.srcCount, s.srcByte i = s'.srcByte i) ∧ s.dstRoom = s'.dstRoom ∧ s.errCode = 0 ∧ s'.errCode = 0 ∧
      exec (.huff .packed) s = .next (after (exec (.huff .packed) s)) ∧
      exec (.huff .packed) s' = .next (after (exec (.huff .packed) s')) :=
  ⟨by decide +kernel, by decide +kernel, rfl, by decide +kernel, fun _ _ => rfl, rfl, rfl, rfl, exec_after _ _,
    exec_after _ _⟩

/-- For RleWritesTheRuns and RleRecordsExpandToTheSource: the records fill the room exactly (V-RL-1). -/
theorem witness_RleRecordsExpandToTheSource :
    let s := running .rle (args 6 15) [5, 5, 5, 2, 2, 9]
    s.regionsOk ∧ 0 < s.srcCount ∧ s.errCode = 0 ∧ s.areRuns (runsOf s.source) ∧ 5 * (runsOf s.source).length ≤ s.dstRoom ∧
      exec .rle s = .next (after (exec .rle s)) ∧ (after (exec .rle s)).errCode = 0 ∧
      (List.range (after (exec .rle s)).results.runs.toNat).map (fun j => (after (exec .rle s)).recordAt s.dstAt j) =
        [(5, 3), (2, 2), (9, 1)] :=
  ⟨by decide +kernel, by decide +kernel, rfl, runsOf_areRuns (by decide +kernel), by decide +kernel, exec_after _ _,
    by decide +kernel, by decide +kernel⟩

/-- For BinxWritesTheBits and BinxPackedCopiesTheSource: the empty source without room (V-BX-3), and an exact fit (V-BX-2,
V-BX-5). -/
theorem witness_BinxWritesTheBits :
    (running (.binx .packed) (args 0 0) []).regionsOk ∧
    bytesNeeded .packed (8 * (running (.binx .packed) (args 0 0) []).srcCount) ≤
      (running (.binx .packed) (args 0 0) []).dstRoom ∧
    (running (.binx .ascii) (args 1 8) []).regionsOk ∧
    bytesNeeded .ascii (8 * (running (.binx .ascii) (args 1 8) []).srcCount) ≤
      (running (.binx .ascii) (args 1 8) []).dstRoom ∧
    (running (.binx .packed) (args 2 2) []).regionsOk ∧
    (running (.binx .packed) (args 2 2) []).srcCount ≤ (running (.binx .packed) (args 2 2) []).dstRoom := by
  decide +kernel

theorem witness_RatioIsTheTruncatedQuotient : (running .ratio { args 0 0 with arg0 := 1 } []).snap.arg0 ≠ 0 := by decide

theorem witness_CommandFrames :
    let s := running .rle (args 6 15) [5, 5, 5, 2, 2, 9]
    exec .rle s = .next (after (exec .rle s)) ∧ writesResult .nsym .rle = false ∧ writesFt .rle = false ∧
      writesTree .rle = false ∧ writesCt .rle = false ∧ ¬mayWriteByte .rle s.snap 0xFF ∧
      ¬mayWriteByte .rle s.snap 0x10F :=
  ⟨exec_after _ _, rfl, rfl, rfl, rfl, by unfold mayWriteByte; decide, by unfold mayWriteByte; decide⟩

/-- A success, HUFF with OutputOverflow, and another error. -/
theorem witness_ValidityFlagsFollowTheirWriters :
    (let s := running .freq (args 4 0) aaab
     s.errCode = 0 ∧ exec .freq s = .next (after (exec .freq s)) ∧ (after (exec .freq s)).errCode = 0) ∧
    (let s := running (.huff .ascii) (args 4 3) aaab
     s.errCode = 0 ∧ exec (.huff .ascii) s = .next (after (exec (.huff .ascii) s)) ∧
       (after (exec (.huff .ascii) s)).errCode = 7) ∧
    (let s := running (.huff .ascii) (args 0 3) []
     s.errCode = 0 ∧ exec (.huff .ascii) s = .next (after (exec (.huff .ascii) s)) ∧
       (after (exec (.huff .ascii) s)).errCode ≠ 0 ∧ (after (exec (.huff .ascii) s)).errCode ≠ 7) :=
  ⟨⟨rfl, exec_after _ _, by decide +kernel⟩, ⟨rfl, exec_after _ _, test_huff_overflow_keeps_the_stores.1⟩, rfl,
    exec_after _ _, by decide +kernel, by decide +kernel⟩

/-- A step in IDLE, and the completion of a command that was not raced, by a block that holds a well-formed tree. -/
theorem witness_EveryStepKeepsTheInvariant : State.reset.Inv ∧ step State.reset = .next State.reset ∧
    (let s := State.withAaab { State.reset with phase := .busy (run (encode .nop) (args 0 0)) }
     s.Inv ∧ step s = .next (after (step s)) ∧ s.treeWf ∧ ∀ r, s.completing r → r.raced = false) := by
  refine ⟨inv_reset, rfl, ⟨rfl, ?_, ?_, rfl, fun _ => ⟨rfl, rfl, rfl, rfl⟩, ?_, fun h => by cases h⟩, step_after _, ?_, ?_⟩
  · intro t h; cases h; decide
  · intro ct h
    rw [← show ctAaab = ct from Option.some.inj h]
    exact witness_CtstoreThenCtloadKeepsTheTable.2.2.1
  · rintro r h a ha; cases h; cases ha
  · intro t h; cases h; decide
  · rintro r ⟨h, -⟩; cases h; rfl

/-- A block in IDLE, with and without its stores. -/
theorem witness_ReadsWhileIdle : State.reset.phase = .idle ∧ (State.withAaab State.reset).phase = .idle := ⟨rfl, rfl⟩

end Sys2Proof.Tests
end

section
/-! SUPPORT. How a command ends: a failed check, a data error of an encoder, or success. One lemma, `exec_ending`, says it of
every command; the frames, the validity flags and the invariant follow from it. -/

namespace Sys2Proof.Machine

/-! ### Checks and bodies -/

/-- The checks of each command in their order of priority (R905, R910). -/
def State.checksOf (s : State) : Instr → List (Option CmdError)
  | .freq => [s.srcCheck]
  | .tree => [s.ftCheck, s.ftNonEmptyCheck]
  | .codes => [s.treeCheck]
  | .emit _ => [s.srcCheck, s.dstCheck, s.overlapCheck, s.ctCheck]
  | .huff _ => [s.srcCheck, s.dstCheck, s.overlapCheck, s.nonEmptyCheck]
  | .rle => [s.srcCheck, s.dstCheck, s.overlapCheck, s.nonEmptyCheck]
  | .binx _ => [s.srcCheck, s.dstCheck, s.overlapCheck]
  | .ratio => [s.ratioCheck]
  | .ftload => [s.tblCheck ftImageSize]
  | .ftstore => [s.tblCheck ftImageSize, s.ftCheck]
  | .ctload => [s.tblCheck ctImageSize]
  | .ctstore => [s.tblCheck ctImageSize, s.ctCheck]
  | .nop => []
  | .clear => []

/-- The frequency-table store after a command that passed its checks (R134). -/
def State.ftAfter (s : State) : Instr → Option FreqTable
  | .freq => some (freqOf s.source)
  | .ftload => some (Table.tab fun b => s.loadCount s.snap.tblAddr.toNat b)
  | .huff _ => some (freqOf s.source)
  | .clear => none
  | _ => s.ft

/-- The node store after a command that passed its checks (R134). -/
def State.treeAfter (s : State) : Instr → Option HTree
  | .freq => none
  | .ftload => none
  | .tree => buildTree s.ftHeld
  | .huff _ => some ((buildTree (freqOf s.source)).getD default)
  | .clear => none
  | _ => s.tree

/-- The code-table store after a command that passed its checks (R134). -/
def State.ctAfter (s : State) : Instr → Option CodeTable
  | .freq => none
  | .ftload => none
  | .tree => none
  | .codes => some (assignCodes s.treeHeld)
  | .ctload => some (Table.tab fun b => s.loadCode s.snap.tblAddr.toNat b)
  | .huff _ => some (assignCodes ((buildTree (freqOf s.source)).getD default))
  | .clear => none
  | _ => s.ct

/-- The state with the stores that a command leaves when it passed its checks (R134). -/
def State.storesAfter (s : State) (i : Instr) : State :=
  { s with ft := s.ftAfter i, tree := s.treeAfter i, ct := s.ctAfter i }

/-- What a command does once its checks pass. -/
def State.bodyOf (s : State) (i : Instr) : State :=
  match i with
  | .nop => s.complete
  | .freq => ((s.storesAfter .freq).setResults [(.inBits, s.inBits)]).complete
  | .tree => ((s.storesAfter .tree).setResults [(.nsym, BitVec.ofNat 32 (distinct s.ftHeld))]).complete
  | .codes => ((s.storesAfter .codes).setResults (assignCodes s.treeHeld).results).complete
  | .emit a => s.emitWith a s.ctHeld
  | .huff a => s.huffBody a
  | .rle => s.rleBody
  | .binx a => s.binxBody a
  | .ratio =>
    (s.setResults [(.resLo, s.ratioWord.extractLsb' 0 32), (.resHi, s.ratioWord.extractLsb' 32 32)]).complete
  | .ftload => (s.storesAfter .ftload).complete
  | .ftstore => (s.storeBytes s.snap.tblAddr.toNat (ftImage s.ftHeld)).complete
  | .ctload => (s.storesAfter .ctload).complete
  | .ctstore => (s.storeBytes s.snap.tblAddr.toNat (ctImage s.ctHeld)).complete
  | .clear => (s.storesAfter .clear).complete

/-- Every command is its checks and its body (R17, R910). -/
theorem exec_eq_checked (i : Instr) (s : State) :
    exec i s = .next (s.checked (resultRegs i) (s.checksOf i) (s.bodyOf i)) := by
  cases i <;> rfl

/-- No check raises a data error (R905, R920). -/
theorem isData_of_mem_checksOf {i : Instr} {s : State} {e : CmdError} (h : some e ∈ s.checksOf i) : e.isData = false := by
  have hreq : ∀ (b : Bool) (d : CmdError), d.isData = false → some e = require b d → e.isData = false :=
    fun b d hd he => require_isData he.symm ▸ hd
  cases i <;> simp only [State.checksOf, List.mem_cons, List.not_mem_nil, or_false] at h
  case freq | codes | ratio | ftload | ctload => exact hreq _ _ rfl h
  case tree | ftstore | ctstore => rcases h with h | h <;> exact hreq _ _ rfl h
  case binx => rcases h with h | h | h <;> exact hreq _ _ rfl h
  case emit | huff | rle => rcases h with h | h | h | h <;> exact hreq _ _ rfl h

/-- The destination region of the encoders: their written region is the one that an error makes free (R232, R920). -/
theorem regionHas_dstRegion {i : Instr} {s : State} {x : Nat} (hw : writtenRegion i s.snap = some s.dstRegion)
    (hx : ¬mayWriteByte i s.snap x) : s.dstRegion.has x = false := by
  rw [mayWriteByte_iff, hw] at hx
  simpa [regionHas] using hx

/-! ### The endings -/

/-- How a command ends. -/
inductive Ending (i : Instr) (s : State) : State → Prop where
  /-- A check fails: its error is raised and the stores stay (R920). -/
  | check (e : CmdError) (he : e.isData = false) : Ending i s (s.raise (resultRegs i) e)
  /-- An encoder meets an unknown symbol (EMIT alone) or its output does not fit; HUFF has built its stores by then (R540). -/
  | data (e : CmdError) (hp : ∀ c ∈ s.checksOf i, c = none) (hw : writtenRegion i s.snap = some s.dstRegion)
      (he : e.code = 7 ∨ ∃ a, i = .emit a) : Ending i s ((s.storesAfter i).raise (resultRegs i) e)
  /-- The command succeeds: it leaves its stores, its own result registers and bytes of its written region (R919). -/
  | success (m : List Host.Cell) (q : Results) (hp : ∀ c ∈ s.checksOf i, c = none)
      (hq : ∀ x, writesResult x i = false → q.read x = s.results.read x)
      (hm : ∀ x, ¬mayWriteByte i s.snap x → ({ s with mem := m } : State).byteAt x = s.byteAt x) :
      Ending i s { s.storesAfter i with phase := .idle, intrDone := true, mem := m, results := q }

/-- Writing a command's own result registers leaves the others (R125). -/
theorem read_foldl_ownResults {i : Instr} {q : Results} {vs : List (ResultReg × Word)} (hv : ∀ v ∈ vs, v.1 ∈ resultRegs i)
    {x : ResultReg} (hx : writesResult x i = false) : (vs.foldl (fun r v => r.write v.1 v.2) q).read x = q.read x := by
  refine Results.read_foldl_write vs q x fun v hm hvx => ?_
  have := (mem_resultRegs i x).mp (hvx ▸ hv v hm)
  simp [hx] at this

/-- A command that only writes its stores and its result registers. -/
theorem ending_setResults {i : Instr} {s : State} (hp : ∀ c ∈ s.checksOf i, c = none) (vs : List (ResultReg × Word))
    (hv : ∀ v ∈ vs, v.1 ∈ resultRegs i) : Ending i s ((s.storesAfter i).setResults vs).complete :=
  .success s.mem _ hp (fun _ hx => read_foldl_ownResults hv hx) fun _ _ => rfl

/-- A command that stores bytes inside its written region. -/
theorem ending_storeBytes {i : Instr} {s : State} (hp : ∀ c ∈ s.checksOf i, c = none) {a : Nat} {bs : List Byte}
    (hb : ∀ x, a ≤ x → x < a + bs.length → mayWriteByte i s.snap x) (vs : List (ResultReg × Word))
    (hv : ∀ v ∈ vs, v.1 ∈ resultRegs i) :
    Ending i s (((s.storesAfter i).storeBytes a bs).setResults vs).complete := by
  refine .success (memStore s.mem a bs) _ hp (fun _ hx => read_foldl_ownResults hv hx) fun x hx => ?_
  refine byteAt_storeBytes_outside s a bs x ?_
  by_contra hc
  exact hx (hb x (by omega) (by omega))

/-- An encoder's delivery: its output fits, or it overflows (R530, R540, R600, R700). -/
theorem ending_deliver {i : Instr} {s : State} (hp : ∀ c ∈ s.checksOf i, c = none)
    (hw : writtenRegion i s.snap = some s.dstRegion) (bs : List Byte) (vs : List (ResultReg × Word))
    (hv : ∀ v ∈ vs, v.1 ∈ resultRegs i) : Ending i s ((s.storesAfter i).deliver (resultRegs i) bs vs) := by
  unfold State.deliver
  split
  · exact .data _ hp hw (.inl rfl)
  · rename_i hfit
    refine ending_storeBytes hp (fun x h1 h2 => ?_) vs hv
    rw [mayWriteByte_iff, hw]
    have hsnap : (s.storesAfter i).snap = s.snap := rfl
    rw [hsnap] at hfit h1 h2
    exact (Region.has_iff _ _).mpr ⟨h1, by simp only [State.dstRegion]; omega⟩

/-- Every command ends in one of the three ways. -/
theorem exec_ending {i : Instr} {s t : State} (h : exec i s = .next t) : Ending i s t := by
  rw [exec_eq_checked] at h
  obtain rfl := Host.Outcome.next.inj h
  rcases checked_cases s (resultRegs i) (s.checksOf i) (s.bodyOf i) with ⟨e, he, ht⟩ | ⟨hc, ht⟩ <;> rw [ht]
  · exact .check e (isData_of_mem_checksOf (firstError_mem he))
  have hp := firstError_eq_none.mp hc
  cases i
  case nop | ftload | ctload | clear => exact ending_setResults hp [] (by simp)
  case freq | tree | codes | ratio => exact ending_setResults hp _ (by simp [resultRegs, CodeTable.results])
  case ftstore =>
    refine ending_storeBytes hp (fun x h1 h2 => ⟨h1, ?_⟩) [] (by simp)
    rwa [length_ftImage] at h2
  case ctstore =>
    refine ending_storeBytes hp (fun x h1 h2 => ⟨h1, ?_⟩) [] (by simp)
    rwa [length_ctImage] at h2
  case emit a =>
    simp only [State.bodyOf, State.emitWith]
    split
    · exact .data _ hp rfl (.inr ⟨a, rfl⟩)
    · exact ending_deliver hp rfl _ _ (by simp [State.streamResults, resultRegs])
  case huff a => exact ending_deliver hp rfl _ _ (by simp [State.streamResults, resultRegs])
  case rle => exact ending_deliver hp rfl _ _ (by simp [resultRegs])
  case binx a => exact ending_deliver hp rfl _ _ (by simp [resultRegs])

end Sys2Proof.Machine
end

section
/-! THEOREMS. What every command leaves unchanged (R125, R134, R232), and the validity flags (R134). -/

namespace Sys2Proof.Machine

/-! ### The stores of a command, by the table R134 -/

theorem ftAfter_frame {i : Instr} (s : State) (h : writesFt i = false) : s.ftAfter i = s.ft := by
  cases i <;> simp [State.ftAfter, writesFt] at h ⊢

theorem treeAfter_frame {i : Instr} (s : State) (h : writesTree i = false) : s.treeAfter i = s.tree := by
  cases i <;> simp [State.treeAfter, writesTree] at h ⊢

theorem ctAfter_frame {i : Instr} (s : State) (h : writesCt i = false) : s.ctAfter i = s.ct := by
  cases i <;> simp [State.ctAfter, writesCt] at h ⊢

theorem isSome_ftAfter (s : State) (i : Instr) : (s.ftAfter i).isSome = ftValidAfter i s.ftValid := by
  cases i <;> rfl

theorem isSome_ctAfter (s : State) (i : Instr) : (s.ctAfter i).isSome = ctValidAfter i s.ctValid := by
  cases i <;> rfl

/-- Once its checks passed TREE builds a tree, so its flag is 1 (R420). -/
theorem exists_buildTree {s : State} (hp : ∀ c ∈ s.checksOf .tree, c = none) :
    ∃ t, buildTree s.ftHeld = some t ∧ Huffman 0 (leavesOf s.ftHeld) t := by
  have hne := (ftNonEmptyCheck_eq_none s).mp (hp _ (by simp [State.checksOf]))
  exact buildTree_huffman fun h0 => hne ((distinct_eq_zero _).mp h0)

theorem isSome_treeAfter {s : State} {i : Instr} (hp : ∀ c ∈ s.checksOf i, c = none) :
    (s.treeAfter i).isSome = treeValidAfter i s.treeValid := by
  cases i
  case tree =>
    obtain ⟨t, ht, -⟩ := exists_buildTree hp
    simp [State.treeAfter, ht, treeValidAfter]
  all_goals rfl

/-- An encoder other than HUFF writes no store (R134). -/
theorem storesAfter_encoder {s : State} {i : Instr} (hw : writtenRegion i s.snap = some s.dstRegion)
    (hi : ∀ a, i ≠ .huff a) :
    s.ftAfter i = s.ft ∧ s.treeAfter i = s.tree ∧ s.ctAfter i = s.ct := by
  cases i
  case huff a => exact absurd rfl (hi a)
  case freq | tree | codes | ftload | ctload | clear => cases hw
  all_goals exact ⟨rfl, rfl, rfl⟩

/-! ### Frames -/

theorem sameSetting_raise (s : State) (i : Instr) (rs : List ResultReg) (e : CmdError) :
    SameSetting s ((s.storesAfter i).raise rs e) := by
  constructor <;> simp [State.storesAfter]

theorem read_raise_own {i : Instr} (s : State) (e : CmdError) {x : ResultReg} (hx : writesResult x i = false) :
    (s.raise (resultRegs i) e).results.read x = s.results.read x := by
  rw [read_raise, if_neg fun h => by simp [(mem_resultRegs i x).mp h] at hx]

/-- Settles O52: the frame of each of the three endings of a command. -/
theorem commandFrames : Obligations.CommandFrames := by
  intro i s t h
  cases exec_ending h with
  | check e he =>
    refine ⟨?_, raise_phase .., raise_intrDone .., fun x hx => read_raise_own s e hx, fun _ => raise_ft ..,
      fun _ => raise_tree .., fun _ => raise_ct .., fun x _ => byteAt_raise s _ e x (.inl he)⟩
    constructor <;> simp
  | data e hp hw he =>
    refine ⟨sameSetting_raise s i _ e, raise_phase .., raise_intrDone .., fun x hx => read_raise_own _ e hx,
      fun hf => (raise_ft ..).trans (ftAfter_frame s hf), fun hf => (raise_tree ..).trans (treeAfter_frame s hf),
      fun hf => (raise_ct ..).trans (ctAfter_frame s hf), fun x hx => ?_⟩
    exact byteAt_raise (s.storesAfter i) _ e x (.inr (regionHas_dstRegion hw hx))
  | success m q hp hq hm =>
    exact ⟨⟨rfl, rfl, rfl, rfl, rfl, rfl, rfl, rfl⟩, rfl, rfl, hq, ftAfter_frame s, treeAfter_frame s, ctAfter_frame s, hm⟩

/-! ### Validity flags -/

/-- Only OutputOverflow, a data error, has code 7 (R901). -/
theorem isData_of_code {e : CmdError} (h : e.code = 7) : e.isData = true := by
  cases e <;> simp [CmdError.code, CmdError.isData] at h ⊢

/-- Settles O53: a success leaves the flags of its row, an error leaves the stores, and HUFF's overflow comes after its stores
are built. -/
theorem validityFlagsFollowTheirWriters : Obligations.ValidityFlagsFollowTheirWriters := by
  refine ⟨fun i s t h0 h => ?_, fun s => ⟨⟨rfl, rfl, rfl⟩, rfl, rfl, rfl⟩⟩
  cases exec_ending h with
  | check e he =>
    rw [raise_errCode]
    refine ⟨fun h => absurd h (code_ne_zero e), fun h => ?_, fun _ _ => ⟨raise_ft .., raise_tree .., raise_ct ..⟩⟩
    simp [isData_of_code h] at he
  | data e hp hw he =>
    rw [raise_errCode, raise_ft, raise_tree, raise_ct]
    refine ⟨fun h => absurd h (code_ne_zero e), ?_, fun _ hne => storesAfter_encoder hw ?_⟩
    · rintro - ⟨a, rfl⟩
      simp [State.ftValid, State.treeValid, State.ctValid, State.storesAfter, State.ftAfter, State.treeAfter, State.ctAfter]
    · rintro a rfl
      have h7 : e.code = 7 := he.resolve_right fun ⟨b, hb⟩ => nomatch hb
      exact hne.elim (absurd h7) fun h => h a rfl
  | success m q hp hq hm =>
    refine ⟨fun _ => ⟨isSome_ftAfter s i, isSome_treeAfter hp, isSome_ctAfter s i⟩, fun h7 => ?_, fun hne => absurd h0 hne⟩
    exact absurd (h0.symm.trans h7) (by decide)

end Sys2Proof.Machine
end

section
/-! THEOREMS. Every step keeps the invariant of the machine: the end of a command, the completion of a raced one, and each
event of the host. -/

namespace Sys2Proof.Machine

/-! ### Trees and codes fit their stores -/

/-- Once its checks passed HUFF builds a well-formed tree: its source is not empty and lies in DMEM (R540). -/
theorem exists_buildTree_huff {s : State} {a : Layout} (hp : ∀ c ∈ s.checksOf (.huff a), c = none) :
    ∃ t, buildTree (freqOf s.source) = some t ∧ t.wf = true := by
  have hsrc := (srcCheck_eq_none s).mp (hp _ (by simp [State.checksOf]))
  have hpos := (nonEmptyCheck_eq_none s).mp (hp _ (by simp [State.checksOf]))
  have hsize := dmemSize_le s
  have hlen := length_source s
  simp only [State.srcOk] at hsrc
  obtain ⟨t, ht, -, hw, -⟩ := huff_known (bs := s.source) (by omega) (List.ne_nil_of_length_pos (by omega))
  exact ⟨t, ht, hw⟩

/-- The tree a command leaves is the one it found, or one that TREE or HUFF built (R425). -/
theorem treeAfter_cases {i : Instr} {s : State} (hp : ∀ c ∈ s.checksOf i, c = none) {t : HTree} (h : s.treeAfter i = some t) :
    s.tree = some t ∨ t.wf = true := by
  cases i
  case freq | ftload | clear => cases h
  case tree =>
    obtain ⟨u, hu, hh⟩ := exists_buildTree hp
    obtain rfl : u = t := Option.some.inj (hu.symm.trans h)
    exact .inr hh.of_leaves.1
  case huff a =>
    obtain ⟨u, hu, hw⟩ := exists_buildTree_huff hp
    obtain rfl : u = t := by simpa [State.treeAfter, hu] using h
    exact .inr hw
  all_goals exact .inl h

/-- The code table a command leaves has codes of at most 255 bits (R133, R505). -/
theorem ctAfter_length {i : Instr} {s : State} (hI : s.Inv) (hp : ∀ c ∈ s.checksOf i, c = none) {ct : CodeTable}
    (h : s.ctAfter i = some ct) (b : Byte) : (ct.entry b).length ≤ 255 := by
  cases i
  case freq | ftload | tree | clear => cases h
  case codes =>
    obtain ⟨t, ht⟩ := (treeCheck_eq_none s).mp (hp _ (by simp [State.checksOf]))
    obtain rfl : assignCodes t = ct := by simpa [State.ctAfter, State.treeHeld, ht] using h
    exact (assignCodes_isCodeTable t).length_le (hI.tree t ht) b
  case huff a =>
    obtain ⟨t, ht, hw⟩ := exists_buildTree_huff hp
    obtain rfl : assignCodes t = ct := by simpa [State.ctAfter, ht] using h
    exact (assignCodes_isCodeTable t).length_le (HTree.size_le hw) b
  case ctload =>
    obtain rfl := Option.some.inj h
    rw [Table.entry_tab, State.loadCode, List.length_map, List.length_range]
    omega
  all_goals exact hI.codes ct h b

theorem freeHTree_size {n : Nat} {t : HTree} (h : freeHTree n = some t) : t.size ≤ Config.maxNodes := by
  simp only [freeHTree, freeOpt, Option.ite_none_right_eq_some, Bool.and_eq_true, decide_eq_true_eq, Option.some.injEq] at h
  obtain ⟨⟨-, hs⟩, rfl⟩ := h
  exact hs

theorem freeCt_length {n : Nat} {ct : CodeTable} (h : freeCt n = some ct) (b : Byte) : (ct.entry b).length ≤ 255 := by
  simp only [freeCt, freeOpt, Option.ite_none_right_eq_some, Option.some.injEq] at h
  obtain ⟨-, rfl⟩ := h
  rw [Table.entry_tab, List.length_map, List.length_range]
  omega

/-! ### The invariant under updates of the state -/

/-- In IDLE with `rst_n` = 1 the invariant is about DMEM, the stores and ERRCODE alone. -/
theorem inv_of_idle {s : State} (hphase : s.phase = .idle) (hrst : s.rstN = true) (hmem : s.memOk = true)
    (htree : ∀ t, s.tree = some t → t.size ≤ Config.maxNodes)
    (hcodes : ∀ ct, s.ct = some ct → ∀ b : Byte, (ct.entry b).length ≤ 255) (herr : legalErrCode s.errCode = true) : s.Inv where
  mem := hmem
  tree := htree
  codes := hcodes
  errCode := herr
  busy h := by simp [State.isBusy, hphase] at h
  touched r h := by simp [hphase] at h
  held h := by simp [hrst] at h

/-- Reset values meet the invariant, whatever the level of `rst_n` (R1000). -/
theorem inv_of_registersReset {s : State} (hmem : s.memOk = true) (h : s.registersReset) : s.Inv := by
  obtain ⟨hphase, -, -, -, herr, -, -, -, -, -, htree, hct⟩ := id h
  exact {
    mem := hmem
    tree := by simp [htree]
    codes := by simp [hct]
    errCode := by rw [herr]; rfl
    busy := by simp [State.isBusy, hphase]
    touched := by simp [hphase]
    held := fun _ => h }

/-- The invariant does not speak of the host's queue, the draws and the answer. -/
theorem State.Inv.outside {s : State} (h : s.Inv) (n : Nat) (q : List HostEvent) (r : Option Response) :
    State.Inv { s with draws := n, hostQ := q, resp := r } :=
  ⟨h.mem, h.tree, h.codes, h.errCode, h.busy, h.touched, h.held⟩

/-- While `rst_n` is 1 the invariant does not speak of the registers that the host writes either. -/
theorem State.Inv.hostRegs {s : State} (h : s.Inv) (hrst : s.rstN = true) (ie done drop : Bool) (a : Args) :
    State.Inv { s with ie := ie, intrDone := done, intrDrop := drop, args := a } :=
  ⟨h.mem, h.tree, h.codes, h.errCode, h.busy, h.touched, fun h0 => by simp [hrst] at h0⟩

theorem State.Inv.withMem {s : State} (h : s.Inv) {m : List Host.Cell} (hm : memWf m s.dmemSize = true) :
    State.Inv { s with mem := m } :=
  ⟨hm, h.tree, h.codes, h.errCode, h.busy, h.touched, h.held⟩

/-- A new record of the running command, its noted bytes inside DMEM. -/
theorem State.Inv.setRun {s : State} (h : s.Inv) {r r' : Run} (hphase : s.phase = .busy r)
    (ht : ∀ a ∈ r'.touched, a < s.dmemSize) : State.Inv { s with phase := .busy r' } := by
  have hbusy := h.busy (by simp [State.isBusy, hphase])
  exact ⟨h.mem, h.tree, h.codes, h.errCode, fun _ => hbusy, fun q hq => by cases hq; exact ht,
    fun h0 => by simp [hbusy.1] at h0⟩

/-! ### What keeps the invariant -/

/-- The end state has the invariant, DMEM_SIZE is the same, and a valid tree stays well formed (R132, R425). -/
structure Keeps (s t : State) : Prop where
  inv : t.Inv
  memLog : t.memLog = s.memLog
  treeWf : s.treeWf → t.treeWf

/-- An update that leaves DMEM_SIZE and the tree keeps what the claim names if it keeps the invariant. -/
theorem keeps_of_same {s t : State} (h : t.Inv) (hlog : t.memLog = s.memLog) (htree : t.tree = s.tree) : Keeps s t :=
  ⟨h, hlog, fun hw u hu => hw u (htree ▸ hu)⟩

/-- A reset leaves no tree. -/
theorem keeps_of_reset {s t : State} (hmem : t.memOk = true) (hlog : t.memLog = s.memLog) (h : t.registersReset) :
    Keeps s t := by
  refine ⟨inv_of_registersReset hmem h, hlog, fun _ u hu => ?_⟩
  obtain ⟨-, -, -, -, -, -, -, -, -, -, htree, -⟩ := h
  simp [htree] at hu

theorem Keeps.trans {s t u : State} (h : Keeps s t) (h' : Keeps t u) : Keeps s u :=
  ⟨h'.inv, h'.memLog.trans h.memLog, fun hw => h'.treeWf (h.treeWf hw)⟩

theorem keeps_refl {s : State} (h : s.Inv) : Keeps s s := keeps_of_same h rfl rfl

theorem Keeps.respond {s t : State} (h : Keeps s t) (r : Response) : Keeps s (t.respond r) :=
  h.trans (keeps_of_same (h.inv.outside t.draws t.hostQ (some r)) rfl rfl)

/-! ### Completions -/

theorem keeps_raise {s : State} (hI : s.Inv) (hrst : s.rstN = true) (rs : List ResultReg) (e : CmdError) :
    Keeps s (s.raise rs e) := by
  refine keeps_of_same (inv_of_idle ?_ ?_ (memOk_raise hI.mem rs e) ?_ ?_ ?_) ?_ ?_ <;> simp only [raise_phase, raise_rstN,
    raise_tree, raise_ct, raise_errCode, raise_memLog, hrst]
  · exact hI.tree
  · exact hI.codes
  · exact legalErrCode_code e

/-- A command's stores, once its checks passed. -/
theorem keeps_storesAfter {i : Instr} {s : State} (hI : s.Inv) (hrst : s.rstN = true) (hp : ∀ c ∈ s.checksOf i, c = none) :
    Keeps s (s.storesAfter i) where
  inv := {
    hI with
    tree := fun t ht => (treeAfter_cases hp ht).elim (hI.tree t) HTree.size_le
    codes := fun ct hc => ctAfter_length hI hp hc
    held := fun h0 => by simp [State.storesAfter, hrst] at h0 }
  memLog := rfl
  treeWf hw t ht := (treeAfter_cases hp ht).elim (hw t) id

/-- Every command keeps the invariant. -/
theorem keeps_exec {i : Instr} {s t : State} (hI : s.Inv) (hrst : s.rstN = true) (h : exec i s = .next t) : Keeps s t := by
  have hmem := memOk_exec hI.mem h
  cases exec_ending h with
  | check e => exact keeps_raise hI hrst _ e
  | data e hp =>
    have hk := keeps_storesAfter hI hrst hp
    exact hk.trans (keeps_raise hk.inv hrst _ e)
  | success m q hp =>
    have hk := keeps_storesAfter hI hrst hp
    exact hk.trans (keeps_of_same (inv_of_idle rfl hrst hmem hk.inv.tree hk.inv.codes hI.errCode) rfl rfl)

/-- Freeing the noted bytes after a command keeps the invariant (R1021). -/
theorem keeps_smearTouched {s : State} (hI : s.Inv) {as : List Nat} (ha : ∀ a ∈ as, a < s.dmemSize) :
    Keeps s (s.smearTouched as) := by
  have hmem := memOk_smearTouched hI.mem ha
  rw [smearTouched_eq] at hmem ⊢
  exact keeps_of_same ((hI.withMem hmem).outside _ s.hostQ s.resp) rfl rfl

/-- A raced completion keeps the invariant: its free values are taken among those that fit (R901, R1020). -/
theorem inv_raceCompletion {s : State} (hI : s.Inv) (hrst : s.rstN = true) (i : Instr) (a : Args) :
    (s.raceCompletion i a).Inv ∧ (s.raceCompletion i a).memLog = s.memLog := by
  have hmem := memOk_raceCompletion hI.mem i a
  obtain ⟨f, t, c, q, m, d, heq, -, ht, hc, -, -⟩ := raceCompletion_spec s i a
  rw [heq] at hmem ⊢
  refine ⟨inv_of_idle rfl hrst hmem (fun u hu => ?_) (fun u hu b => ?_) (legalErrCode_errCodeNo _), rfl⟩
  · rcases ht with rfl | ⟨-, rfl⟩
    · exact hI.tree u hu
    · exact freeHTree_size hu
  · rcases hc with rfl | ⟨-, rfl⟩
    · exact hI.codes u hu b
    · exact freeCt_length hu b

/-! ### Host events -/

theorem keeps_readRegAt {s : State} (hI : s.Inv) (off : Nat) : Keeps s (s.readRegAt off) := by
  obtain ⟨n, r, h⟩ := readRegAt_eq s off
  rw [h]
  exact keeps_of_same (hI.outside n s.hostQ (some r)) rfl rfl

theorem registersReset_softReset (s : State) : s.softReset.registersReset :=
  ⟨rfl, rfl, rfl, rfl, rfl, rfl, rfl, rfl, rfl, rfl, rfl, rfl⟩

theorem registersReset_hardReset (s : State) : s.hardReset.registersReset :=
  ⟨rfl, rfl, rfl, rfl, rfl, rfl, rfl, rfl, rfl, rfl, rfl, rfl⟩

theorem keeps_softReset {s : State} (hI : s.Inv) : Keeps s s.softReset :=
  keeps_of_reset (memOk_softReset hI.mem) rfl (registersReset_softReset s)

theorem keeps_hardReset (s : State) : Keeps s s.hardReset :=
  keeps_of_reset (memOk_hardReset s) rfl (registersReset_hardReset s)

/-- Acceptance clears the error registers and notes no byte yet (R110). -/
theorem keeps_accept {s : State} (hI : s.Inv) (hrst : s.rstN = true) (w : Word) (d : Nat) : Keeps s (s.accept w d) :=
  keeps_of_same ⟨hI.mem, hI.tree, hI.codes, rfl, fun _ => ⟨hrst, rfl, rfl, rfl⟩, fun r hr => by cases hr; simp,
    fun h0 => by simp [hrst] at h0⟩ rfl rfl

theorem keeps_regWrite {s : State} (hI : s.Inv) (hrst : s.rstN = true) (x : Reg) (v : Word) : Keeps s (s.regWrite x v) := by
  have hregs (ie done drop : Bool) (a : Args) :
      Keeps s { s with ie := ie, intrDone := done, intrDrop := drop, args := a } :=
    keeps_of_same (hI.hostRegs hrst ie done drop a) rfl rfl
  cases x
  case ctrl =>
    simp only [State.regWrite, State.writeCtrl]
    split
    · exact keeps_softReset hI
    · exact hregs _ _ _ _
  case cmd =>
    simp only [State.regWrite, State.writeCmd]
    split
    · exact hregs _ _ _ _
    · have h := keeps_accept hI hrst v (Config.freeDelay s.draws)
      exact h.trans (keeps_of_same (h.inv.outside _ s.hostQ s.resp) rfl rfl)
  case intr | srcAddr | srcLen | dstAddr | dstCap | tblAddr | arg0 | arg1 => exact hregs _ _ _ _
  all_goals exact keeps_refl hI

theorem keeps_writeRegAt {s : State} (hI : s.Inv) (hrst : s.rstN = true) (off : Nat) (v : Word) :
    Keeps s (s.writeRegAt off v) := by
  unfold State.writeRegAt
  split
  · exact (keeps_regWrite hI hrst _ v).respond _
  · exact (keeps_refl hI).respond _

/-- A host write notes only bytes of the write itself, and those are inside DMEM (R1021). -/
theorem keeps_noteWrite {s : State} (hI : s.Inv) {a n : Nat} (hb : a + n ≤ s.dmemSize) : Keeps s (s.noteWrite a n) := by
  unfold State.noteWrite
  split
  · exact keeps_refl hI
  · rename_i r hphase
    refine keeps_of_same (hI.setRun hphase fun x hx => ?_) rfl rfl
    simp only [List.mem_append, List.mem_filter, List.mem_map, List.mem_range] at hx
    rcases hx with hx | ⟨⟨j, hj, rfl⟩, -⟩
    · exact hI.touched r hphase x hx
    · omega

theorem keeps_dmemWrite {s : State} (hI : s.Inv) {a n : Nat} (v : Word) (hb : a + n ≤ s.dmemSize) :
    Keeps s (s.dmemWrite a n v) := by
  have hk := keeps_noteWrite hI hb
  refine hk.trans (keeps_of_same (hk.inv.withMem (memOk_storeBytes hk.inv.mem ?_)) rfl rfl)
  rw [length_leBytes, State.dmemSize, hk.memLog]
  exact hb

/-- An access that reaches DMEM lies inside it (R202). -/
theorem target_dmem_bound {s : State} {q : Access} {a n : Nat} (h : s.target q = .dmem a n) : a + n ≤ s.dmemSize := by
  simp only [State.target] at h
  split_ifs at h with _ _ _ hin
  obtain ⟨-, -, hbound⟩ := hin
  obtain ⟨rfl, rfl⟩ := Target.dmem.inj h
  exact hbound

theorem keeps_drawIf {s : State} (hI : s.Inv) (b : Bool) : Keeps s (s.drawIf b) := by
  unfold State.drawIf
  split
  · exact keeps_of_same (hI.outside _ s.hostQ s.resp) rfl rfl
  · exact keeps_refl hI

theorem keeps_access {s : State} (hI : s.Inv) (hrst : s.rstN = true) (q : Access) : Keeps s (s.access q) := by
  unfold State.access
  split
  · split
    · exact keeps_writeRegAt hI hrst _ _
    · exact keeps_readRegAt hI _
  · rename_i htarget
    split
    · exact (keeps_dmemWrite hI _ (target_dmem_bound htarget)).respond _
    · exact (keeps_drawIf hI _).respond _
  · exact (keeps_refl hI).respond _

/-- Every event of the host keeps the invariant; while `rst_n` is 0 the block answers none of them (R1001). -/
theorem keeps_event {s : State} (hI : s.Inv) (e : HostEvent) : Keeps s (s.event e) := by
  have hmute : Keeps s { s with resp := none } := keeps_of_same (hI.outside s.draws s.hostQ none) rfl rfl
  cases e with
  | rstN level =>
    cases level with
    | false => exact keeps_hardReset s
    | true =>
      refine keeps_of_same ⟨hI.mem, hI.tree, hI.codes, hI.errCode, fun h => ?_, hI.touched, fun h0 => nomatch h0⟩ rfl rfl
      exact ⟨rfl, (hI.busy h).2⟩
  | access q =>
    simp only [State.event]
    split
    · rename_i hrst
      exact keeps_access hI hrst q
    · exact hmute
  | wait =>
    simp only [State.event]
    split
    · exact keeps_readRegAt hI _
    · exact hmute

theorem keeps_tick {s : State} (hI : s.Inv) : Keeps s s.tick := by
  unfold State.tick
  split
  · rename_i r hphase
    exact keeps_of_same (hI.setRun hphase (hI.touched r hphase)) rfl rfl
  · exact keeps_refl hI

theorem keeps_hostTurn {s : State} (hI : s.Inv) : Keeps s s.hostTurn := by
  unfold State.hostTurn
  split
  · exact keeps_refl hI
  · rename_i e es _
    have hq : Keeps s { s with hostQ := es } := keeps_of_same (hI.outside s.draws es s.resp) rfl rfl
    have ht := hq.trans (keeps_tick hq.inv)
    exact ht.trans (keeps_event ht.inv e)

/-! ### Every step -/

/-- Settles O55, by the four things a step can be: the completion of an illegal word, of a command, of a raced command, or the
host's turn. -/
theorem everyStepKeepsTheInvariant : Obligations.EveryStepKeepsTheInvariant := by
  intro s t hI hstep
  have claim (u : State) (hu : step s = .next u) (hk : Keeps s u) :
      t.Inv ∧ t.memLog = s.memLog ∧ (s.treeWf → (∀ r, s.completing r → r.raced = false) → t.treeWf) := by
    obtain rfl := Host.Outcome.next.inj (hu.symm.trans hstep)
    exact ⟨hk.inv, hk.memLog, fun hw _ => hk.treeWf hw⟩
  rcases step_cases s with ⟨r, hc, -, hs⟩ | ⟨r, i, u, hc, -, -, hu, hs⟩ | ⟨r, i, hc, -, hr, hs⟩ | ⟨-, hs⟩
  · exact claim _ hs (keeps_raise hI hc.2.1 _ _)
  · have hk := keeps_exec hI hc.2.1 hu
    refine claim _ hs (hk.trans (keeps_smearTouched hk.inv ?_))
    rw [State.dmemSize, hk.memLog]
    exact hI.touched r hc.1
  · obtain rfl := Host.Outcome.next.inj (hs.symm.trans hstep)
    obtain ⟨hinv, hlog⟩ := inv_raceCompletion hI hc.2.1 i r.snap
    exact ⟨hinv, hlog, fun _ hnr => absurd (hnr r hc) (by simp [hr])⟩
  · exact claim _ hs (keeps_hostTurn hI)

end Sys2Proof.Machine
end

section
/-! THEOREMS. The register map at the host port: which offsets a write changes and what a read returns (R120 to R125). -/

namespace Sys2Proof.Machine

/-! ### The argument registers -/

/-- Is the register one of the seven of R124? -/
def Reg.isArg : Reg → Bool
  | .srcAddr | .srcLen | .dstAddr | .dstCap | .tblAddr | .arg0 | .arg1 => true
  | _ => false

theorem regWrite_arg {x : Reg} (hx : x.isArg = true) (s : State) (v : Word) :
    s.regWrite x v = { s with args := (s.regWrite x v).args } := by
  cases x <;> simp [Reg.isArg, State.regWrite] at hx ⊢

/-- An argument register reads back the last value written, in either phase (R124). -/
theorem regRead_regWrite_same {x : Reg} (hx : x.isArg = true) (s : State) (v : Word) : (s.regWrite x v).regRead x = v := by
  rw [regRead_exact _ x (by rintro rfl; cases hx) (by rintro r rfl; cases hx)]
  cases x <;> simp [Reg.isArg, State.regWrite, State.regValue] at hx ⊢

/-- A write of an argument register changes what no other register reads: each reads a field of its own (R124). -/
theorem regRead_regWrite_other {x y : Reg} (hx : x.isArg = true) (hxy : y ≠ x) (s : State) (v : Word) :
    (s.regWrite x v).regRead y = s.regRead y := by
  cases x <;> cases hx <;> cases y <;> simp at hxy
  all_goals rfl

/-- The offsets of the argument registers (R120). -/
theorem exists_arg_of_offset {off : Word}
    (h : off = 0x040 ∨ off = 0x044 ∨ off = 0x048 ∨ off = 0x04C ∨ off = 0x050 ∨ off = 0x054 ∨ off = 0x058) :
    ∃ x : Reg, x.isArg = true ∧ off = BitVec.ofNat 32 x.offset := by
  rcases h with rfl | rfl | rfl | rfl | rfl | rfl | rfl
  exacts [⟨.srcAddr, rfl, rfl⟩, ⟨.srcLen, rfl, rfl⟩, ⟨.dstAddr, rfl, rfl⟩, ⟨.dstCap, rfl, rfl⟩, ⟨.tblAddr, rfl, rfl⟩,
    ⟨.arg0, rfl, rfl⟩, ⟨.arg1, rfl, rfl⟩]

/-- Every register's offset is a word of the register window (R120, R200). -/
theorem offset_spec (x : Reg) : x.offset < 0x1000 ∧ x.offset % 4 = 0 := by
  cases x with
  | result r => cases r <;> decide
  | _ => decide

theorem toNat_offset (x : Reg) : (BitVec.ofNat 32 x.offset).toNat = x.offset := by
  have := (offset_spec x).1
  rw [BitVec.toNat_ofNat]
  omega

/-- A 4-byte write at a register's offset is a write of that register. -/
theorem access_write_reg (s : State) (x : Reg) (v : Word) :
    s.access ⟨BitVec.ofNat 32 x.offset, true, 4, v⟩ = (s.regWrite x v).respond .writeOk := by
  obtain ⟨h1, h2⟩ := offset_spec x
  rw [access_write (by rwa [toNat_offset]) (by rwa [toNat_offset]), toNat_offset, State.writeRegAt, regAt_offset]

/-- A 4-byte read at a register's offset is a read of that register. -/
theorem access_read_reg (s : State) (x : Reg) : s.access ⟨BitVec.ofNat 32 x.offset, false, 4, 0⟩ =
    (s.drawIf (s.regReadDraws x)).respond (.readOk (s.regRead x)) := by
  obtain ⟨h1, h2⟩ := offset_spec x
  rw [access_read (by rwa [toNat_offset]) (by rwa [toNat_offset]), toNat_offset, State.readRegAt, regAt_offset]

/-- In IDLE a register read returns the register's value and makes no draw. -/
theorem access_read_idle {s : State} (h : s.phase = .idle) (x : Reg) :
    s.access ⟨BitVec.ofNat 32 x.offset, false, 4, 0⟩ = { s with resp := some (.readOk (s.regValue x)) } := by
  have hbusy : s.isBusy = false := by simp [State.isBusy, h]
  have hdraws : s.regReadDraws x = false := by simp [State.regReadDraws, hbusy]
  have hread : s.regRead x = s.regValue x := by simp [State.regRead, hbusy]
  rw [access_read_reg, hdraws, hread]
  rfl

/-- In either phase a register that R1022 does not name is read exactly. -/
theorem access_read_exact (s : State) {x : Reg} (h1 : x ≠ .status) (h2 : ∀ r, x ≠ .result r) :
    s.access ⟨BitVec.ofNat 32 x.offset, false, 4, 0⟩ = { s with resp := some (.readOk (s.regValue x)) } := by
  obtain ⟨h3, h4⟩ := offset_spec x
  rw [access_read (by rwa [toNat_offset]) (by rwa [toNat_offset]), toNat_offset,
    readRegAt_exact (regAt_offset x) h1 h2]

/-- Settles O13: the write reaches the argument register at the offset, and every other offset names another register. -/
theorem argumentRegistersReadBack : Obligations.ArgumentRegistersReadBack := by
  intro s off v hoff
  obtain ⟨x, hx, rfl⟩ := exists_arg_of_offset hoff
  have hw := access_write_reg s x v
  refine ⟨_, rfl, ?_, ?_, fun off' hne h4 hlt => ?_⟩ <;> rw [hw]
  · rw [regWrite_arg hx]
    rfl
  · rw [access_read_reg, State.respond_resp]
    exact congrArg (fun w => some (Response.readOk w)) (regRead_regWrite_same hx s v)
  · rw [access_read hlt h4, access_read hlt h4, resp_readRegAt, resp_readRegAt]
    cases hy : regAt off'.toNat with
    | none => rfl
    | some y =>
      have hxy : y ≠ x := by
        rintro rfl
        exact hne (BitVec.eq_of_toNat_eq ((offset_of_regAt hy).trans (toNat_offset y).symm))
      exact congrArg (fun w => some (Response.readOk w)) (regRead_regWrite_other hx hxy s v)

/-! ### Read-only and reserved offsets -/

/-- May a host write of the register change anything? (R120) -/
def Reg.isWritable (x : Reg) : Bool :=
  x.isArg || x == .ctrl || x == .intr || x == .cmd

theorem regWrite_readOnly {x : Reg} (hx : x.isWritable = false) (s : State) (v : Word) : s.regWrite x v = s := by
  cases x <;> simp [Reg.isWritable, Reg.isArg, State.regWrite] at hx ⊢

/-- The offsets of the writable registers. -/
theorem offset_of_isWritable {x : Reg} (hx : x.isWritable = true) :
    x.offset = 0x00C ∨ x.offset = 0x014 ∨ x.offset = 0x018 ∨ (0x040 ≤ x.offset ∧ x.offset ≤ 0x058) := by
  cases x <;> simp [Reg.isWritable, Reg.isArg, Reg.offset] at hx ⊢

/-- No register but CMD has an offset in the reserved ranges of R120. -/
theorem offset_reserved {x : Reg} (h : x.offset = 0x018 ∨ (0x028 ≤ x.offset ∧ x.offset ≤ 0x03C) ∨
    (0x05C ≤ x.offset ∧ x.offset ≤ 0x07C) ∨ 0x0A0 ≤ x.offset) : x = .cmd := by
  cases x with
  | result r => cases r <;> exact absurd h (by decide)
  | cmd => rfl
  | _ => exact absurd h (by decide)

/-- Settles O14: an offset names at most one register, and R120 says which of them can be written. -/
theorem readOnlyAndReservedRegisters : Obligations.ReadOnlyAndReservedRegisters := by
  intro s off v hlt h4
  refine ⟨fun hctrl hintr hcmd hargs => ?_, fun hres => ?_, ?_, ?_, ?_⟩
  · rw [access_write hlt h4, State.writeRegAt]
    cases hx : regAt off.toNat with
    | none => rfl
    | some x =>
      have hoff := offset_of_regAt hx
      have hro : x.isWritable = false := by
        rw [Bool.eq_false_iff]
        intro hw
        rcases offset_of_isWritable hw with h | h | h | h
        · exact hctrl (BitVec.eq_of_toNat_eq (hoff.trans h))
        · exact hintr (BitVec.eq_of_toNat_eq (hoff.trans h))
        · exact hcmd (BitVec.eq_of_toNat_eq (hoff.trans h))
        · exact hargs (hoff ▸ h)
      simp only [regWrite_readOnly hro]
      rfl
  · rw [access_read hlt h4]
    cases hx : regAt off.toNat with
    | none =>
      rw [State.readRegAt, hx]
      rfl
    | some x =>
      have hoff := offset_of_regAt hx
      obtain rfl : x = .cmd := offset_reserved (by
        rw [← hoff]
        exact hres.imp_left (congrArg BitVec.toNat))
      exact readRegAt_exact hx (by decide) nofun
  · rintro rfl
    exact access_read_exact s (x := .id) (by decide) nofun
  · rintro rfl
    exact access_read_exact s (x := .version) (by decide) nofun
  · rintro rfl
    exact access_read_exact s (x := .memsize) (by decide) nofun

/-! ### INTR and CTRL -/

/-- A two-bit word is below 4. -/
theorem toNat_intr_lt (s : State) : s.intr.toNat < 4 := by
  unfold State.intr
  cases s.intrDone <;> cases s.intrDrop <;> decide

theorem ctrl_eq_and {s : State} {v : Word} (h : s.ie = v.getLsbD 1) : s.ctrl = v &&& 2 := by
  have htwo : (2 : Word) = bitWord true 1 := by decide
  apply BitVec.eq_of_getLsbD_eq
  intro j hj
  rw [State.ctrl, htwo, BitVec.getLsbD_and, getLsbD_bitWord _ _ _ (by omega), getLsbD_bitWord _ _ _ (by omega), h]
  by_cases h1 : 1 = j
  · simp [← h1]
  · simp [h1]

/-- Settles O15: a write at the offsets of INTR and CTRL is a write of those registers, and both are read exactly. -/
theorem intrAndCtrlFollowTheirBits : Obligations.IntrAndCtrlFollowTheirBits := by
  intro s v
  have hctrl (hv : v.getLsbD 0 = false) :
      s.access ⟨0x00C, true, 4, v⟩ = { s with ie := v.getLsbD 1, resp := some .writeOk } := by
    refine (access_write_reg s .ctrl v).trans ?_
    rw [State.regWrite, State.writeCtrl, hv]
    rfl
  refine ⟨access_write_reg s .intr v, fun hv => ⟨hctrl hv, ?_⟩, ?_⟩
  · rw [hctrl hv]
    refine (congrArg State.resp (access_read_exact _ (x := .ctrl) (by decide) nofun)).trans ?_
    exact congrArg (fun w => some (Response.readOk w)) (ctrl_eq_and rfl)
  · refine ⟨s.intr, congrArg State.resp (access_read_exact s (x := .intr) (by decide) nofun), ?_, ?_, toNat_intr_lt s⟩ <;>
      rw [getLsbD_intr] <;> simp

/-! ### Reads in IDLE -/

theorem toNat_status_lt (s : State) : s.status.toNat < 32 := by
  have h : ∀ busy err ftv treev ctv, (statusOf busy err ftv treev ctv).toNat < 32 := by decide
  exact h _ _ _ _ _

/-- Settles O56: in IDLE each register is read exactly, and the bits of STATUS are those of R122. -/
theorem readsWhileIdle : Obligations.ReadsWhileIdle := by
  intro s hs
  have hread := access_read_idle hs
  refine ⟨⟨s.status, hread .status, ?_, ?_, ?_, ?_, ?_, toNat_status_lt s⟩, ⟨_, hread .errcode, ?_⟩, hread .errinfo0,
    hread .errinfo1, hread (.result .inBits), hread (.result .outBits), hread (.result .outBytes), hread (.result .runs),
    hread (.result .nsym), hread (.result .maxlen), hread (.result .resLo), hread (.result .resHi)⟩
  · rw [State.status, getLsbD_statusOf]
    simp [State.isBusy, hs]
  · rw [State.status, getLsbD_statusOf]
    simp [State.errFlag]
  · rw [State.status, getLsbD_statusOf]
    simp [State.ftValid, Option.isSome_iff_exists]
  · rw [State.status, getLsbD_statusOf]
    simp [State.treeValid, Option.isSome_iff_exists]
  · rw [State.status, getLsbD_statusOf]
    simp [State.ctValid, Option.isSome_iff_exists]
  · have := s.errCode.isLt
    simp only [State.regValue, BitVec.toNat_setWidth]
    omega

end Sys2Proof.Machine
end

section
/-! THEOREMS. The life of a command: acceptance (R110), the snapshot (R111) and the completion step (R112). -/

namespace Sys2Proof.Machine

/-! ### The completion step -/

/-- Settles O4: every command answers a next state, and with no noted byte nothing is made free after it. -/
theorem stepRunsTheDecodedCommand : Obligations.StepRunsTheDecodedCommand := by
  intro s r i hc hd hr
  obtain ⟨t, ht⟩ := exec_next i s
  have hstep : step s = .next (t.smearTouched r.touched) := (step_completing hc).trans (completion_exec hd hr ht)
  exact ⟨t, ht, hstep, fun hnone => by rw [hstep, ht, hnone]; rfl⟩

/-! ### Acceptance -/

/-- When the engine completes no command, a step serves the first pending event (R261). -/
theorem step_serves {s : State} {e : HostEvent} {es : List HostEvent} (hc : ∀ r, ¬s.completing r) (hq : s.hostQ = e :: es) :
    step s = .next (({ s with hostQ := es } : State).tick.event e) := by
  have hnone : s.engineTurn = none := Option.eq_none_iff_forall_ne_some.mpr fun r hr => hc r (engineTurn_eq_some.mp hr)
  rw [step, hnone]
  simp only [State.hostTurn, hq]

theorem writeCmd_idle {s : State} (h : s.phase = .idle) (w : Word) :
    s.writeCmd w = { s.accept w (Config.freeDelay s.draws) with draws := s.draws + 1 } := by
  have hbusy : s.isBusy = false := by simp [State.isBusy, h]
  rw [State.writeCmd, hbusy]
  rfl

theorem writeCmd_busy {s : State} {r : Run} (h : s.phase = .busy r) (w : Word) :
    s.writeCmd w = { s with intrDrop := true } := by
  have hbusy : s.isBusy = true := by simp [State.isBusy, h]
  rw [State.writeCmd, hbusy]
  rfl

theorem tick_idle {s : State} (h : s.phase = .idle) : s.tick = s := by
  simp [State.tick, h]

theorem tick_busy {s : State} {r : Run} (h : s.phase = .busy r) :
    s.tick = { s with phase := .busy { r with delay := r.delay - 1 } } := by
  simp [State.tick, h]

theorem tick_rstN (s : State) : s.tick.rstN = s.rstN := by
  unfold State.tick
  split <;> rfl

/-- A pending CMD write is served as a write of CMD when the engine completes no command first (R110, R261). -/
theorem step_cmdWrite {s : State} {w : Word} {es : List HostEvent} (hc : ∀ r, ¬s.completing r) (hrst : s.rstN = true)
    (hq : s.hostQ = .access ⟨0x018, true, 4, w⟩ :: es) :
    step s = .next ((({ s with hostQ := es } : State).tick.writeCmd w).respond .writeOk) := by
  have hserved : ({ s with hostQ := es } : State).tick.rstN = true := (tick_rstN _).trans hrst
  rw [step_serves hc hq, State.event, hserved, if_pos rfl]
  exact congrArg Host.Outcome.next (access_write_reg _ .cmd w)

/-- Settles O8: in neither case does the engine complete a command first, so the CMD write is served. -/
theorem cmdWriteIsAcceptedOrDropped : Obligations.CmdWriteIsAcceptedOrDropped := by
  intro s w es hrst hq
  constructor
  · intro hidle
    have hc : ∀ r, ¬s.completing r := fun r hr => nomatch hidle.symm.trans hr.1
    have hidle' : ({ s with hostQ := es } : State).phase = .idle := hidle
    refine ⟨Config.freeDelay s.draws, ?_⟩
    rw [step_cmdWrite hc hrst hq, tick_idle hidle', writeCmd_idle hidle']
    rfl
  · intro r hbusy hdelay
    have hc : ∀ q, ¬s.completing q := by
      rintro q ⟨hphase, -, hwait⟩
      obtain rfl : r = q := Phase.busy.inj (hbusy.symm.trans hphase)
      simp only [hq, reduceCtorEq, List.cons.injEq, false_and, exists_false, false_or] at hwait
      omega
    have hbusy' : ({ s with hostQ := es } : State).phase = .busy r := hbusy
    rw [step_cmdWrite hc hrst hq, tick_busy hbusy', writeCmd_busy rfl]
    rfl

/-! ### The snapshot -/

/-- Replace the live argument registers. -/
def State.withArgs (s : State) (a : Args) : State := { s with args := a }

section
variable {s : State} {r : Run} (hbusy : s.phase = .busy r) (a : Args)
include hbusy

/-- The running record stands in the state, so that the snapshot computes. -/
theorem eq_setPhase : s = { s with phase := .busy r } := by
  rw [← hbusy]

theorem snap_withArgs : (s.withArgs a).snap = s.snap := by
  simp [State.withArgs, State.snap, hbusy]

theorem source_withArgs : (s.withArgs a).source = s.source := by
  rw [State.source, snap_withArgs hbusy]
  rfl

/-- The checks read the snapshot, DMEM_SIZE and the stores. -/
theorem checksOf_withArgs (i : Instr) : (s.withArgs a).checksOf i = s.checksOf i := by
  rw [eq_setPhase hbusy]
  cases i <;> rfl

theorem raise_withArgs (rs : List ResultReg) (e : CmdError) : (s.withArgs a).raise rs e = (s.raise rs e).withArgs a := by
  cases he : e.isData
  · rw [raise_check _ _ _ he, raise_check _ _ _ he]
    rfl
  · rw [raise_data _ _ _ he, raise_data _ _ _ he, State.dstRegion, snap_withArgs hbusy]
    rfl

theorem deliver_withArgs (rs : List ResultReg) (bs : List Byte) (vs : List (ResultReg × Word)) :
    (s.withArgs a).deliver rs bs vs = (s.deliver rs bs vs).withArgs a := by
  simp only [State.deliver, snap_withArgs hbusy, raise_withArgs hbusy]
  split <;> rfl

theorem inBits_withArgs : (s.withArgs a).inBits = s.inBits := by
  rw [State.inBits, snap_withArgs hbusy]
  rfl

theorem streamResults_withArgs (l : Layout) (n : Nat) : (s.withArgs a).streamResults l n = s.streamResults l n := by
  rw [State.streamResults, inBits_withArgs hbusy]
  rfl

theorem emitWith_withArgs (l : Layout) (ct : CodeTable) : (s.withArgs a).emitWith l ct = (s.emitWith l ct).withArgs a := by
  simp only [State.emitWith, source_withArgs hbusy, streamResults_withArgs hbusy, raise_withArgs hbusy,
    deliver_withArgs hbusy]
  split <;> rfl

theorem huffBody_withArgs (l : Layout) : (s.withArgs a).huffBody l = (s.huffBody l).withArgs a := by
  simp only [State.huffBody, source_withArgs hbusy, streamResults_withArgs hbusy]
  exact deliver_withArgs (s := s.buildStores _ _ _) hbusy a _ _ _

theorem rleBody_withArgs : (s.withArgs a).rleBody = s.rleBody.withArgs a := by
  simp only [State.rleBody, source_withArgs hbusy, inBits_withArgs hbusy, deliver_withArgs hbusy]

theorem binxBody_withArgs (l : Layout) : (s.withArgs a).binxBody l = (s.binxBody l).withArgs a := by
  simp only [State.binxBody, source_withArgs hbusy, inBits_withArgs hbusy, deliver_withArgs hbusy]

theorem bodyOf_withArgs (i : Instr) : (s.withArgs a).bodyOf i = (s.bodyOf i).withArgs a := by
  cases i
  case emit l => exact emitWith_withArgs hbusy a l _
  case huff l => exact huffBody_withArgs hbusy a l
  case rle => exact rleBody_withArgs hbusy a
  case binx l => exact binxBody_withArgs hbusy a l
  all_goals
    rw [eq_setPhase hbusy]
    rfl

/-- The running command reads only its snapshot: other live arguments change nothing that it does (R111). -/
theorem exec_withArgs (i : Instr) {t : State} (h : exec i s = .next t) :
    exec i (s.withArgs a) = .next (t.withArgs a) := by
  rw [exec_eq_checked] at h ⊢
  obtain rfl := Host.Outcome.next.inj h
  rw [checksOf_withArgs hbusy, bodyOf_withArgs hbusy, State.checked, State.checked]
  cases firstError (s.checksOf i) with
  | none => rfl
  | some e => exact congrArg Host.Outcome.next (raise_withArgs hbusy a _ e)

end

/-- Settles O9: acceptance latches the argument registers, and a command reads what was latched. -/
theorem runningCommandReadsOnlyTheSnapshot : Obligations.RunningCommandReadsOnlyTheSnapshot := by
  refine ⟨fun s w hidle => ?_, fun i s r a t hbusy h => exec_withArgs hbusy a i h,
    fun _ _ _ _ => ⟨rfl, rfl, rfl, rfl, rfl, rfl, rfl⟩⟩
  rw [writeCmd_idle hidle]
  exact ⟨_, rfl, rfl⟩

end Sys2Proof.Machine
end

section
/-! THEOREMS. The order of the host's events (R261, R954), the interrupt of a completion (R263, R930), bus errors (R202) and
the DMEM window (R203, R210). -/

namespace Sys2Proof.Machine

/-! ### The order of events -/

theorem not_completing_of_idle {s : State} (h : s.phase = .idle) (r : Run) : ¬s.completing r :=
  fun hc => nomatch h.symm.trans hc.1

/-- The engine gives way to a pending event other than WAIT while the free delay is not over (R1040). -/
theorem not_completing_of_delay {s : State} {r : Run} {e : HostEvent} {es : List HostEvent} (hbusy : s.phase = .busy r)
    (hq : s.hostQ = e :: es) (he : e ≠ .wait) (hdelay : 0 < r.delay) (q : Run) : ¬s.completing q := by
  rintro ⟨hphase, -, hnil | ⟨es', hwait⟩ | hzero⟩
  · exact nomatch hq.symm.trans hnil
  · exact he (List.cons.inj (hq.symm.trans hwait)).1
  · obtain rfl : r = q := Phase.busy.inj (hbusy.symm.trans hphase)
    omega

/-- With nothing pending, a step that completes no command changes nothing (R954). -/
theorem step_of_no_event {s : State} (hc : ∀ r, ¬s.completing r) (hq : s.hostQ = []) : step s = .next s := by
  have hnone : s.engineTurn = none := Option.eq_none_iff_forall_ne_some.mpr fun r hr => hc r (engineTurn_eq_some.mp hr)
  rw [step, hnone]
  simp only [State.hostTurn, hq]

/-- Settles O5: in none of the three cases does the engine complete a command first. -/
theorem hostEventsAreServedInOrder : Obligations.HostEventsAreServedInOrder := by
  refine ⟨fun s e es hidle hq => ?_, fun s r e es hbusy hq he hdelay => ?_, fun s hidle hq => ?_⟩
  · have htick : ({ s with hostQ := es } : State).tick = { s with hostQ := es } := tick_idle hidle
    rw [step_serves (not_completing_of_idle hidle) hq, htick]
  · have hbusy' : ({ s with hostQ := es } : State).phase = .busy r := hbusy
    rw [step_serves (not_completing_of_delay hbusy hq he hdelay) hq, tick_busy hbusy']
  · exact step_of_no_event (not_completing_of_idle hidle) hq

/-! ### The interrupt of a completion -/

/-- STATUS bit 0 is BUSY in either phase (R122, R1022). -/
theorem getLsbD_regRead_status (s : State) : (s.regRead .status).getLsbD 0 = s.isBusy := by
  unfold State.regRead
  split
  · rw [State.statusDrawn, getLsbD_statusOf]
    simp
  · rw [State.regValue, State.status, getLsbD_statusOf]
    simp

/-- INTR bit 0 is DONE in either phase (R123, R1022). -/
theorem getLsbD_regRead_intr (s : State) : (s.regRead .intr).getLsbD 0 = s.intrDone := by
  rw [regRead_exact s .intr (by decide) nofun, State.regValue, getLsbD_intr]
  simp

/-- A CTRL write without SRST writes IE and nothing else (R121). -/
theorem regWrite_ctrl {v : Word} (hv : v.getLsbD 0 = false) (s : State) :
    s.regWrite .ctrl v = { s with ie := v.getLsbD 1 } := by
  rw [State.regWrite, State.writeCtrl, hv]
  rfl

/-- Writing 1 to INTR bit 0 lowers the interrupt (R123, R930). -/
theorem irq_regWrite_intr (s : State) : (s.regWrite .intr 1).irq = false := by
  have hdone : (s.regWrite .intr 1).intrDone = false := Bool.and_false _
  rw [State.irq, hdone, Bool.and_false]

/-- Settles O10: by its frame a command leaves IE and ends in IDLE with DONE set. -/
theorem completionRaisesTheInterrupt : Obligations.CompletionRaisesTheInterrupt := by
  refine ⟨fun i s t h => ?_, fun s v hv => ⟨rfl, ?_, ?_, irq_regWrite_intr s⟩⟩
  · obtain ⟨hset, hphase, hdone, -⟩ := commandFrames i s t h
    have hidle : t.isBusy = false := by simp [State.isBusy, hphase]
    refine ⟨hidle, (getLsbD_regRead_status t).trans hidle, (getLsbD_regRead_intr t).trans hdone, ?_⟩
    rw [State.irq, hset.ie, hdone, Bool.and_true]
  · rw [regWrite_ctrl hv]
    rfl
  · rw [regWrite_ctrl hv]

/-! ### Bus errors -/

theorem resp_writeRegAt (s : State) (off : Nat) (v : Word) : (s.writeRegAt off v).resp = some .writeOk := by
  unfold State.writeRegAt
  split <;> rfl

/-- An access that reaches a register or DMEM is served (R202). -/
theorem resp_access_served {s : State} {q : Access} (h : s.target q ≠ .busError) :
    (s.access q).resp = some .writeOk ∨ ∃ v, (s.access q).resp = some (.readOk v) := by
  unfold State.access
  split
  · split
    · exact .inl (resp_writeRegAt s _ _)
    · exact .inr ⟨_, resp_readRegAt s _⟩
  · split
    · exact .inl rfl
    · exact .inr ⟨_, rfl⟩
  · contradiction

/-- Settles O11: the cases of R202 are the accesses that reach neither a register nor DMEM. -/
theorem busErrorsChangeNothing : Obligations.BusErrorsChangeNothing := by
  intro s q
  rw [← target_busError]
  refine ⟨fun htarget => ?_, fun htarget => ?_⟩
  · rw [State.access, htarget]
    rfl
  · rcases resp_access_served htarget with hw | ⟨v, hr⟩
    · exact ⟨_, hw, nofun, nofun⟩
    · exact ⟨_, hr, nofun, nofun⟩

/-! ### Byte order of the DMEM window -/

/-- A list of bytes is the little-endian form of its value. -/
theorem leBytes_leValue (bs : List Byte) : leBytes bs.length (leValue bs) = bs := by
  induction bs with
  | nil => rfl
  | cons b bs ih =>
    have hb := b.isLt
    have hhead : BitVec.ofNat 8 (b.toNat + 256 * leValue bs) = b := by
      apply BitVec.eq_of_toNat_eq
      rw [BitVec.toNat_ofNat]
      omega
    have htail : (b.toNat + 256 * leValue bs) / 256 = leValue bs := by omega
    rw [List.length_cons, leValue, leBytes, hhead, htail, ih]

theorem leValue_lt (bs : List Byte) : leValue bs < 256 ^ bs.length := by
  have h := leValue_leBytes bs.length (leValue bs)
  rw [leBytes_leValue] at h
  rw [h]
  exact Nat.mod_lt _ (by positivity)

/-- Byte `i` of a little-endian value. -/
theorem ofNat_leValue_div (bs : List Byte) {i : Nat} (h : i < bs.length) :
    BitVec.ofNat 8 (leValue bs / 256 ^ i) = bs.getD i 0 := by
  rw [← leBytes_getD bs.length _ i h, leBytes_leValue]

theorem pow_256_eq (i : Nat) : 256 ^ i = 2 ^ (8 * i) := (pow_mul 2 8 i).symm

/-- Byte `i` of a word, as a quotient and as bits (R210). -/
theorem extractLsb'_byte (v : Word) (i : Nat) : v.extractLsb' (8 * i) 8 = BitVec.ofNat 8 (v.toNat / 256 ^ i) := by
  apply BitVec.eq_of_toNat_eq
  rw [BitVec.extractLsb'_toNat, BitVec.toNat_ofNat, Nat.shiftRight_eq_div_pow, pow_256_eq]

theorem leBytes_eq_map (n v : Nat) : leBytes n v = (List.range n).map fun i => BitVec.ofNat 8 (v / 256 ^ i) := by
  refine List.ext_getElem (by simp [length_leBytes]) fun i h1 h2 => ?_
  have hi : i < n := length_leBytes n v ▸ h1
  simpa [List.getElem?_eq_getElem h1] using leBytes_getD n v i hi

theorem byteAt_memWrite_inside (s : State) (a v : Nat) {n i : Nat} (h : i < n) :
    (s.memWrite a n v).byteAt (a + i) = BitVec.ofNat 8 (v / 256 ^ i) := by
  rw [State.memWrite, byteAt_storeBytes_inside _ _ _ _ (by rwa [length_leBytes]), leBytes_getD n v i h]

theorem byteAt_memWrite_outside (s : State) (v : Nat) {a n x : Nat} (h : x < a ∨ a + n ≤ x) :
    (s.memWrite a n v).byteAt x = s.byteAt x :=
  byteAt_storeBytes_outside s a _ x (by rwa [length_leBytes])

/-- A read inside a value just written returns that part of it (R14, R210). -/
theorem memRead_memWrite (s : State) (a v : Nat) {m k n : Nat} (h : k + n ≤ m) :
    (s.memWrite a m v).memRead (a + k) n = v / 256 ^ k % 256 ^ n := by
  have hbytes : (s.memWrite a m v).bytesAt (a + k) n = leBytes n (v / 256 ^ k) := by
    rw [leBytes_eq_map, State.bytesAt]
    refine List.map_congr_left fun i hi => ?_
    have hi := List.mem_range.mp hi
    rw [Nat.add_assoc, byteAt_memWrite_inside s a v (show k + i < m by omega), Nat.div_div_eq_div_mul, pow_add]
  rw [State.memRead, hbytes, leValue_leBytes]

/-! ### Accesses apart from a running command -/

/-- A DMEM write apart from the running command's regions is a memory write and an answer (R203, R1031). -/
theorem access_dmem_write_apart {s : State} {a : Nat} {n : BitVec 3} (v : Word) (hn : n = 1 ∨ n = 2 ∨ n = 4)
    (ha : a % n.toNat = 0) (hs : a + n.toNat ≤ s.dmemSize)
    (hapart : ∀ x, a ≤ x → x < a + n.toNat → ¬s.isInput x ∧ ¬s.isOutput x) :
    s.access ⟨BitVec.ofNat 32 (0x01000000 + a), true, n, v⟩ = (s.memWrite a n.toNat v.toNat).respond .writeOk := by
  rw [access_dmem_write hn ha hs (dmemSize_le s), State.dmemWrite, noteWrite_apart hapart]

/-- A DMEM read apart from the running command's output only answers (R203, R1021). -/
theorem access_dmem_read_apart {s : State} {a : Nat} {n : BitVec 3} (v : Word) (hn : n = 1 ∨ n = 2 ∨ n = 4)
    (ha : a % n.toNat = 0) (hs : a + n.toNat ≤ s.dmemSize) (hapart : ∀ x, a ≤ x → x < a + n.toNat → ¬s.isOutput x) :
    s.access ⟨BitVec.ofNat 32 (0x01000000 + a), false, n, v⟩ =
      s.respond (.readOk (BitVec.ofNat 32 (s.memRead a n.toNat))) := by
  obtain ⟨hread, hdraws⟩ := dmemRead_apart hapart
  rw [access_dmem_read hn ha hs (dmemSize_le s), hread, hdraws]
  rfl

/-- A read of at most 4 bytes fits the answer's word. -/
theorem memRead_fits_word (s : State) (a : Nat) {n : Nat} (hn : n ≤ 4) :
    (BitVec.ofNat 32 (s.memRead a n)).toNat = s.memRead a n ∧ s.memRead a n < 2 ^ (8 * n) := by
  have hlt := leValue_lt (s.bytesAt a n)
  have hlen : (s.bytesAt a n).length = n := by simp [State.bytesAt]
  have hword : 2 ^ (8 * n) ≤ 2 ^ 32 := Nat.pow_le_pow_right (by omega) (by omega)
  rw [hlen, pow_256_eq] at hlt
  refine ⟨?_, hlt⟩
  rw [BitVec.toNat_ofNat]
  exact Nat.mod_eq_of_lt (hlt.trans_le hword)

theorem accessSize_le_four {n : BitVec 3} (hn : n = 1 ∨ n = 2 ∨ n = 4) : n.toNat ≤ 4 := by
  rcases hn with rfl | rfl | rfl <;> decide

/-- An access size divides 4, so a part aligned in an aligned word is aligned (R220). -/
theorem aligned_part {n : BitVec 3} (hn : n = 1 ∨ n = 2 ∨ n = 4) {a k : Nat} (ha : a % 4 = 0) (hk : k % n.toNat = 0) :
    (a + k) % n.toNat = 0 := by
  have hdvd : n.toNat ∣ 4 := by rcases hn with rfl | rfl | rfl <;> decide
  exact Nat.mod_eq_zero_of_dvd
    ((hdvd.trans (Nat.dvd_of_mod_eq_zero ha)).add (Nat.dvd_of_mod_eq_zero hk))

/-- Settles O12: apart from a running command the window's accesses are memory writes and reads, little-endian both. -/
theorem dmemWindowIsLittleEndian : Obligations.DmemWindowIsLittleEndian := by
  refine ⟨fun s a n v hn ha hs hapart => ?_, fun s a n u hn ha hs hapart => ?_,
    fun s a k n v ha hs hapart hn hk hkn => ?_⟩
  · refine ⟨_, rfl, ?_⟩
    rw [access_dmem_write_apart v hn ha hs hapart]
    refine ⟨rfl, fun i hi => ?_, fun x hx => byteAt_memWrite_outside s _ hx⟩
    rw [State.respond_byteAt, byteAt_memWrite_inside s a _ hi, extractLsb'_byte]
  · obtain ⟨hword, hlt⟩ := memRead_fits_word s a (accessSize_le_four hn)
    refine ⟨_, access_dmem_read_apart u hn ha hs hapart, by rwa [hword], fun i hi => ?_⟩
    have hlen : (s.bytesAt a n.toNat).length = n.toNat := by simp [State.bytesAt]
    rw [extractLsb'_byte, hword, State.memRead, ofNat_leValue_div _ (hlen.symm ▸ hi)]
    exact getD_map_range _ _ _ _ hi
  · have hfour : (4 : BitVec 3).toNat = 4 := rfl
    rw [access_dmem_write_apart v (.inr (.inr rfl)) ha hs hapart, access_dmem_read_apart 0 hn (aligned_part hn ha hk)]
    · have hread := memRead_memWrite s a v.toNat hkn
      rw [pow_256_eq, pow_256_eq] at hread
      exact congrArg (fun w => some (Response.readOk (BitVec.ofNat 32 w))) hread
    · exact (by omega : a + k + n.toNat ≤ s.dmemSize)
    · exact fun x h1 h2 => (hapart x (by omega) (by omega)).2

end Sys2Proof.Machine
end

section
/-! THEOREMS. The command words: decoding against encoding (R302, R303, R320) and the illegal words (R310). -/

namespace Sys2Proof.Machine

/-! ### The opcode map -/

/-- Every command's opcode is a row of the map (R302). -/
theorem opcode_le (i : Instr) : i.opcode.toNat ≤ 0x0D := by
  cases i <;> simp [Instr.opcode]

/-- The flag is set only where the opcode may carry it (R303). -/
theorem flag_eq_and_flagOpcode (i : Instr) : i.flag = (i.flag && flagOpcode i.opcode.toNat) := by
  cases i with
  | emit a | huff a | binx a => exact (Bool.and_true _).symm
  | _ => rfl

/-- A command's row of the map, with its own flag, gives it back with its layout (R302). -/
theorem mnemonicOf_opcode (i : Instr) : mnemonicOf i.opcode.toNat i.flag = some i := by
  cases i with
  | emit a | huff a | binx a => cases a <;> rfl
  | _ => rfl

/-- A row of the map gives a command of that opcode, which keeps the flag bit where the opcode may carry it (R302, R303). -/
theorem fields_of_mnemonicOf {n : Nat} {a : Bool} {i : Instr} (h : mnemonicOf n a = some i) :
    i.opcode.toNat = n ∧ i.flag = (a && flagOpcode n) := by
  unfold mnemonicOf at h
  split at h
  case h_15 => cases h
  all_goals
    obtain rfl := Option.some.inj h
    cases a <;> exact ⟨rfl, rfl⟩

/-! ### Decode and encode -/

/-- A word decodes exactly when it passes the three tests of R320 and the map has its row. -/
theorem decode_eq_ok_iff {w : Word} {i : Instr} : decode w = .ok i ↔
    (fieldsOf w).rsv = 0 ∧ (fieldsOf w).op.toNat ≤ 0x0D ∧ ((fieldsOf w).a && !flagOpcode (fieldsOf w).op.toNat) = false ∧
      mnemonicOf (fieldsOf w).op.toNat (fieldsOf w).a = some i := by
  simp only [decode]
  split_ifs with hrsv hop hflag
  · exact iff_of_false nofun fun ⟨hzero, _⟩ => hrsv hzero
  · exact iff_of_false nofun fun ⟨_, hle, _⟩ => hle.not_gt hop
  · exact iff_of_false nofun fun ⟨_, _, hallowed, _⟩ => nomatch hflag.symm.trans hallowed
  · rw [and_iff_right (not_not.mp hrsv), and_iff_right (not_lt.mp hop), and_iff_right (Bool.eq_false_of_not_eq_true hflag)]
    cases mnemonicOf (fieldsOf w).op.toNat (fieldsOf w).a <;> simp

/-- A word decodes to a command exactly when its fields are the command's: with the reserved bits 0 and the flag allowed,
the row of the map fixes the command, and the command fixes the row. -/
theorem decode_eq_ok_iff_fieldsOf {w : Word} {i : Instr} : decode w = .ok i ↔ fieldsOf w = i.fields := by
  rw [decode_eq_ok_iff]
  constructor
  · rintro ⟨hrsv, -, hallowed, hrow⟩
    obtain ⟨hop, hflag⟩ := fields_of_mnemonicOf hrow
    have ha : (fieldsOf w).a = i.flag := by simpa [hflag] using hallowed
    have hopcode : (fieldsOf w).op = i.opcode := BitVec.eq_of_toNat_eq hop.symm
    rw [Instr.fields, ← hrsv, ← ha, ← hopcode]
  · intro hfields
    have hallowed : (i.flag && !flagOpcode i.opcode.toNat) = false := by
      rw [flag_eq_and_flagOpcode, Bool.and_assoc, Bool.and_not_self, Bool.and_false]
    rw [hfields]
    exact ⟨rfl, opcode_le i, hallowed, mnemonicOf_opcode i⟩

/-- The fields of a word are a command's exactly when the word is the command's encoding: the fields leave out no bit. -/
theorem fieldsOf_eq_iff_encode {w : Word} {i : Instr} : fieldsOf w = i.fields ↔ encode i = w := by
  constructor
  · intro h
    rw [encode, ← h, word_fieldsOf]
  · rintro rfl
    exact fieldsOf_word i.fields

/-- Settles O1: both sides say that the word's fields are the command's. -/
theorem decodeAcceptsExactlyTheEncodings : Obligations.DecodeAcceptsExactlyTheEncodings :=
  fun _ _ => decode_eq_ok_iff_fieldsOf.trans fieldsOf_eq_iff_encode

theorem decode_encode (i : Instr) : decode (encode i) = .ok i :=
  (decodeAcceptsExactlyTheEncodings _ i).mpr rfl

/-- Settles O2: each word is the encoding of its row's command. -/
theorem opcodeMapWordsDecode : Obligations.OpcodeMapWordsDecode :=
  ⟨decode_encode .nop, decode_encode .freq, decode_encode .tree, decode_encode .codes, decode_encode (.emit .packed),
    decode_encode (.emit .ascii), decode_encode (.huff .packed), decode_encode (.huff .ascii), decode_encode .rle,
    decode_encode (.binx .packed), decode_encode (.binx .ascii), decode_encode .ratio, decode_encode .ftload,
    decode_encode .ftstore, decode_encode .ctload, decode_encode .ctstore, decode_encode .clear⟩

/-! ### Illegal words -/

/-- The completion step of an illegal word, with the whole next state (R310, R920). -/
theorem step_illegal {s : State} {r : Run} (hc : s.completing r) (hw : isIllegal r.word) :
    step s = .next { s with phase := .idle, intrDone := true, errCode := 5, errInfo0 := r.word, errInfo1 := 0 } := by
  rw [step_completing hc, completion_illegal hw, raise_check _ _ _ rfl]
  rfl

/-- Settles O3: acceptance does not look at the word, and completion raises the check error of a word that does not decode. -/
theorem illegalWordsRaiseIllegalCommand : Obligations.IllegalWordsRaiseIllegalCommand := by
  refine ⟨fun s w hidle _ => ?_, fun s r hc hw => step_illegal hc hw, fun w hw => (decode_isOk w).mpr hw⟩
  rw [writeCmd_idle hidle]
  exact ⟨_, rfl, rfl, rfl⟩

end Sys2Proof.Machine
end

section
/-! THEOREMS. The frequency table: FREQ counts (R401), and the image that FTLOAD reads and FTSTORE writes (R403, R410,
R412). -/

namespace Sys2Proof.Machine

/-! ### FREQ -/

/-- Settles O27: the table FREQ leaves is that of the source bytes. -/
theorem freqCountsTheSource : Obligations.FreqCountsTheSource :=
  fun s hsrc => ⟨freqOf s.source, freqOf_counts hsrc, exec_freq hsrc⟩

/-- A count of fewer than 2^32 bytes does not wrap (R131). -/
theorem toNat_entry_freqOf {bs : List Byte} (h : bs.length < 2 ^ 32) (b : Byte) :
    ((freqOf bs).entry b).toNat = bs.count b := by
  have hcount := List.count_le_length (a := b) (l := bs)
  rw [freqOf, Table.entry_tab, BitVec.toNat_ofNat]
  exact Nat.mod_eq_of_lt (by omega)

/-- Settles O28: a valid source is shorter than 2^32 bytes, so the entries are its counts, each byte counted once. -/
theorem frequenciesSumToTheLength : Obligations.FrequenciesSumToTheLength := by
  intro s t ft hsrc hexec hft
  obtain rfl := Host.Outcome.next.inj ((exec_freq hsrc).symm.trans hexec)
  obtain rfl : freqOf s.source = ft := Option.some.inj hft
  have hshort : s.source.length < 2 ^ 32 := by
    have := dmemSize_le s
    rw [length_source]
    omega
  calc ((List.range 256).map fun n => ((freqOf s.source).entry (BitVec.ofNat 8 n)).toNat).sum
      = (allSymbols.map fun b => ((freqOf s.source).entry b).toNat).sum :=
        sum_range_symbols fun b => ((freqOf s.source).entry b).toNat
    _ = (allSymbols.map fun b => s.source.count b).sum :=
        congrArg List.sum (List.map_congr_left fun b _ => toNat_entry_freqOf hshort b)
    _ = s.source.length := sum_count _
    _ = s.srcCount := length_source s

/-! ### FTLOAD -/

/-- A 4-byte read, byte by byte (R14). -/
theorem memRead_four (s : State) (a : Nat) : s.memRead a 4 =
    (s.byteAt a).toNat + 2 ^ 8 * (s.byteAt (a + 1)).toNat + 2 ^ 16 * (s.byteAt (a + 2)).toNat +
      2 ^ 24 * (s.byteAt (a + 3)).toNat := by
  have hbytes : s.bytesAt a 4 = [s.byteAt a, s.byteAt (a + 1), s.byteAt (a + 2), s.byteAt (a + 3)] := rfl
  simp only [State.memRead, hbytes, leValue]
  omega

/-- Settles O29: each entry is the word of its four bytes, which a u32 holds. -/
theorem ftloadReadsTheImage : Obligations.FtloadReadsTheImage := by
  refine fun s htbl => ⟨_, exec_ftload htbl, fun b => ?_⟩
  rw [Table.entry_tab, State.loadCount, (memRead_fits_word s _ le_rfl).1, memRead_four]

/-! ### FTSTORE -/

/-- Byte `j` of the entry of `b` in a stored image (R403). -/
theorem byteAt_storeBytes_ftImage (s : State) (a : Nat) (ft : FreqTable) (b : Byte) {j : Nat} (hj : j < 4) :
    (s.storeBytes a (ftImage ft)).byteAt (a + 4 * b.toNat + j) = BitVec.ofNat 8 ((ft.entry b).toNat / 256 ^ j) := by
  have hin : 4 * b.toNat + j < (ftImage ft).length := by
    have := b.isLt
    rw [length_ftImage]
    omega
  rw [Nat.add_assoc, byteAt_storeBytes_inside s a _ _ hin, ftImage, getD_image (fun c => length_leBytes 4 _) b j hj,
    leBytes_getD 4 _ j hj]

/-- Settles O30: the stored bytes are the image of the table, which fills the region. -/
theorem ftstoreWritesTheImage : Obligations.FtstoreWritesTheImage := by
  intro s ft htbl hft
  refine ⟨_, exec_ftstore htbl hft, rfl, fun b j hj => ?_, fun x hx => ?_⟩
  · rw [State.complete_byteAt, byteAt_storeBytes_ftImage s _ ft b hj, extractLsb'_byte]
  · rw [State.complete_byteAt, byteAt_storeBytes_outside]
    rwa [length_ftImage]

/-- A stored image loads back (R410, R412). -/
theorem loadCount_storeBytes_ftImage (s : State) (a : Nat) (ft : FreqTable) (b : Byte) :
    (s.storeBytes a (ftImage ft)).loadCount a b = ft.entry b := by
  have hbytes : (s.storeBytes a (ftImage ft)).bytesAt (a + 4 * b.toNat) 4 = leBytes 4 (ft.entry b).toNat := by
    rw [leBytes_eq_map, State.bytesAt]
    exact List.map_congr_left fun j hj => byteAt_storeBytes_ftImage s a ft b (List.mem_range.mp hj)
  have hfits : (ft.entry b).toNat % 256 ^ 4 = (ft.entry b).toNat := Nat.mod_eq_of_lt (ft.entry b).isLt
  rw [State.loadCount, State.memRead, hbytes, leValue_leBytes, hfits, BitVec.ofNat_toNat, BitVec.setWidth_eq]

/-- Settles O31: FTLOAD has the snapshot and the table region of FTSTORE, and loads each entry back. -/
theorem ftstoreThenFtloadKeepsTheTable : Obligations.FtstoreThenFtloadKeepsTheTable := by
  intro s t ft htbl hft hexec
  obtain rfl := Host.Outcome.next.inj ((exec_ftstore htbl hft).symm.trans hexec)
  refine ⟨_, exec_ftload htbl, congrArg some (Table.ext_entry fun b => ?_), rfl, rfl⟩
  rw [Table.entry_tab]
  exact loadCount_storeBytes_ftImage s s.snap.tblAddr.toNat ft b

end Sys2Proof.Machine
end

section
/-! THEOREMS. The tree builder: TREE ends with the one outcome of the loop of R422 (R421), a tree with the properties of
R425. -/

namespace Sys2Proof.Machine

/-! ### TREE follows the loop -/

/-- TREE on a table with a count above 0: its tree is an outcome of the loop of R422 from the leaves of the table. -/
theorem exec_tree_huffman {s : State} {ft : FreqTable} (hft : s.ft = some ft) (hne : ft ≠ Vector.replicate 256 0) :
    ∃ h, Huffman 0 (leavesOf ft) h ∧
      exec .tree s = .next { s with
        phase := .idle, intrDone := true, tree := some h, ct := none
        results := { s.results with nsym := BitVec.ofNat 32 (symbolsIn ft) } } := by
  obtain ⟨h, hbuild, hh⟩ := buildTree_huffman fun h0 => hne ((distinct_eq_zero ft).mp h0)
  refine ⟨h, hh, ?_⟩
  rw [exec_tree hft hne, hbuild, symbolsIn_eq]
  rfl

/-- Settles O32: the leaves of the table are the live set that the loop starts from. -/
theorem treeRunsTheMergeLoop : Obligations.TreeRunsTheMergeLoop := by
  intro s ft hft hne
  obtain ⟨h, hh, hexec⟩ := exec_tree_huffman hft hne
  exact ⟨h, leavesOf ft, leavesOf_isLeafSet ft, hh, hexec⟩

/-! ### The loop has one outcome -/

/-- The loop starts from some element. -/
theorem Huffman.ne_nil {k : Nat} {live : List HTree} {h : HTree} (hh : Huffman k live h) : live ≠ [] := by
  cases hh with
  | root => exact List.cons_ne_nil _ _
  | round _ _ x y rest _ hremove =>
    rintro rfl
    exact List.cons_ne_nil _ _ hremove.nil_eq.symm

/-- A table with a leaf has a count above 0. -/
theorem ne_replicate_of_isLeafSet {ft : FreqTable} {live : List HTree} (hl : IsLeafSet ft live) (hne : live ≠ []) :
    ft ≠ Vector.replicate 256 0 := by
  obtain ⟨-, hmem⟩ := hl
  obtain ⟨t, ht⟩ := List.exists_mem_of_ne_nil live hne
  obtain ⟨b, hb, -⟩ := (hmem t).mp ht
  rintro rfl
  exact hb (replicate_entry b)

/-- Settles O33: the outcome of the loop does not depend on the order of the leaves, and TREE ends with an outcome. -/
theorem mergeLoopOutcomesAreTheTree : Obligations.MergeLoopOutcomesAreTheTree := by
  intro s ft live h hft hl hh
  obtain ⟨u, hu, hexec⟩ := exec_tree_huffman hft (ne_replicate_of_isLeafSet hl hh.ne_nil)
  obtain rfl : h = u := hh.unique hu (hl.perm (leavesOf_isLeafSet ft))
  exact ⟨_, hexec, rfl, rfl⟩

/-! ### Properties of the tree -/

/-- The sum of 256 counts fits the 40 bits of a weight (R131). -/
theorem sum_entries_lt (ft : FreqTable) : (allSymbols.map fun b => (ft.entry b).toNat).sum < 2 ^ 40 := by
  have hle : ∀ w ∈ allSymbols.map fun b => (ft.entry b).toNat, w ≤ 2 ^ 32 - 1 := by
    rintro _ hw
    obtain ⟨b, -, rfl⟩ := List.mem_map.mp hw
    exact Nat.le_pred_of_lt (ft.entry b).isLt
  have hsum := List.sum_le_card_nsmul _ _ hle
  simp only [allSymbols, List.length_map, List.length_range, smul_eq_mul] at hsum ⊢
  omega

/-- Each of the leaves counts for two in `Huffman.size_eq`. -/
theorem sum_leavesOf_size (ft : FreqTable) : ((leavesOf ft).map fun t => t.size + 1).sum = 2 * distinct ft := by
  have htwo : ∀ t ∈ leavesOf ft, t.size + 1 = 2 := by
    intro t ht
    obtain ⟨b, -, rfl⟩ := (mem_leavesOf ft t).mp ht
    rfl
  rw [List.map_congr_left htwo, List.map_const', List.sum_replicate, length_leavesOf, smul_eq_mul, Nat.mul_comm]

/-- Settles O34: sums, leaves, size and weight are those that the loop keeps from the leaves of the table. -/
theorem treePropertiesHold : Obligations.TreePropertiesHold := by
  intro s t ft h hft hne hexec htree
  obtain ⟨u, hu, hexec'⟩ := exec_tree_huffman hft hne
  obtain rfl := Host.Outcome.next.inj (hexec'.symm.trans hexec)
  obtain rfl : u = h := Option.some.inj htree
  obtain ⟨hwf, hsymbols⟩ := hu.of_leaves
  have hsize := hu.size_eq
  have hweight := hu.weight_eq
  rw [sum_leavesOf_size] at hsize
  rw [leavesOf_weight] at hweight
  rw [symbolsIn_eq, sum_range_symbols fun b => (ft.entry b).toNat]
  refine ⟨hwf, fun b => ?_, ?_, by omega, hweight, hweight ▸ sum_entries_lt ft⟩
  · rw [hsymbols.mem_iff, List.mem_filter, and_iff_right (mem_allSymbols b), bne_iff_ne]
  · rw [hsymbols.length_eq, ← List.countP_eq_length_filter, distinct]

end Sys2Proof.Machine
end

section
/-! SUPPORT. How an encoder ends, in the words of the claims: a data error (R920), an output that fits and one that does not
(R530, R540, R600, R700), and what the encoders of two blocks have in common (R531, R542). -/

namespace Sys2Proof.Machine

/-! ### One encoder -/

/-- A data error (R920) makes bytes free in the destination region alone. -/
theorem raise_data_frame (s : State) (rs : List ResultReg) {e : CmdError} (he : e.isData = true) :
    s.raise rs e = { s with
        phase := .idle, intrDone := true, errCode := e.code, errInfo0 := e.info0, errInfo1 := e.info1
        results := (s.zeroResults rs).results, mem := (s.raise rs e).mem, draws := (s.raise rs e).draws } ∧
      ∀ x, x < s.dstAt ∨ s.dstAt + s.dstRoom ≤ x → (s.raise rs e).byteAt x = s.byteAt x :=
  ⟨by rw [raise_data s rs e he], fun x hx => byteAt_raise s rs e x (.inr ((dstRegion_has s x).mpr hx))⟩

/-- An output of `n` bytes that does not fit (R530, R540, R600, R700). -/
theorem deliver_overflow_frame {s : State} (rs : List ResultReg) {bs : List Byte} (vs : List (ResultReg × Word)) {n : Nat}
    (hn : bs.length = n) (hover : s.dstRoom < n) :
    s.deliver rs bs vs = { s with
        phase := .idle, intrDone := true, errCode := 7, errInfo0 := BitVec.ofNat 32 n, errInfo1 := s.snap.dstCap
        results := (s.zeroResults rs).results, mem := (s.deliver rs bs vs).mem, draws := (s.deliver rs bs vs).draws } ∧
      ∀ x, x < s.dstAt ∨ s.dstAt + s.dstRoom ≤ x → (s.deliver rs bs vs).byteAt x = s.byteAt x := by
  subst hn
  rw [deliver_overflow hover]
  exact raise_data_frame s rs rfl

/-- The number of bytes a stream takes, as the rules compute it (R240, R241). -/
theorem length_layoutBytes_needed (a : Layout) (b : BitSeq) : (layoutBytes a b).length = bytesNeeded a b.length :=
  (length_layoutBytes a b).trans (layoutSize_eq a b.length)

/-- The three results of a stream, as the claims write them (R125, R126). -/
theorem streamResults_eq (s : State) (a : Layout) (n : Nat) : s.streamResults a n =
    [(.inBits, s.inBits), (.outBits, BitVec.ofNat 32 n), (.outBytes, BitVec.ofNat 32 (bytesNeeded a n))] := by
  rw [State.streamResults, layoutSize_eq]

/-- A stream that fits stands at DST_ADDR in its layout, and nothing else of DMEM changes (R530, R540, R700). -/
theorem deliver_stream_frame {s : State} (rs : List ResultReg) {a : Layout} {b : BitSeq} (vs : List (ResultReg × Word))
    (hfit : bytesNeeded a b.length ≤ s.dstRoom) :
    s.deliver rs (layoutBytes a b) vs = { s with
        phase := .idle, intrDone := true, mem := (s.deliver rs (layoutBytes a b) vs).mem
        results := (s.setResults vs).results } ∧
      (s.deliver rs (layoutBytes a b) vs).holdsStream a s.dstAt b ∧
      ∀ x, x < s.dstAt ∨ s.dstAt + bytesNeeded a b.length ≤ x →
        (s.deliver rs (layoutBytes a b) vs).byteAt x = s.byteAt x := by
  rw [← length_layoutBytes_needed] at hfit ⊢
  exact ⟨by rw [deliver_fits hfit], holdsStream_of_bytes (byteAt_deliver_inside hfit), byteAt_deliver_outside hfit⟩

/-- A delivery keeps ERRCODE or reports the overflow (R530, R540). -/
theorem errCode_deliver (s : State) (rs : List ResultReg) (bs : List Byte) (vs : List (ResultReg × Word)) :
    (s.deliver rs bs vs).errCode = s.errCode ∨ (s.deliver rs bs vs).errCode = 7 := by
  by_cases hfit : bs.length ≤ s.snap.dstCap.toNat
  · exact .inl (by rw [deliver_fits hfit])
  · exact .inr (by rw [deliver_overflow (Nat.lt_of_not_le hfit), raise_errCode]; rfl)

/-- A delivery keeps the stores, whether the output fits or not (R530, R540). -/
theorem stores_deliver (s : State) (rs : List ResultReg) (bs : List Byte) (vs : List (ResultReg × Word)) :
    (s.deliver rs bs vs).ft = s.ft ∧ (s.deliver rs bs vs).tree = s.tree ∧ (s.deliver rs bs vs).ct = s.ct := by
  by_cases hfit : bs.length ≤ s.snap.dstCap.toNat
  · rw [deliver_fits hfit]
    exact ⟨rfl, rfl, rfl⟩
  · rw [deliver_overflow (Nat.lt_of_not_le hfit)]
    exact ⟨raise_ft .., raise_tree .., raise_ct ..⟩

/-- A delivery without an error is one that fits. -/
theorem fits_of_deliver {s : State} {rs : List ResultReg} {bs : List Byte} {vs : List (ResultReg × Word)}
    (h : (s.deliver rs bs vs).errCode = 0) : bs.length ≤ s.dstRoom := by
  by_contra hover
  rw [deliver_overflow (Nat.lt_of_not_le hover), raise_errCode] at h
  exact code_ne_zero _ h

/-! ### The encoders of two blocks -/

/-- Blocks with the same source bytes have the same source (R531, R542). -/
theorem source_congr {s s' : State} (hcount : s.srcCount = s'.srcCount)
    (hbyte : ∀ i < s.srcCount, s.srcByte i = s'.srcByte i) : s.source = s'.source := by
  rw [source_eq, source_eq, ← hcount]
  exact List.map_congr_left fun i hi => hbyte i (List.mem_range.mp hi)

/-- The outputs of an encoder with result registers `rs` are the same in two blocks, where it ended in `t` and `t'` with its
destination at `d` and `d'`: ERRCODE, the result registers and, on success, the destination bytes. -/
structure SameOutputs (rs : List ResultReg) (d d' : Nat) (t t' : State) : Prop where
  errCode : t.errCode = t'.errCode
  read : ∀ x ∈ rs, t.results.read x = t'.results.read x
  bytes : t.errCode = 0 → ∀ k < t.results.outBytes.toNat, t.byteAt (d + k) = t'.byteAt (d' + k)

theorem sameOutputs_raise (rs : List ResultReg) (e : CmdError) (d d' : Nat) (s s' : State) :
    SameOutputs rs d d' (s.raise rs e) (s'.raise rs e) where
  errCode := by rw [raise_errCode, raise_errCode]
  read x hx := by rw [read_raise, read_raise, if_pos hx, if_pos hx]
  bytes h := absurd ((raise_errCode ..).symm.trans h) (code_ne_zero e)

/-- A register that a list of writes names holds what they wrote, whatever it held before. -/
theorem read_foldl_write_congr {vs : List (ResultReg × Word)} {x : ResultReg} {q q' : Results}
    (h : x ∈ vs.map Prod.fst ∨ q.read x = q'.read x) :
    (vs.foldl (fun r v => r.write v.1 v.2) q).read x = (vs.foldl (fun r v => r.write v.1 v.2) q').read x := by
  induction vs generalizing q q' with
  | nil => exact h.resolve_left (List.not_mem_nil)
  | cons v vs ih =>
    refine ih ?_
    rw [Results.read_write, Results.read_write]
    by_cases hv : v.1 = x
    · exact .inr (by rw [if_pos hv, if_pos hv])
    · rw [if_neg hv, if_neg hv]
      exact h.imp_left fun hm => (List.mem_cons.mp hm).resolve_left (Ne.symm hv)

/-- Two deliveries of the same bytes and the same results, the capacities being the same (R531, R542). -/
theorem sameOutputs_deliver {rs : List ResultReg} {bs : List Byte} {vs : List (ResultReg × Word)} {s s' : State}
    (hcap : s.snap.dstCap = s'.snap.dstCap) (herr : s.errCode = s'.errCode) (hrs : ∀ x ∈ rs, x ∈ vs.map Prod.fst)
    (hbytes : (s.setResults vs).results.outBytes = BitVec.ofNat 32 bs.length) :
    SameOutputs rs s.dstAt s'.dstAt (s.deliver rs bs vs) (s'.deliver rs bs vs) := by
  by_cases hfit : bs.length ≤ s.snap.dstCap.toNat
  · have hfit' := hfit
    rw [hcap] at hfit'
    refine ⟨by rw [deliver_fits hfit, deliver_fits hfit']; exact herr, fun x hx => ?_, fun _ k hk => ?_⟩
    · rw [deliver_fits hfit, deliver_fits hfit']
      exact read_foldl_write_congr (.inl (hrs x hx))
    · rw [deliver_fits hfit] at hk
      have hk : k < bs.length :=
        lt_of_lt_of_le hk (by rw [hbytes, BitVec.toNat_ofNat]; exact Nat.mod_le _ _)
      rw [byteAt_deliver_inside hfit k hk, byteAt_deliver_inside hfit' k hk]
  · have hover : s.snap.dstCap.toNat < bs.length := by omega
    rw [deliver_overflow hover, deliver_overflow (hcap ▸ hover), hcap]
    exact sameOutputs_raise rs _ _ _ s s'

end Sys2Proof.Machine
end

section
/-! THEOREMS. The bit emitter EMIT (R530, R531), and the overflow of the encoders EMIT, RLE and BINX (R920). -/

namespace Sys2Proof.Machine

/-! ### The codes of the source -/

/-- Blocks with the same source have the same IN_BITS. -/
theorem inBits_congr {s s' : State} (hcount : s.srcCount = s'.srcCount) : s.inBits = s'.inBits :=
  congrArg (fun n => BitVec.ofNat 32 (8 * n)) hcount

/-- EMIT's body when source byte `i` is the first without a code (R530). -/
theorem emitWith_unknown {s : State} {a : Layout} {ct : CodeTable} {i : Nat} (hi : i < s.srcCount)
    (hknown : ∀ j < i, ct.entry (s.srcByte j) ≠ []) (hunknown : ct.entry (s.srcByte i) = []) :
    s.emitWith a ct = s.raise (resultRegs (.emit a)) (.unknownSymbol i (s.srcByte i)) := by
  have hget : ∀ j < s.srcCount, s.source[j]? = some (s.srcByte j) := fun j hj => by simp [source_eq, hj]
  have hfirst : firstUnknown ct 0 s.source = some (0 + i, s.srcByte i) := by
    refine firstUnknown_eq_some ct 0 i _ _ (hget i hi) hunknown fun k hk c hc => ?_
    obtain rfl := Option.some.inj ((hget k (by omega)).symm.trans hc)
    exact hknown k hk
  rw [State.emitWith, hfirst, Nat.zero_add]

/-- Settles O23: an unknown symbol is a data error, met before the capacity is looked at. -/
theorem emitReportsTheFirstUnknownSymbol : Obligations.EmitReportsTheFirstUnknownSymbol := by
  intro s a ct i hregions hct hi hknown hunknown
  refine ⟨_, exec_emit hregions hct, ?_⟩
  rw [emitWith_unknown hi hknown hunknown]
  exact raise_data_frame s (resultRegs (.emit a)) rfl

/-- Settles O40: EMIT delivers the concatenation of the codes. -/
theorem emitWritesTheCodes : Obligations.EmitWritesTheCodes := by
  intro s a ct hregions hct hknown hfit
  refine ⟨_, exec_emit hregions hct, ?_⟩
  rw [emitWith_known hknown, streamResults_eq]
  exact deliver_stream_frame (resultRegs (.emit a)) _ hfit

/-! ### Overflow -/

/-- Settles O24: each of the three delivers an output that is too long, RLE 5 bytes for each run and BINX 8 bits for each
byte. -/
theorem overflowLeavesTheRest : Obligations.OverflowLeavesTheRest := by
  refine fun s hregions => ⟨fun a ct hct hknown hover => ?_, fun runs hpos hruns hover => ?_, fun a hover => ?_⟩
  · refine ⟨_, exec_emit hregions hct, ?_⟩
    rw [emitWith_known hknown]
    exact deliver_overflow_frame (resultRegs (.emit a)) _ (length_layoutBytes_needed a _) hover
  · obtain rfl := areRuns_unique hruns
    exact ⟨_, exec_rle hregions hpos, deliver_overflow_frame (resultRegs .rle) _ (length_runRecords _) hover⟩
  · refine ⟨_, exec_binx hregions, deliver_overflow_frame (resultRegs (.binx a)) _ ?_ hover⟩
    rw [length_layoutBytes_needed, length_expandBytes, length_source]

/-! ### Purity -/

/-- EMITs of two blocks with the same code table, source, capacity and ERRCODE have the same outputs. -/
theorem sameOutputs_emitWith {s s' : State} (a : Layout) (ct : CodeTable) (hsource : s.source = s'.source)
    (hcap : s.snap.dstCap = s'.snap.dstCap) (hin : s.inBits = s'.inBits) (herr : s.errCode = s'.errCode) :
    SameOutputs (resultRegs (.emit a)) s.dstAt s'.dstAt (s.emitWith a ct) (s'.emitWith a ct) := by
  simp only [State.emitWith, streamResults_eq, ← hsource, ← hin]
  cases firstUnknown ct 0 s.source with
  | some u => exact sameOutputs_raise _ _ _ _ s s'
  | none =>
    exact sameOutputs_deliver hcap herr (fun x hx => hx) (by rw [length_layoutBytes_needed]; rfl)

/-- Settles O41: besides the code table EMIT reads the source, the capacity and the layout, and by its frame it writes no
store. -/
theorem emitIsPure : Obligations.EmitIsPure := by
  intro s s' t t' a hregions hregions' hsome hct hcount hbyte hroom herr herr' hexec hexec'
  obtain ⟨ct, hs⟩ := Option.isSome_iff_exists.mp hsome
  obtain rfl := Host.Outcome.next.inj ((exec_emit hregions hs).symm.trans hexec)
  obtain rfl := Host.Outcome.next.inj ((exec_emit hregions' (hct.symm.trans hs)).symm.trans hexec')
  obtain ⟨-, -, -, -, hft, htree, hctAfter, -⟩ := commandFrames _ _ _ hexec
  obtain ⟨hcode, hread, hbytes⟩ := sameOutputs_emitWith a ct (source_congr hcount hbyte) (BitVec.eq_of_toNat_eq hroom)
    (inBits_congr hcount) (herr.trans herr'.symm)
  exact ⟨hcode, hread .inBits (by simp [resultRegs]), hread .outBits (by simp [resultRegs]),
    hread .outBytes (by simp [resultRegs]), hft rfl, htree rfl, hctAfter rfl, hbytes⟩

end Sys2Proof.Machine
end

section
/-! THEOREMS. The code table: CODES gives the paths of the tree (R500 to R504), with the properties of R502, and the image that
CTLOAD reads and CTSTORE writes (R520, R521, R523). -/

namespace Sys2Proof.Machine

/-! ### CODES -/

/-- NSYM, as the claims count the symbols with a code (R500). -/
theorem nsym_eq_filter (ct : CodeTable) :
    ct.nsym = ((List.range 256).filter fun k => ct.entry (BitVec.ofNat 8 k) ≠ []).length := by
  rw [CodeTable.nsym, allSymbols, List.countP_map, List.countP_eq_length_filter]
  congr 2
  funext k
  cases h : ct.entry (BitVec.ofNat 8 k) <;> simp [h]

/-- Settles O35: the walk gives a symbol the path of its last leaf, and NSYM and MAXLEN are those of the table. -/
theorem codesArePathsToLeaves : Obligations.CodesArePathsToLeaves := by
  intro s h htree
  obtain ⟨hct, hlast⟩ := assignCodes_spec h
  obtain ⟨hmax, hreached⟩ := (assignCodes h).maxlen_spec
  exact ⟨assignCodes h, (assignCodes h).nsym, (assignCodes h).maxlen, hct, hlast, nsym_eq_filter _, hct.nsym_eq, hmax, hreached,
    exec_codes htree⟩

/-! ### The properties of R502 -/

section

variable {h : HTree} (htwo : 2 ≤ h.symbols.length)

include htwo

/-- With two or more leaves every code is a path (R501). -/
theorem HTree.leafAt_of_hasCode {b : Byte} {p : BitSeq} (hp : h.hasCode b p) : h.leafAt p = some b := by
  cases h with
  | leaf => simp [HTree.symbols] at htwo
  | node => exact hp

/-- With two or more leaves the shares 2^(-LEN) of the codes sum to 1, here multiplied by 2^255 (R502). -/
theorem HTree.kraft_codes (hfew : h.symbols.length ≤ 256) : (h.codes.map fun e => 2 ^ (255 - e.2.length)).sum = 2 ^ 255 := by
  cases h with
  | leaf => simp [HTree.symbols] at htwo
  | node => exact HTree.kraft _ [] 255 (by simpa using hfew)

/-- The code table of a tree with two or more leaves, each symbol at one of them, has the properties of R502. -/
theorem IsCodeTable.isPrefixCode (hnodup : h.symbols.Nodup) {ct : CodeTable} (hct : IsCodeTable h ct) :
    ct.isPrefixCode h.symbols.length := by
  have hcode : ∀ b : Byte, ct.entry b ≠ [] → h.hasCode b (ct.entry b) := fun b hb =>
    (hct b).1 (not_not.mp (mt (hct.entry_eq_nil b).mpr hb))
  refine ⟨fun b c hb hc hbc hpre => hbc ?_, fun b hb => ?_, ?_⟩
  · exact HTree.leafAt_of_prefix (HTree.leafAt_of_hasCode htwo (hcode b hb)) (HTree.leafAt_of_hasCode htwo (hcode c hc)) hpre
  · have := HTree.hasCode_length (hcode b hb)
    omega
  · have hpresent : ∀ e ∈ h.codes, (if e.2 = [] then 0 else 2 ^ (255 - e.2.length)) = 2 ^ (255 - e.2.length) := by
      intro e he
      have hpos := (HTree.hasCode_length ((h.mem_codes e.1 e.2).mp he)).1
      exact if_neg (List.ne_nil_of_length_pos hpos)
    rw [sum_range_symbols fun b => if ct.entry b = [] then 0 else 2 ^ (255 - (ct.entry b).length),
      hct.sum_eq hnodup (fun _ c => if c = [] then 0 else 2 ^ (255 - c.length)) (fun _ => rfl), List.map_congr_left hpresent]
    exact HTree.kraft_codes htwo (symbols_length_le hnodup)

end

/-! ### The image -/

/-- Settles O37: CTLOAD takes from each entry as many bits as its first byte says. -/
theorem ctloadReadsTheImage : Obligations.CtloadReadsTheImage := by
  refine fun s htbl => ⟨_, exec_ctload htbl, fun b => ?_⟩
  rw [Table.entry_tab, State.loadCode, List.length_map, List.length_range]
  exact ⟨rfl, fun k hk => getD_map_range _ _ k false hk⟩

/-- Code bit `k` in an entry of an image, 0 past the code (R520, R523). -/
theorem getLsbD_codeImage (c : BitSeq) {k : Nat} (hk : k < 256) :
    ((codeImage c).getD (4 + k / 8) 0).getLsbD (7 - k % 8) = c.getD k false := by
  have hbyte : (codeImage c).getD (4 + k / 8) 0 = packByte fun i => bitAt c (8 * (k / 8) + i) := by
    rw [codeImage, Nat.add_comm]
    exact getD_map_range _ 32 _ _ (by omega)
  rw [hbyte, getLsbD_packByte _ _ (by omega), bitAt, Nat.div_add_mod]

/-- Byte `j` of the entry of `b` in a stored image (R520). -/
theorem byteAt_storeBytes_ctImage (s : State) (a : Nat) (ct : CodeTable) (b : Byte) {j : Nat} (hj : j < 36) :
    (s.storeBytes a (ctImage ct)).byteAt (a + 36 * b.toNat + j) = (codeImage (ct.entry b)).getD j 0 := by
  have hin : 36 * b.toNat + j < (ctImage ct).length := by
    have := b.isLt
    rw [length_ctImage]
    omega
  rw [Nat.add_assoc, byteAt_storeBytes_inside s a _ _ hin, ctImage, getD_image (fun c => length_codeImage _) b j hj]

/-- The entry of `b` in a stored image, of a code that fits the u8 LEN field: its length and its bits (R520, R523). -/
theorem storeBytes_ctImage_entry (s : State) (a : Nat) {ct : CodeTable} {b : Byte} (hlen : (ct.entry b).length ≤ 255) :
    ((s.storeBytes a (ctImage ct)).byteAt (a + 36 * b.toNat)).toNat = (ct.entry b).length ∧
      ∀ k < 256, ((s.storeBytes a (ctImage ct)).byteAt (a + 36 * b.toNat + 4 + k / 8)).getLsbD (7 - k % 8) =
        (ct.entry b).getD k false := by
  refine ⟨?_, fun k hk => ?_⟩
  · have hfirst := byteAt_storeBytes_ctImage s a ct b (j := 0) (by decide)
    rw [Nat.add_zero] at hfirst
    rw [hfirst, codeImage, List.getD_cons_zero, BitVec.toNat_ofNat]
    exact Nat.mod_eq_of_lt (by omega)
  · rw [Nat.add_assoc _ 4, byteAt_storeBytes_ctImage s a ct b (by omega), getLsbD_codeImage _ hk]

/-- Settles O38: the stored bytes are the image of the table, which fills the region. -/
theorem ctstoreWritesTheImage : Obligations.CtstoreWritesTheImage := by
  intro s ct htbl hct hlen
  refine ⟨_, exec_ctstore htbl hct, rfl, fun b => ?_, fun x hx => ?_⟩
  · simp only [State.complete_byteAt]
    obtain ⟨hfirst, hbits⟩ := storeBytes_ctImage_entry s s.tblAt (hlen b)
    have hreserved : ∀ j, j < 3 → (s.storeBytes s.tblAt (ctImage ct)).byteAt (s.tblAt + 36 * b.toNat + (1 + j)) = 0 := by
      intro j hj
      rw [byteAt_storeBytes_ctImage s _ ct b (by omega), codeImage]
      interval_cases j <;> rfl
    exact ⟨hfirst, hreserved 0 (by decide), hreserved 1 (by decide), hreserved 2 (by decide), hbits⟩
  · rw [State.complete_byteAt, byteAt_storeBytes_outside]
    rwa [length_ctImage]

/-- A stored image loads back (R521, R523). -/
theorem loadCode_storeBytes_ctImage (s : State) (a : Nat) {ct : CodeTable} {b : Byte} (hlen : (ct.entry b).length ≤ 255) :
    (s.storeBytes a (ctImage ct)).loadCode a b = ct.entry b := by
  obtain ⟨hfirst, hbits⟩ := storeBytes_ctImage_entry s a hlen
  rw [State.loadCode, ctEntryAt]
  simp only [hfirst]
  refine List.ext_getElem (by simp) fun k hk hk' => ?_
  rw [List.getElem_map, List.getElem_range, hbits k (by omega), List.getD_eq_getElem _ _ hk']

/-- Settles O39: CTLOAD has the snapshot and the table region of CTSTORE, and loads each entry back. -/
theorem ctstoreThenCtloadKeepsTheTable : Obligations.CtstoreThenCtloadKeepsTheTable := by
  intro s t ct htbl hct hlen hexec
  obtain rfl := Host.Outcome.next.inj ((exec_ctstore htbl hct).symm.trans hexec)
  refine ⟨_, exec_ctload htbl, congrArg some (Table.ext_entry fun b => ?_)⟩
  rw [Table.entry_tab]
  exact loadCode_storeBytes_ctImage s s.snap.tblAddr.toNat (hlen b)

end Sys2Proof.Machine
end

section
/-! THEOREMS. The composite HUFF (R540): what it builds and emits, that it is the pipeline of four commands, that it depends on
its source alone (R542), raises no error of EMIT or CODES, and never expands (R541); and what R502 says of the codes of CODES and
HUFF. -/

namespace Sys2Proof.Machine

/-! ### What HUFF builds -/

/-- The five results of HUFF with the tree `h` (R540). -/
def State.huffResults (s : State) (a : Layout) (h : HTree) : List (ResultReg × Word) :=
  [(.inBits, s.inBits), (.outBits, BitVec.ofNat 32 (s.sourceCodes (assignCodes h)).length),
    (.outBytes, BitVec.ofNat 32 (bytesNeeded a (s.sourceCodes (assignCodes h)).length)),
    (.nsym, BitVec.ofNat 32 (symbolsIn (freqOf s.source))), (.maxlen, BitVec.ofNat 32 (assignCodes h).maxlen)]

/-- The end of HUFF with the tree `h`: the codes of the source are delivered, the three stores being built (R540). -/
def State.huffEnd (s : State) (a : Layout) (h : HTree) : State :=
  (s.buildStores (freqOf s.source) h (assignCodes h)).deliver (resultRegs (.huff a))
    (layoutBytes a (s.sourceCodes (assignCodes h))) (s.huffResults a h)

/-- A HUFF without an error is one whose output fits. -/
theorem fits_of_huffEnd {s : State} {a : Layout} {h : HTree} (hok : (s.huffEnd a h).errCode = 0) :
    (layoutBytes a (s.sourceCodes (assignCodes h))).length ≤ s.dstRoom :=
  fits_of_deliver (s := s.buildStores _ _ _) hok

/-- The end of a HUFF without an error (R540). -/
theorem huffEnd_of_ok {s : State} {a : Layout} {h : HTree} (hok : (s.huffEnd a h).errCode = 0) :
    s.huffEnd a h = { s.buildStores (freqOf s.source) h (assignCodes h) with
      phase := .idle, intrDone := true, mem := memStore s.mem s.dstAt (layoutBytes a (s.sourceCodes (assignCodes h)))
      results := (s.setResults (s.huffResults a h)).results } :=
  deliver_fits (s := s.buildStores _ _ _) (fits_of_huffEnd hok)

/-- The count of a valid source fits a u32 with room to spare (R7). -/
theorem srcCount_le {s : State} (h : s.srcOk) : s.srcCount ≤ 2 ^ 24 := by
  have := dmemSize_le s
  omega

theorem length_source_lt {s : State} (h : s.srcOk) : s.source.length < 2 ^ 32 := by
  have := srcCount_le h
  rw [length_source]
  omega

/-- HUFF on a source that is not empty: its tree is an outcome of the loop of R422, its codes know the source, and its end is
`huffEnd` (R540). -/
theorem exec_huff_tree {s : State} (a : Layout) (hregions : s.regionsOk) (hpos : 0 < s.srcCount) :
    ∃ h, buildTree (freqOf s.source) = some h ∧ Huffman 0 (leavesOf (freqOf s.source)) h ∧
      (∀ i < s.srcCount, (assignCodes h).entry (s.srcByte i) ≠ []) ∧ exec (.huff a) s = .next (s.huffEnd a h) := by
  obtain ⟨h, hbuild, hh, -, -, hknown⟩ := huff_known (length_source_lt hregions.1)
    (List.ne_nil_of_length_pos (by rwa [length_source]))
  refine ⟨h, hbuild, hh, fun i hi => hknown _ ?_, ?_⟩
  · exact List.mem_map.mpr ⟨i, List.mem_range.mpr hi, rfl⟩
  · rw [exec_huff hregions hpos, State.huffBody, hbuild, Option.getD_some, codeStream_source, streamResults_eq, ← symbolsIn_eq]
    rfl

/-- Settles O42: the leaves of the source's table are the live set that the loop starts from. -/
theorem huffBuildsAndEmits : Obligations.HuffBuildsAndEmits := by
  intro s a hregions hpos
  obtain ⟨h, -, hh, -, hexec⟩ := exec_huff_tree a hregions hpos
  obtain ⟨hmax, hreached⟩ := (assignCodes h).maxlen_spec
  exact ⟨freqOf s.source, leavesOf _, h, assignCodes h, (assignCodes h).maxlen, freqOf_counts hregions.1, leavesOf_isLeafSet _,
    hh, assignCodes_isCodeTable h, hmax, hreached,
    fun hfit => ⟨_, hexec, deliver_stream_frame (s := s.buildStores _ h _) _ (s.huffResults a h) hfit⟩,
    fun hover => ⟨_, hexec,
      deliver_overflow_frame (s := s.buildStores _ h _) _ _ (length_layoutBytes_needed a _) hover⟩⟩

/-! ### The pipeline -/

/-- The symbols with a count are the leaves of the tree that the loop ends with (R425, R504). -/
theorem Huffman.length_symbols {ft : FreqTable} {h : HTree} (hh : Huffman 0 (leavesOf ft) h) :
    h.symbols.length = symbolsIn ft := by
  rw [hh.of_leaves.2.length_eq, symbolsIn_eq, distinct, List.countP_eq_length_filter]

/-- The block between two commands of the pipeline: the stores and result registers that the last one left, and the snapshot of
`s` for the next one (R540). -/
def State.between (s : State) (ft : Option FreqTable) (tree : Option HTree) (ct : Option CodeTable) (q : Results) : State :=
  { s with intrDone := true, ft := ft, tree := tree, ct := ct, results := q }

theorem exec_freq_between {s : State} (h : s.srcOk) : exec .freq s = .next
    { s.between (some (freqOf s.source)) none none { s.results with inBits := s.inBits } with phase := .idle } :=
  exec_freq h

theorem exec_tree_between (s : State) {ft : FreqTable} {h : HTree} (hh : Huffman 0 (leavesOf ft) h) (q : Results) :
    exec .tree (s.between (some ft) none none q) = .next
      { s.between (some ft) (some h) none { q with nsym := BitVec.ofNat 32 (symbolsIn ft) } with phase := .idle } := by
  obtain ⟨h', hh', hexec⟩ := exec_tree_huffman (s := s.between (some ft) none none q) rfl
    (ne_replicate_of_isLeafSet (leavesOf_isLeafSet ft) hh.ne_nil)
  obtain rfl := hh.unique hh' (List.Perm.refl _)
  exact hexec

theorem exec_codes_between (s : State) (ft : Option FreqTable) (h : HTree) (q : Results) :
    exec .codes (s.between ft (some h) none q) = .next
      { s.between ft (some h) (some (assignCodes h))
          { q with
            nsym := BitVec.ofNat 32 (assignCodes h).nsym, maxlen := BitVec.ofNat 32 (assignCodes h).maxlen } with
        phase := .idle } :=
  exec_codes rfl

theorem exec_emit_between {s : State} {a : Layout} {ct : CodeTable} (hregions : s.regionsOk)
    (hknown : ∀ i < s.srcCount, ct.entry (s.srcByte i) ≠ [])
    (hfit : (layoutBytes a (s.sourceCodes ct)).length ≤ s.dstRoom) (ft : Option FreqTable) (h : Option HTree) (q : Results) :
    exec (.emit a) (s.between ft h (some ct) q) = .next
      { s.between ft h (some ct) (q.write .inBits s.inBits |>.write .outBits (BitVec.ofNat 32 (s.sourceCodes ct).length)
          |>.write .outBytes (BitVec.ofNat 32 (bytesNeeded a (s.sourceCodes ct).length))) with
        phase := .idle, mem := memStore s.mem s.dstAt (layoutBytes a (s.sourceCodes ct)) } := by
  refine (exec_emit (s := s.between ft h (some ct) q) hregions rfl).trans (congrArg _ ?_)
  rw [emitWith_known (s := s.between ft h (some ct) q) hknown, streamResults_eq]
  exact deliver_fits (s := s.between ft h (some ct) q) hfit

/-- Settles O43: TREE builds the tree that HUFF builds, CODES counts as many symbols as FREQ, and EMIT knows each of them. -/
theorem huffIsThePipeline : Obligations.HuffIsThePipeline := by
  intro s t a hregions hpos herr hexec hok
  obtain ⟨h, -, hh, hknown, hend⟩ := exec_huff_tree a hregions hpos
  obtain rfl := Host.Outcome.next.inj (hend.symm.trans hexec)
  have hnsym : (assignCodes h).nsym = symbolsIn (freqOf s.source) :=
    ((assignCodes_isCodeTable h).nsym_eq (HTree.wf_nodup hh.of_leaves.1)).trans hh.length_symbols
  refine ⟨_, _, _, exec_freq_between hregions.1, exec_tree_between s hh _, exec_codes_between s _ h _,
    (exec_emit_between hregions hknown (fits_of_huffEnd hok) _ _ _).trans (congrArg _ ?_)⟩
  rw [huffEnd_of_ok hok, hnsym]
  rfl

/-! ### Determinism -/

/-- The codes of the source depend on the source bytes alone. -/
theorem sourceCodes_congr {s s' : State} (h : s.source = s'.source) (ct : CodeTable) : s.sourceCodes ct = s'.sourceCodes ct := by
  rw [← codeStream_source, h, codeStream_source]

theorem stores_huffEnd (s : State) (a : Layout) (h : HTree) : (s.huffEnd a h).ft = some (freqOf s.source) ∧
    (s.huffEnd a h).tree = some h ∧ (s.huffEnd a h).ct = some (assignCodes h) :=
  stores_deliver _ _ _ _

/-- HUFFs of two blocks with the same source, capacity and ERRCODE have the same outputs. -/
theorem sameOutputs_huffEnd {s s' : State} (a : Layout) (h : HTree) (hsource : s.source = s'.source)
    (hcap : s.snap.dstCap = s'.snap.dstCap) (hin : s.inBits = s'.inBits) (herr : s.errCode = s'.errCode) :
    SameOutputs (resultRegs (.huff a)) s.dstAt s'.dstAt (s.huffEnd a h) (s'.huffEnd a h) := by
  have hresults : s'.huffResults a h = s.huffResults a h := by
    rw [State.huffResults, State.huffResults, ← hin, ← hsource, ← sourceCodes_congr hsource]
  rw [State.huffEnd, State.huffEnd, hresults, ← sourceCodes_congr hsource]
  exact sameOutputs_deliver (s := s.buildStores (freqOf s.source) h (assignCodes h))
    (s' := s'.buildStores (freqOf s'.source) h (assignCodes h)) hcap herr (fun x hx => hx)
    (by rw [length_layoutBytes_needed]; rfl)

/-- Settles O44: the source gives the table, the table the tree, the tree the codes, and source and codes the output. -/
theorem huffDependsOnlyOnItsSource : Obligations.HuffDependsOnlyOnItsSource := by
  intro s s' t t' a hregions hregions' hcount hpos hbyte hroom herr herr' hexec hexec'
  have hsource := source_congr hcount hbyte
  obtain ⟨h, hbuild, -, -, hend⟩ := exec_huff_tree a hregions hpos
  obtain ⟨h', hbuild', -, -, hend'⟩ := exec_huff_tree a hregions' (hcount ▸ hpos)
  rw [← hsource, hbuild] at hbuild'
  obtain rfl := Option.some.inj hbuild'
  obtain rfl := Host.Outcome.next.inj (hend.symm.trans hexec)
  obtain rfl := Host.Outcome.next.inj (hend'.symm.trans hexec')
  obtain ⟨hft, htree, hct⟩ := stores_huffEnd s a h
  obtain ⟨hft', htree', hct'⟩ := stores_huffEnd s' a h
  obtain ⟨hcode, hread, hbytes⟩ := sameOutputs_huffEnd a h hsource (BitVec.eq_of_toNat_eq hroom) (inBits_congr hcount)
    (herr.trans herr'.symm)
  exact ⟨by rw [hft, hft', hsource], htree.trans htree'.symm, hct.trans hct'.symm, hcode,
    fun x hx => hread x ((mem_resultRegs _ x).mpr hx), hbytes⟩

/-! ### Errors -/

/-- The checks of HUFF raise AddressError and InvalidInput (R540). -/
theorem code_of_mem_checksOf_huff {s : State} {a : Layout} {e : CmdError} (h : some e ∈ s.checksOf (.huff a)) :
    e.code = 6 ∨ e.code = 1 := by
  simp only [State.checksOf, List.mem_cons, List.not_mem_nil, or_false] at h
  rcases h with h | h | h | h
  · exact .inl (require_isData h.symm ▸ rfl)
  · exact .inl (require_isData h.symm ▸ rfl)
  · exact .inl (require_isData h.symm ▸ rfl)
  · exact .inr (require_isData h.symm ▸ rfl)

/-- Settles O45: a check of HUFF fails, or its output is delivered. -/
theorem huffKnowsItsSymbols : Obligations.HuffKnowsItsSymbols := by
  intro s t a herr hexec
  rw [exec_eq_checked] at hexec
  obtain rfl := Host.Outcome.next.inj hexec
  rcases checked_cases s (resultRegs (.huff a)) (s.checksOf (.huff a)) (s.bodyOf (.huff a)) with ⟨e, he, ht⟩ | ⟨-, ht⟩
  · rw [ht, raise_errCode]
    rcases code_of_mem_checksOf_huff (firstError_mem he) with hcode | hcode <;> rw [hcode] <;> decide
  · rw [ht, State.bodyOf, State.huffBody]
    rcases errCode_deliver (s.buildStores _ _ _) (resultRegs (.huff a)) _ _ with hcode | hcode <;> rw [hcode]
    · rw [State.buildStores, herr]
      decide
    · decide

/-! ### The size bound -/

/-- Settles O46: the tree costs at most 8 for each source byte, so the stream has at most 8 bits for each. -/
theorem huffNeverExpands : Obligations.HuffNeverExpands := by
  intro s t a hregions hpos herr hexec hok
  obtain ⟨h, -, hh, -, hend⟩ := exec_huff_tree a hregions hpos
  obtain rfl := Host.Outcome.next.inj (hend.symm.trans hexec)
  have hbound := length_huffStream (length_source_lt hregions.1) hh
  have hcount := srcCount_le hregions.1
  rw [codeStream_source, length_source] at hbound
  rw [huffEnd_of_ok hok]
  show (BitVec.ofNat 32 (s.sourceCodes (assignCodes h)).length).toNat ≤ (BitVec.ofNat 32 (8 * s.srcCount)).toNat
  rw [BitVec.toNat_ofNat, BitVec.toNat_ofNat]
  omega

/-! ### The properties of R502 -/

/-- The number of leaves, each symbol at one of them, fits a result register. -/
theorem toNat_ofNat_leaves {h : HTree} (hnodup : h.symbols.Nodup) :
    (BitVec.ofNat 32 h.symbols.length).toNat = h.symbols.length := by
  have := symbols_length_le hnodup
  rw [BitVec.toNat_ofNat]
  omega

/-- Settles O36: the tree of HUFF has each symbol at one leaf, as the claim assumes of the tree that CODES reads. -/
theorem codesArePrefixFree : Obligations.CodesArePrefixFree := by
  refine ⟨fun s t h ct htree hnodup htwo hexec hct => ?_, fun s t a h ct hregions hpos herr hexec htree hct htwo => ?_⟩
  · obtain rfl := Host.Outcome.next.inj ((exec_codes htree).symm.trans hexec)
    obtain rfl := Option.some.inj hct
    have hcodes := assignCodes_isCodeTable h
    refine ⟨?_, hcodes.isPrefixCode htwo hnodup⟩
    rw [← toNat_ofNat_leaves hnodup, ← hcodes.nsym_eq hnodup]
    rfl
  · obtain ⟨h', -, hh, -, hend⟩ := exec_huff_tree a hregions hpos
    obtain rfl := Host.Outcome.next.inj (hend.symm.trans hexec)
    obtain ⟨-, htree', hct'⟩ := stores_huffEnd s a h'
    obtain rfl := Option.some.inj (htree'.symm.trans htree)
    obtain rfl := Option.some.inj (hct'.symm.trans hct)
    have hnodup := HTree.wf_nodup hh.of_leaves.1
    refine ⟨fun hok => ?_, (assignCodes_isCodeTable h').isPrefixCode htwo hnodup⟩
    rw [huffEnd_of_ok hok, ← toNat_ofNat_leaves hnodup, hh.length_symbols]
    rfl

end Sys2Proof.Machine
end

section
/-! THEOREMS. The run-length encoder RLE (R600, R601), and the properties of its records (R603). -/

namespace Sys2Proof.Machine

/-! ### The runs of the source -/

/-- The number of bytes that runs expand to is the sum of their counts (R603). -/
theorem length_expandRuns (rs : List (Byte × Nat)) : (expandRuns rs).length = (rs.map Prod.snd).sum := by
  simp [expandRuns, List.length_flatMap]

theorem sum_counts_of_areRuns {s : State} {rs : List (Byte × Nat)} (h : s.areRuns rs) :
    (rs.map Prod.snd).sum = s.srcCount := by
  rw [← length_expandRuns, h.1, ← source_eq, length_source]

/-- The count of a run of a valid source fits its four bytes (R602). -/
theorem count_lt_of_areRuns {s : State} {rs : List (Byte × Nat)} (hsrc : s.srcOk) (h : s.areRuns rs) {r : Byte × Nat}
    (hr : r ∈ rs) : r.2 < 256 ^ 4 := by
  have hsum := sum_counts_of_areRuns h
  have hle : r.2 ≤ (rs.map Prod.snd).sum := List.le_sum_of_mem (List.mem_map_of_mem hr)
  have hcount := srcCount_le hsrc
  omega

/-- The scan starts a new run at each change of the byte. -/
theorem length_runsFrom_map (f : Nat → Byte) (cnt n : Nat) :
    (runsFrom (f 0) cnt ((List.range n).map fun i => f (i + 1))).length =
      1 + (List.range n).countP fun i => f (i + 1) != f i := by
  induction n generalizing f cnt with
  | zero => rfl
  | succ n ih =>
    rw [List.range_succ_eq_map, List.map_cons, List.map_map, List.countP_cons, List.countP_map, runsFrom]
    by_cases hsame : f 1 = f 0
    · rw [if_pos hsame, ← hsame]
      exact (ih (fun i => f (i + 1)) _).trans (by simp [hsame, Function.comp_def])
    · rw [if_neg hsame, List.length_cons]
      exact (congrArg (· + 1) (ih (fun i => f (i + 1)) _)).trans (by simp [hsame, Function.comp_def]; omega)

/-- A source that is not empty has 1 run more than it has changes (R603). -/
theorem length_runsOf_source {s : State} (hpos : 0 < s.srcCount) : (runsOf s.source).length =
    1 + ((List.range s.srcCount).filter fun i => decide (1 ≤ i) && (s.srcByte i != s.srcByte (i - 1))).length := by
  obtain ⟨n, hn⟩ := Nat.exists_eq_add_of_le' hpos
  rw [source_eq, hn, List.range_succ_eq_map, List.map_cons, List.map_map, runsOf, ← List.countP_eq_length_filter,
    List.countP_cons, List.countP_map]
  exact (length_runsFrom_map s.srcByte 1 n).trans (by simp [Function.comp_def])

/-! ### The records in DMEM -/

/-- Byte `i` of record `j` where the records fit (R601). -/
theorem byteAt_rleBody {s : State} (hfit : 5 * (runsOf s.source).length ≤ s.dstRoom) {j i : Nat}
    (hj : j < (runsOf s.source).length) (hi : i < 5) :
    s.rleBody.byteAt (s.dstAt + 5 * j + i) = (runRecord ((runsOf s.source).getD j (0, 0))).getD i 0 := by
  rw [← length_runRecords] at hfit
  have hin : 5 * j + i < ((runsOf s.source).flatMap runRecord).length := by
    rw [length_runRecords]
    omega
  rw [Nat.add_assoc, ← getD_runRecords _ j i hj hi]
  exact byteAt_deliver_inside hfit _ hin

/-- Byte `k` of the count of record `j` (R601). -/
theorem byteAt_rleBody_count {s : State} (hfit : 5 * (runsOf s.source).length ≤ s.dstRoom) {j k : Nat}
    (hj : j < (runsOf s.source).length) (hk : k < 4) : s.rleBody.byteAt (s.dstAt + 5 * j + 1 + k) =
      BitVec.ofNat 8 (((runsOf s.source).getD j (0, 0)).2 / 256 ^ k) := by
  rw [Nat.add_assoc _ 1 k, Nat.add_comm 1 k, byteAt_rleBody hfit hj (Nat.succ_lt_succ hk), runRecord, List.getD_cons_succ,
    leBytes_getD 4 _ k hk]

/-- Record `j` reads back as run `j`. -/
theorem recordAt_rleBody {s : State} (hregions : s.regionsOk) (hpos : 0 < s.srcCount)
    (hfit : 5 * (runsOf s.source).length ≤ s.dstRoom) {j : Nat} (hj : j < (runsOf s.source).length) :
    s.rleBody.recordAt s.dstAt j = (runsOf s.source).getD j (0, 0) := by
  have hbytes : s.rleBody.bytesAt (s.dstAt + 5 * j + 1) 4 = leBytes 4 ((runsOf s.source).getD j (0, 0)).2 := by
    rw [leBytes_eq_map, State.bytesAt]
    exact List.map_congr_left fun k hk => byteAt_rleBody_count hfit hj (List.mem_range.mp hk)
  have hmem : (runsOf s.source).getD j (0, 0) ∈ runsOf s.source := by
    rw [List.getD_eq_getElem _ _ hj]
    exact List.getElem_mem hj
  have hcount := count_lt_of_areRuns hregions.1 (runsOf_areRuns hpos) hmem
  refine Prod.ext (byteAt_rleBody (i := 0) hfit hj (by decide)) ?_
  rw [State.recordAt, State.memRead, hbytes, leValue_leBytes, Nat.mod_eq_of_lt hcount]

/-- The RUNS register of an RLE whose records fit holds the number of runs (R600). -/
theorem toNat_runs_rleBody {s : State} (hsrc : s.srcOk) (hfit : 5 * (runsOf s.source).length ≤ s.dstRoom) :
    s.rleBody.results.runs.toNat = (runsOf s.source).length := by
  have hcount := srcCount_le hsrc
  have hruns := length_runsOf s.source
  rw [length_source] at hruns
  rw [← length_runRecords] at hfit
  rw [State.rleBody, deliver_fits hfit]
  exact Nat.mod_eq_of_lt (by omega)

/-! ### The claims -/

/-- Settles O47: the records of the runs are delivered. -/
theorem rleWritesTheRuns : Obligations.RleWritesTheRuns := by
  refine fun s hregions hpos => ⟨runsOf s.source, runsOf_areRuns hpos, fun hfit => ⟨_, exec_rle hregions hpos, ?_,
    fun j hj => ⟨byteAt_rleBody (i := 0) hfit hj (by decide), fun k hk => ?_⟩, fun x hx => ?_⟩⟩
  · rw [← length_runRecords] at hfit
    rw [State.rleBody, deliver_fits hfit]
    rfl
  · rw [← pow_256_eq]
    exact byteAt_rleBody_count hfit hj hk
  · rw [← length_runRecords] at hfit hx
    exact byteAt_deliver_outside hfit x hx

/-- Settles O48: without an error the records fit, and they read back as the maximal runs of the source. -/
theorem rleRecordsExpandToTheSource : Obligations.RleRecordsExpandToTheSource := by
  intro s t runs hregions hpos _ hexec hok hread
  obtain rfl := Host.Outcome.next.inj ((exec_rle hregions hpos).symm.trans hexec)
  have hfit : 5 * (runsOf s.source).length ≤ s.dstRoom := length_runRecords _ ▸ fits_of_deliver hok
  have hlen := toNat_runs_rleBody hregions.1 hfit
  obtain rfl : runs = runsOf s.source := by
    rw [hread, hlen]
    refine List.ext_getElem (by simp) fun j h1 h2 => ?_
    rw [List.getElem_map, List.getElem_range, recordAt_rleBody hregions hpos hfit h2, List.getD_eq_getElem _ _ h2]
  have hruns := runsOf_areRuns hpos
  have ⟨hexpand, hone, hchain⟩ := hruns
  exact ⟨hone, sum_counts_of_areRuns hruns, hexpand, hchain, hlen.trans (length_runsOf_source hpos)⟩

end Sys2Proof.Machine
end

section
/-! THEOREMS. The binary expander BINX (R700, R701), and its packed layout (R702). -/

namespace Sys2Proof.Machine

@[simp] theorem length_sourceBits (s : State) : s.sourceBits.length = 8 * s.srcCount := by
  rw [← expandBytes_source, length_expandBytes, length_source]

/-- BINX delivers the bits of the source as EMIT delivers its codes (R700, R530). -/
theorem binxBody_eq_deliver (s : State) (a : Layout) : s.binxBody a =
    s.deliver (resultRegs (.binx a)) (layoutBytes a s.sourceBits) (s.streamResults a (8 * s.srcCount)) := by
  rw [← length_sourceBits, ← expandBytes_source]
  rfl

/-- Settles O49: the bits of the source are delivered, 8 for each byte. -/
theorem binxWritesTheBits : Obligations.BinxWritesTheBits := by
  intro s a hregions hfit
  refine ⟨_, exec_binx hregions, ?_⟩
  rw [← length_sourceBits] at hfit
  have hframe := deliver_stream_frame (resultRegs (.binx a)) (s.streamResults a (8 * s.srcCount)) hfit
  rw [length_sourceBits, streamResults_eq] at hframe
  rw [binxBody_eq_deliver, streamResults_eq]
  exact hframe

/-- The packed bits of the source are the source bytes (R702). -/
theorem layoutBytes_packed_sourceBits (s : State) : layoutBytes .packed s.sourceBits = s.source := by
  rw [← expandBytes_source]
  exact packBits_expandBytes s.source

/-- Packed BINX delivers the source bytes (R702). -/
theorem binxBody_packed (s : State) : s.binxBody .packed =
    s.deliver (resultRegs (.binx .packed)) s.source (s.streamResults .packed (8 * s.srcCount)) := by
  rw [binxBody_eq_deliver, layoutBytes_packed_sourceBits]

/-- Packed, the bits of `n` bytes need `n` bytes (R240, R702). -/
theorem bytesNeeded_packed_bytes (n : Nat) : bytesNeeded .packed (8 * n) = n := by
  rw [bytesNeeded]
  omega

/-- Settles O50: packing undoes the expansion, so the bytes delivered are the source. -/
theorem binxPackedCopiesTheSource : Obligations.BinxPackedCopiesTheSource := by
  intro s t hregions hroom hexec
  obtain rfl := Host.Outcome.next.inj ((exec_binx hregions).symm.trans hexec)
  have hfit : s.source.length ≤ s.dstRoom := (length_source s).trans_le hroom
  rw [binxBody_packed]
  refine ⟨?_, fun j hj => ?_⟩
  · rw [deliver_fits hfit, streamResults_eq, bytesNeeded_packed_bytes]
    exact Nat.mod_eq_of_lt s.snap.srcLen.isLt
  · rw [byteAt_deliver_inside hfit j (by rwa [length_source]), source_eq]
    exact getD_map_range _ _ j 0 hj

end Sys2Proof.Machine
end

section
/-! THEOREMS. The ratio unit RATIO (R801, R802) and the control commands NOP (R820) and CLEAR (R830). -/

namespace Sys2Proof.Machine

/-! ### RATIO -/

/-- RES holds the quotient exactly: it lies within the bounds of R802, so it never wraps. -/
theorem toInt_ratioWord_bounds {s : State} (h : s.snap.arg0 ≠ 0) :
    s.ratioWord.toInt = ratioOf s.snap.arg0.toNat s.snap.arg1.toNat ∧
      -28147497657958400 ≤ s.ratioWord.toInt ∧ s.ratioWord.toInt ≤ 6553600 := by
  have hpos : 0 < s.snap.arg0.toNat := Nat.pos_of_ne_zero (BitVec.toNat_ne_iff_ne.mpr h)
  obtain ⟨hmin, hmax⟩ := ratioOf_bounds _ s.snap.arg1.toNat hpos s.snap.arg1.isLt
  have hword : s.ratioWord.toInt = ratioOf s.snap.arg0.toNat s.snap.arg1.toNat := toInt_ratioWord hmin hmax
  exact ⟨hword, hword ▸ hmin, hword ▸ hmax⟩

/-- Settles O51: the two result registers are the halves of RES, and RES is the quotient. -/
theorem ratioIsTheTruncatedQuotient : Obligations.RatioIsTheTruncatedQuotient := by
  refine fun s hne => ⟨_, exec_ratio hne, rfl, ?_⟩
  have hquot := toInt_ratioWord_bounds hne
  rw [← append_halves s.ratioWord] at hquot
  exact hquot

/-! ### NOP -/

/-- Settles O25: NOP is the end of a command alone, and that sets INTR.DONE. -/
theorem nopOnlyCompletes : Obligations.NopOnlyCompletes :=
  ⟨rfl, fun s => ⟨s.complete, rfl, rfl, Bool.and_true s.ie⟩⟩

/-! ### CLEAR -/

theorem ftCheck_of_none {s : State} (h : s.ft = none) : s.ftCheck = some (.invalidInput .noFreqTable) := by
  rw [State.ftCheck, State.ftValid, h, Option.isSome_none, require_false]

theorem treeCheck_of_none {s : State} (h : s.tree = none) : s.treeCheck = some .emptyTree := by
  rw [State.treeCheck, State.treeValid, h, Option.isSome_none, require_false]

theorem ctCheck_of_none {s : State} (h : s.ct = none) : s.ctCheck = some (.invalidInput .noCodeTable) := by
  rw [State.ctCheck, State.ctValid, h, Option.isSome_none, require_false]

/-- A command ends with the error of its first check that fails (R910, R920). -/
theorem endsWith_of_firstError {s : State} {i : Instr} (e : CmdError) (h : firstError (s.checksOf i) = some e) :
    s.endsWith i e.code e.info0 e.info1 :=
  ⟨s.raise (resultRegs i) e, by rw [exec_eq_checked, checked_fail h], raise_errCode .., raise_errInfo0 ..,
    raise_errInfo1 ..⟩

/-- Settles O26: the stores are not held, so each check for one fails where the checks before it pass. -/
theorem clearDiscardsTheStores : Obligations.ClearDiscardsTheStores := by
  refine ⟨rfl, fun s => ⟨s.clearStores.complete, rfl, rfl, rfl, rfl, rfl, fun u hft htree hct => ?_⟩⟩
  have hnoFt := ftCheck_of_none hft
  have hnoTree := treeCheck_of_none htree
  have hnoCt := ctCheck_of_none hct
  refine ⟨endsWith_of_firstError (.invalidInput .noFreqTable) ?_, endsWith_of_firstError .emptyTree ?_,
    fun a hregions => endsWith_of_firstError (.invalidInput .noCodeTable) ?_,
    fun htbl => endsWith_of_firstError (.invalidInput .noCodeTable) ?_,
    fun htbl => endsWith_of_firstError (.invalidInput .noFreqTable) ?_⟩
  · rw [State.checksOf, hnoFt, firstError]
  · rw [State.checksOf, hnoTree, firstError]
  · obtain ⟨hsrc, hdst, hoverlap⟩ := regions_checks hregions
    simp only [State.checksOf, hsrc, hdst, hoverlap, hnoCt, firstError]
  · have hpass : u.tblCheck ctImageSize = none := (tblCheck_eq_none u _).mpr htbl
    simp only [State.checksOf, hpass, hnoCt, firstError]
  · have hpass : u.tblCheck ftImageSize = none := (tblCheck_eq_none u _).mpr htbl
    simp only [State.checksOf, hpass, hnoFt, firstError]

end Sys2Proof.Machine
end

section
/-! THEOREMS. Errors: the first failing check of a command is the one reported (R901, R902, R905, R910, R920), and nothing
stops the block (R900). -/

namespace Sys2Proof.Machine

/-! ### The table R905 -/

/-- What an error leaves in ERRCODE, ERRINFO0 and ERRINFO1 (R901, R902). -/
def CmdError.report (e : CmdError) : Byte × Word × Word := (e.code, e.info0, e.info1)

/-- What a row of checks reports: what its first check reports, or else what the others do (R910). -/
theorem report_firstError_cons (c : Option CmdError) (cs : List (Option CmdError)) :
    (firstError (c :: cs)).map CmdError.report = (c.map CmdError.report).or ((firstError cs).map CmdError.report) := by
  cases c <;> rfl

theorem report_firstError_nil : (firstError []).map CmdError.report = none := rfl

/-- A check that passes exactly when `p` holds reports its error when `p` fails. -/
theorem report_require {b : Bool} {e : CmdError} {p : Prop} [Decidable p] (h : require b e = none ↔ p) :
    (require b e).map CmdError.report = if p then none else some e.report := by
  rw [require_eq_none] at h
  cases b <;> simp [← h]

/-- A check that passes exactly when `p` fails reports its error when `p` holds. -/
theorem report_require_not {b : Bool} {e : CmdError} {p : Prop} [Decidable p] (h : require b e = none ↔ ¬p) :
    (require b e).map CmdError.report = if p then some e.report else none :=
  (report_require h).trans (ite_not ..)

section
variable (s : State)

theorem report_srcCheck : s.srcCheck.map CmdError.report = if s.srcOk then none else some (6, 1, s.snap.srcAddr) :=
  report_require (srcCheck_eq_none s)

theorem report_dstCheck : s.dstCheck.map CmdError.report = if s.dstOk then none else some (6, 2, s.snap.dstAddr) :=
  report_require (dstCheck_eq_none s)

theorem report_overlapCheck :
    s.overlapCheck.map CmdError.report = if s.regionsOverlap then some (6, 4, s.snap.dstAddr) else none :=
  report_require_not (overlapCheck_eq_none s)

theorem report_tblCheck (n : Nat) :
    (s.tblCheck n).map CmdError.report = if s.tblOk n then none else some (6, 3, s.snap.tblAddr) :=
  report_require (tblCheck_eq_none s n)

theorem report_nonEmptyCheck :
    s.nonEmptyCheck.map CmdError.report = if s.srcCount == 0 then some (1, 1, 0) else none :=
  report_require_not ((nonEmptyCheck_eq_none s).trans (by simp [Nat.pos_iff_ne_zero]))

theorem report_ftCheck : s.ftCheck.map CmdError.report = if s.ft.isNone then some (1, 2, 0) else none :=
  report_require_not ((ftCheck_eq_none s).trans (by simp [Option.ne_none_iff_exists']))

theorem report_treeCheck : s.treeCheck.map CmdError.report = if s.tree.isNone then some (2, 0, 0) else none :=
  report_require_not ((treeCheck_eq_none s).trans (by simp [Option.ne_none_iff_exists']))

theorem report_ctCheck : s.ctCheck.map CmdError.report = if s.ct.isNone then some (1, 4, 0) else none :=
  report_require_not ((ctCheck_eq_none s).trans (by simp [Option.ne_none_iff_exists']))

theorem report_ratioCheck : s.ratioCheck.map CmdError.report = if s.snap.arg0 == 0 then some (1, 5, 0) else none :=
  report_require_not ((ratioCheck_eq_none s).trans (by simp))

/-- TREE looks at the counts of the table held only once a table is held (R420). -/
theorem report_ftNonEmptyCheck {ft : FreqTable} (h : s.ft = some ft) : s.ftNonEmptyCheck.map CmdError.report =
    if s.ft == some (Vector.replicate 256 0) then some (1, 3, 0) else none :=
  report_require_not ((ftNonEmptyCheck_eq_none s).trans (by simp [State.ftHeld, h]))

end

/-- The error that the table R905 gives is that of the first failing check of the command. -/
theorem checkErrorOf_eq_report (s : State) (i : Instr) :
    s.checkErrorOf i = (firstError (s.checksOf i)).map CmdError.report := by
  cases i
  case nop | clear => rfl
  case tree =>
    rw [State.checksOf, report_firstError_cons, report_firstError_cons, report_firstError_nil, Option.or_none,
      report_ftCheck]
    cases hft : s.ft with
    | none =>
      rw [State.checkErrorOf, hft]
      rfl
    | some ft => rw [report_ftNonEmptyCheck s hft, State.checkErrorOf, hft]
  all_goals
    simp only [State.checksOf, report_firstError_cons, report_firstError_nil, Option.or_none, ← Option.or_assoc,
      report_srcCheck, report_dstCheck, report_overlapCheck, report_tblCheck, report_nonEmptyCheck, report_ftCheck,
      report_treeCheck, report_ctCheck, report_ratioCheck]
    rfl

/-- A command raises the error of its first check that fails (R910, R920). -/
theorem exec_of_firstError {s : State} {i : Instr} {e : CmdError} (h : firstError (s.checksOf i) = some e) :
    exec i s = .next (s.raise (resultRegs i) e) := by
  rw [exec_eq_checked, checked_fail h]

/-- Settles O22: the row's error is that of the first failing check, and raising a check error changes nothing else. -/
theorem checkErrorsAreReported : Obligations.CheckErrorsAreReported := by
  intro i s code info0 info1 h
  rw [checkErrorOf_eq_report] at h
  obtain ⟨e, he, hreport⟩ := Option.map_eq_some_iff.mp h
  cases hreport
  refine ⟨_, exec_of_firstError he, ?_, fun x => ?_⟩
  · rw [raise_check _ _ _ (isData_of_mem_checksOf (firstError_mem he))]
  · rw [read_raise]
    exact if_congr (mem_resultRegs i x) rfl rfl

/-! ### Nothing stops the block -/

theorem step_next (s : State) : ∃ t, step s = .next t := by
  obtain ⟨_, _, _, h⟩ | ⟨_, _, _, _, _, _, _, h⟩ | ⟨_, _, _, _, _, h⟩ | ⟨_, h⟩ := step_cases s
  all_goals exact ⟨_, h⟩

/-- Settles O6: each command answers a next state, and so does each of the four things a step can be. -/
theorem everyStepAnswersNext : Obligations.EveryStepAnswersNext := ⟨exec_next, step_next⟩

end Sys2Proof.Machine
end

section
/-! THEOREMS. The resets (R1000 to R1003), a host that touches a running command's regions (R1020 to R1022) and the bounded time
to completion (R1040). -/

namespace Sys2Proof.Machine

/-! ### Reset -/

/-- Settles O54: the reset state lists no byte and has every register at its reset value. -/
theorem invariantHoldsAtReset : Obligations.InvariantHoldsAtReset := by
  have hinv (k : Fin 13) : (State.resetOf k).Inv :=
    inv_of_registersReset (memOk_reset k) ⟨rfl, rfl, rfl, rfl, rfl, rfl, rfl, rfl, rfl, rfl, rfl, rfl⟩
  exact ⟨hinv _, fun k => ⟨hinv k, nofun⟩⟩

/-- In IDLE every register is read exactly (R1022 speaks of BUSY alone). -/
theorem regRead_idle {s : State} (h : s.phase = .idle) (x : Reg) : s.regRead x = s.regValue x := by
  simp [State.regRead, State.isBusy, h]

/-- Settles O19: in IDLE the host reads the registers' values, and those of the reset state are R1000's. -/
theorem resetValues : Obligations.ResetValues := by
  rintro k s rfl
  have hread (x : Reg) : (State.resetOf k).regRead x = (State.resetOf k).regValue x := regRead_idle rfl x
  have hstatus : statusOf false false false false false = 0 := by decide
  have hintr : bitWord false 0 ||| bitWord false 1 = 0 := by decide
  simp only [hread]
  refine ⟨rfl, rfl, rfl, rfl, hstatus, hintr, rfl, rfl, rfl, rfl, rfl, rfl, rfl, rfl, rfl, rfl, fun r => ?_, rfl, rfl⟩
  cases r <;> rfl

/-- With the registers at their reset values the interrupt output is low (R930, R1000). -/
theorem State.registersReset.irq_eq_false {s : State} (h : s.registersReset) : s.irq = false := by
  obtain ⟨-, hie, -⟩ := h
  rw [State.irq, hie, Bool.false_and]

/-- Settles O21: the fall of `rst_n` is a hardware reset, no access is answered while it is 0, and its rise changes no
register. -/
theorem hardwareResetHoldsTheBlock : Obligations.HardwareResetHoldsTheBlock := by
  refine ⟨fun s => ?_, fun s q hrst => ?_, fun s hreset => ⟨hreset, rfl, hreset.irq_eq_false⟩⟩
  · have hreset := registersReset_hardReset s
    exact ⟨hreset, rfl, rfl, hreset.irq_eq_false⟩
  · simp [State.event, hrst]

/-- Soft reset keeps every byte outside the output of a running command (R1002, R1025). -/
theorem byteAt_softReset {s : State} {x : Nat} (h : ¬s.isOutput x) : s.softReset.byteAt x = s.byteAt x :=
  byteAt_smearOpt s s.runningOutput x (by simpa [isOutput_iff] using h)

/-- A CTRL write with SRST = 1 is a soft reset (R121). -/
theorem regWrite_srst {v : Word} (hv : v.getLsbD 0 = true) (s : State) : s.regWrite .ctrl v = s.softReset := by
  rw [State.regWrite, State.writeCtrl, if_pos hv]

theorem not_isOutput_of_idle {s : State} (h : s.phase = .idle) (x : Nat) : ¬s.isOutput x := by
  rintro ⟨r, -, hbusy, -⟩
  exact nomatch h.symm.trans hbusy

/-- The output of the running command, by its own record (R1021). -/
theorem isOutput_of_busy {s : State} {r : Run} (hbusy : s.phase = .busy r) (x : Nat) :
    s.isOutput x ↔ ∃ i, decode r.word = .ok i ∧ mayWriteByte i r.snap x := by
  simp [State.isOutput, hbusy]

/-- The input of the running command, by its own record (R1020). -/
theorem isInput_of_busy {s : State} {r : Run} (hbusy : s.phase = .busy r) (x : Nat) :
    s.isInput x ↔ ∃ i, decode r.word = .ok i ∧ mayReadByte i r.snap x := by
  simp [State.isInput, hbusy]

/-- Settles O20: the write is a soft reset, which makes free only the bytes of a running command's output. -/
theorem softResetRestoresTheRegisters : Obligations.SoftResetRestoresTheRegisters := by
  intro s v hv
  have hreset := registersReset_softReset s
  refine ⟨_, access_write_reg s .ctrl v, ?_⟩
  rw [regWrite_srst hv]
  refine ⟨hreset, hreset.irq_eq_false, rfl, rfl, rfl, rfl, fun hidle x => ?_, fun r hbusy x hx => ?_⟩
  · exact byteAt_softReset (not_isOutput_of_idle hidle x)
  · refine byteAt_softReset fun hout => ?_
    obtain ⟨i, hd, hw⟩ := (isOutput_of_busy hbusy x).mp hout
    exact hx i hd hw

/-! ### Reads while a command runs -/

/-- STATUS bit 1 is ERR in either phase (R122, R1022). -/
theorem getLsbD_regRead_status_err (s : State) : (s.regRead .status).getLsbD 1 = s.errFlag := by
  unfold State.regRead
  split
  · rw [State.statusDrawn, getLsbD_statusOf]
    simp
  · rw [State.regValue, State.status, getLsbD_statusOf]
    simp

/-- INTR bit 1 is DROP in either phase (R123, R1022). -/
theorem getLsbD_regRead_intr_drop (s : State) : (s.regRead .intr).getLsbD 1 = s.intrDrop := by
  rw [regRead_exact s .intr (by decide) nofun, State.regValue, getLsbD_intr]
  simp

/-- CTRL reads 2 when IE is set and 0 when it is not (R121). -/
theorem ctrl_eq_ite (s : State) : s.ctrl = if s.ie then 2 else 0 := by
  unfold State.ctrl
  cases s.ie <;> rfl

/-- Settles O16: the invariant has the error registers 0 while BUSY, and R1022 makes free only STATUS's validity flags and the
result registers. -/
theorem readsWhileBusy : Obligations.ReadsWhileBusy := by
  intro s hI hbusy
  obtain ⟨-, hcode, hinfo0, hinfo1⟩ := hI.busy hbusy
  have hexact (x : Reg) (h1 : x ≠ .status) (h2 : ∀ r, x ≠ .result r) : s.regRead x = s.regValue x :=
    regRead_exact s x h1 h2
  refine ⟨(getLsbD_regRead_status s).trans hbusy, ?_, ?_, (hexact .errinfo0 nofun nofun).trans hinfo0,
    (hexact .errinfo1 nofun nofun).trans hinfo1, (hexact .ctrl nofun nofun).trans (ctrl_eq_ite s), getLsbD_regRead_intr s,
    getLsbD_regRead_intr_drop s, hexact .srcAddr nofun nofun, hexact .srcLen nofun nofun, hexact .dstAddr nofun nofun,
    hexact .dstCap nofun nofun, hexact .tblAddr nofun nofun, hexact .arg0 nofun nofun, hexact .arg1 nofun nofun⟩
  · rw [getLsbD_regRead_status_err, State.errFlag, hcode]
    rfl
  · rw [hexact .errcode nofun nofun, State.regValue, hcode]
    rfl

/-! ### Hazards -/

/-- Settles O17: the completion is that of a raced command, and it chooses freely only among what the command may write. -/
theorem racedCompletionKeepsTheRest : Obligations.RacedCompletionKeepsTheRest := by
  intro s r i hc hd hr
  have keep {α : Type} {x y z : α} {b : Bool} (h : x = y ∨ b = true ∧ x = z) (hb : b = false) : x = y :=
    h.resolve_right fun ⟨hw, _⟩ => nomatch hb.symm.trans hw
  obtain ⟨f, t, c, q, m, d, heq, hf, ht, hct, hq, hbytes⟩ := raceCompletion_spec s i r.snap
  refine ⟨_, (step_completing hc).trans (completion_raced hd hr), ?_⟩
  rw [heq] at hbytes ⊢
  exact ⟨⟨rfl, rfl, rfl, rfl, rfl, rfl, rfl, rfl⟩, rfl, rfl, legalErrCode_errCodeNo _, hq, keep hf, keep ht, keep hct, hbytes⟩

/-- The record of a running command after a host write of `n` bytes at `a` (R1020, R1021). -/
def State.notedRun (s : State) (r : Run) (a n : Nat) : Run :=
  { r with
    raced := r.raced || ((List.range n).map (a + ·)).any (regionHas s.runningInput)
    touched := r.touched ++ ((List.range n).map (a + ·)).filter (regionHas s.runningOutput) }

theorem noteWrite_busy {s : State} {r : Run} (hbusy : s.phase = .busy r) (a n : Nat) :
    s.noteWrite a n = { s with phase := .busy (s.notedRun r a n) } := by
  simp only [State.noteWrite, hbusy, State.notedRun]

theorem mem_offsets {a n x : Nat} : x ∈ (List.range n).map (a + ·) ↔ a ≤ x ∧ x < a + n := by
  simp only [List.mem_map, List.mem_range]
  constructor
  · rintro ⟨j, hj, rfl⟩
    omega
  · rintro ⟨h1, h2⟩
    exact ⟨x - a, by omega, by omega⟩

section
variable {s : State} {r : Run} {i : Instr} (hbusy : s.phase = .busy r) (hd : decode r.word = .ok i)
include hbusy hd

/-- A host write races the command exactly when one of its bytes is in the command's input (R1020). -/
theorem raced_notedRun (a n : Nat) : (s.notedRun r a n).raced = true ↔
    r.raced = true ∨ ∃ x, a ≤ x ∧ x < a + n ∧ mayReadByte i r.snap x := by
  have hin (x : Nat) : regionHas s.runningInput x = true ↔ mayReadByte i r.snap x := by
    rw [← isInput_iff, isInput_of_busy hbusy]
    simp [hd]
  simp only [State.notedRun, Bool.or_eq_true, List.any_eq_true, mem_offsets, hin, and_assoc]

/-- A host write notes exactly those of its bytes that the command may write (R1021). -/
theorem mem_touched_notedRun (a n x : Nat) : x ∈ (s.notedRun r a n).touched ↔
    x ∈ r.touched ∨ (a ≤ x ∧ x < a + n ∧ mayWriteByte i r.snap x) := by
  have hout : regionHas s.runningOutput x = true ↔ mayWriteByte i r.snap x := by
    rw [← isOutput_iff, isOutput_of_busy hbusy]
    simp [hd]
  simp only [State.notedRun, List.mem_append, List.mem_filter, mem_offsets, hout, and_assoc]

end

/-- Settles O18: the write is noted in the command's record and stored; at an unraced completion the noted bytes are made free
after `exec`. -/
theorem hostWritesWhileBusy : Obligations.HostWritesWhileBusy := by
  refine ⟨fun s r i a n v hbusy hd hn ha hs => ?_, fun s r i t u hc hd hr ht hu => ?_⟩
  · refine ⟨_, (s.notedRun r a n.toNat).raced, (s.notedRun r a n.toNat).touched, rfl, ?_⟩
    rw [access_dmem_write hn ha hs (dmemSize_le s), State.dmemWrite, noteWrite_busy hbusy]
    refine ⟨rfl, raced_notedRun hbusy hd a _, mem_touched_notedRun hbusy hd a _, fun j hj _ => ?_, fun x hx => ?_⟩
    · rw [State.respond_byteAt, byteAt_memWrite_inside _ a _ hj, extractLsb'_byte]
    · exact byteAt_memWrite_outside { s with phase := .busy (s.notedRun r a n.toNat) } _ hx
  · have hstep := (step_completing hc).trans (completion_exec hd hr ht)
    obtain rfl := Host.Outcome.next.inj (hstep.symm.trans hu)
    exact ⟨smearTouched_eq t r.touched, byteAt_smearTouched t r.touched⟩

/-! ### Bounded completion -/

/-- Every completion ends in IDLE (R112). -/
theorem step_completing_idle {s : State} {r : Run} (hc : s.completing r) : ∃ t, step s = .next t ∧ t.phase = .idle := by
  rw [step_completing hc]
  by_cases hw : isIllegal r.word
  · exact ⟨_, completion_illegal hw, raise_phase ..⟩
  obtain ⟨i, hd⟩ := (decode_isOk _).mpr hw
  cases hr : r.raced
  · obtain ⟨t, ht⟩ := exec_next i s
    obtain ⟨-, hphase, -⟩ := commandFrames i s t ht
    refine ⟨_, completion_exec hd hr ht, ?_⟩
    rw [smearTouched_eq]
    exact hphase
  · obtain ⟨_, _, _, _, _, _, heq, -⟩ := raceCompletion_spec s i r.snap
    exact ⟨_, completion_raced hd hr, by rw [heq]⟩

/-- The command is over, or it runs with `d` for the host events that may still come before its completion (R1040). -/
def State.overOrRuns (s : State) (d : Nat) : Prop :=
  s.phase = .idle ∨ s.rstN = true ∧ ∃ r, s.phase = .busy r ∧ r.delay = d

section
variable {s : State} {r : Run} (hbusy : s.phase = .busy r) (hrst : s.rstN = true)
include hbusy hrst

theorem overOrRuns_of_same {t : State} (hphase : t.phase = s.phase) (hrst' : t.rstN = s.rstN) : t.overOrRuns r.delay :=
  .inr ⟨hrst'.trans hrst, r, hphase.trans hbusy, rfl⟩

theorem overOrRuns_readRegAt (off : Nat) : (s.readRegAt off).overOrRuns r.delay := by
  obtain ⟨n, a, h⟩ := readRegAt_eq s off
  rw [h]
  exact overOrRuns_of_same hbusy hrst rfl rfl

/-- Of the registers only CTRL can end the command, by a soft reset; a CMD write is dropped (R1002, R1023). -/
theorem overOrRuns_regWrite (x : Reg) (v : Word) : (s.regWrite x v).overOrRuns r.delay := by
  cases x
  case ctrl =>
    cases hv : v.getLsbD 0
    · rw [regWrite_ctrl hv]
      exact overOrRuns_of_same hbusy hrst rfl rfl
    · rw [regWrite_srst hv]
      exact .inl rfl
  case cmd =>
    rw [State.regWrite, writeCmd_busy hbusy]
    exact overOrRuns_of_same hbusy hrst rfl rfl
  all_goals exact overOrRuns_of_same hbusy hrst rfl rfl

theorem overOrRuns_writeRegAt (off : Nat) (v : Word) : (s.writeRegAt off v).overOrRuns r.delay := by
  unfold State.writeRegAt
  split
  · exact overOrRuns_regWrite hbusy hrst _ v
  · exact overOrRuns_of_same hbusy hrst rfl rfl

/-- A DMEM write leaves the running command's delay (R1020, R1021). -/
theorem overOrRuns_dmemWrite (a n : Nat) (v : Word) : (s.dmemWrite a n v).overOrRuns r.delay := by
  rw [State.dmemWrite, noteWrite_busy hbusy]
  exact .inr ⟨hrst, s.notedRun r a n, rfl, rfl⟩

theorem overOrRuns_access (q : Access) : (s.access q).overOrRuns r.delay := by
  unfold State.access
  split
  · split
    · exact overOrRuns_writeRegAt hbusy hrst _ _
    · exact overOrRuns_readRegAt hbusy hrst _
  · split
    · exact overOrRuns_dmemWrite hbusy hrst _ _ q.wdata
    · unfold State.drawIf
      split <;> exact overOrRuns_of_same hbusy hrst rfl rfl
  · exact overOrRuns_of_same hbusy hrst rfl rfl

/-- A host event abandons the running command by a reset, or leaves it running with its delay (R1003, R1022). -/
theorem overOrRuns_event (e : HostEvent) : (s.event e).overOrRuns r.delay := by
  cases e with
  | access q =>
    rw [State.event, if_pos hrst]
    exact overOrRuns_access hbusy hrst q
  | wait =>
    rw [State.event, if_pos hrst]
    exact overOrRuns_readRegAt hbusy hrst _
  | rstN level =>
    cases level with
    | false => exact .inl rfl
    | true => exact .inr ⟨rfl, r, hbusy, rfl⟩

/-- A running command that does not complete has delay left, and the step served one host event of it (R1040). -/
theorem step_not_completing (hc : ¬s.completing r) :
    0 < r.delay ∧ ∃ t, step s = .next t ∧ t.overOrRuns (r.delay - 1) := by
  have hwait : ¬(s.hostQ = [] ∨ (∃ es, s.hostQ = .wait :: es) ∨ r.delay = 0) := fun h => hc ⟨hbusy, hrst, h⟩
  simp only [not_or, not_exists] at hwait
  obtain ⟨hnil, hnext, hdelay⟩ := hwait
  have hpos := Nat.pos_of_ne_zero hdelay
  obtain ⟨e, es, hq⟩ := List.exists_cons_of_ne_nil hnil
  have he : e ≠ .wait := fun h => hnext es (h ▸ hq)
  have hbusy' : ({ s with hostQ := es } : State).phase = .busy r := hbusy
  refine ⟨hpos, _, step_serves (not_completing_of_delay hbusy hq he hpos) hq, ?_⟩
  rw [tick_busy hbusy']
  exact overOrRuns_event (s := { s with hostQ := es, phase := .busy { r with delay := r.delay - 1 } }) rfl hrst e

end

/-- A run of the machine is its first step and the run from there. -/
theorem run_succ {s u : State} (k : Nat) (h : step s = .next u) :
    Host.Core.run Sys2Proof.core (k + 1) s = Host.Core.run Sys2Proof.core k u := by
  simp only [Host.Core.run, Host.Check.core_step, h]

/-- A command that is over or has `d` host events to come is over after at most `d + 1` steps: each step completes it, or serves
one of those events. -/
theorem run_over {s : State} {d : Nat} (h : s.overOrRuns d) :
    ∃ k t, k ≤ d + 1 ∧ Host.Core.run Sys2Proof.core k s = .next t ∧ t.phase = .idle := by
  induction d using Nat.strong_induction_on generalizing s with
  | _ d ih =>
    obtain hidle | ⟨hrst, r, hbusy, rfl⟩ := h
    · exact ⟨0, s, by omega, rfl, hidle⟩
    by_cases hc : s.completing r
    · obtain ⟨t, ht, hidle⟩ := step_completing_idle hc
      exact ⟨1, t, by omega, run_succ 0 ht, hidle⟩
    · obtain ⟨hpos, u, hu, hover⟩ := step_not_completing hbusy hrst hc
      obtain ⟨k, t, hk, ht, hidle⟩ := ih _ (by omega) hover
      exact ⟨k + 1, t, by omega, (run_succ k hu).trans ht, hidle⟩

/-- Settles O7: by induction on the delay, since a step that does not complete the command lowers it. -/
theorem acceptedCommandsComplete : Obligations.AcceptedCommandsComplete :=
  fun _ r hbusy hrst => run_over (.inr ⟨hrst, r, hbusy, rfl⟩)

end Sys2Proof.Machine
end
